-- ==== Sys2Proof/Word.lean ====
section
/-! DEFINITION. The widths of the datapath: 32-bit words and byte addresses, 8-bit bytes, 30-bit word
addresses and 5-bit register numbers (00_scope.md R7; 20_memory.md R60; 30_encoding.md R84). -/

namespace Sys2Proof

/-- A machine word, a u32 (00_scope.md R8); byte addresses are words too (R7). -/
abbrev Word := BitVec 32

/-- A byte of memory. -/
abbrev Byte := BitVec 8

/-- A halfword, one of the two halves of a word (00_scope.md R10). -/
abbrev Half := BitVec 16

/-- A word address: a byte address divided by 4 (20_memory.md R60). -/
abbrev WordAddr := BitVec 30

/-- A general register's number (30_encoding.md R84). -/
abbrev RegNum := BitVec 5

end Sys2Proof
end

