-- ==== Sys2Proof/Syntax.lean ====
section
/-! DEFINITION. The instructions of the datapath, one constructor per row of the opcode table
(30_encoding.md R103), in the table's order. -/

namespace Sys2Proof

/-- The forty-seven instructions. Operands are the fields of the encoding (30_encoding.md R82): register
numbers; a 12-bit immediate of format I or S; the 13-bit byte offset of format B and the 21-bit one of format J,
both even (R97, R99); the 20 upper bits of format U; a 5-bit shift amount (R100). -/
inductive Instr where
  | add    (rd rs1 rs2 : RegNum)
  | sub    (rd rs1 rs2 : RegNum)
  | xor    (rd rs1 rs2 : RegNum)
  | or     (rd rs1 rs2 : RegNum)
  | and    (rd rs1 rs2 : RegNum)
  | slt    (rd rs1 rs2 : RegNum)
  | sltu   (rd rs1 rs2 : RegNum)
  | addi   (rd rs1 : RegNum) (imm : BitVec 12)
  | xori   (rd rs1 : RegNum) (imm : BitVec 12)
  | ori    (rd rs1 : RegNum) (imm : BitVec 12)
  | andi   (rd rs1 : RegNum) (imm : BitVec 12)
  | slti   (rd rs1 : RegNum) (imm : BitVec 12)
  | sltiu  (rd rs1 : RegNum) (imm : BitVec 12)
  | beq    (rs1 rs2 : RegNum) (offset : BitVec 13)
  | bne    (rs1 rs2 : RegNum) (offset : BitVec 13)
  | blt    (rs1 rs2 : RegNum) (offset : BitVec 13)
  | bge    (rs1 rs2 : RegNum) (offset : BitVec 13)
  | bltu   (rs1 rs2 : RegNum) (offset : BitVec 13)
  | bgeu   (rs1 rs2 : RegNum) (offset : BitVec 13)
  | jal    (rd : RegNum) (offset : BitVec 21)
  | jalr   (rd rs1 : RegNum) (imm : BitVec 12)
  | lui    (rd : RegNum) (imm : BitVec 20)
  | auipc  (rd : RegNum) (imm : BitVec 20)
  | sll    (rd rs1 rs2 : RegNum)
  | slli   (rd rs1 : RegNum) (shamt : BitVec 5)
  | mul    (rd rs1 rs2 : RegNum)
  | mulh   (rd rs1 rs2 : RegNum)
  | mulhsu (rd rs1 rs2 : RegNum)
  | mulhu  (rd rs1 rs2 : RegNum)
  | srl    (rd rs1 rs2 : RegNum)
  | sra    (rd rs1 rs2 : RegNum)
  | srli   (rd rs1 : RegNum) (shamt : BitVec 5)
  | srai   (rd rs1 : RegNum) (shamt : BitVec 5)
  | div    (rd rs1 rs2 : RegNum)
  | divu   (rd rs1 rs2 : RegNum)
  | rem    (rd rs1 rs2 : RegNum)
  | remu   (rd rs1 rs2 : RegNum)
  | lb     (rd rs1 : RegNum) (imm : BitVec 12)
  | lh     (rd rs1 : RegNum) (imm : BitVec 12)
  | lw     (rd rs1 : RegNum) (imm : BitVec 12)
  | lbu    (rd rs1 : RegNum) (imm : BitVec 12)
  | lhu    (rd rs1 : RegNum) (imm : BitVec 12)
  | sb     (rs1 rs2 : RegNum) (imm : BitVec 12)
  | sh     (rs1 rs2 : RegNum) (imm : BitVec 12)
  | sw     (rs1 rs2 : RegNum) (imm : BitVec 12)
  | ecall
  | mret
deriving DecidableEq, Repr

end Sys2Proof
end

