-- ==== Sys2Proof/WellFormed.lean ====
section
/-! DEFINITION. Which instruction terms an encoding can hold: branch and jump offsets are even
(30_encoding.md R97, R99, R122). Every other operand fills its field exactly. -/

namespace Sys2Proof

/-- An offset whose bit 0 is 0, the only ones that formats B and J can hold (30_encoding.md R97, R99). -/
def evenOffset {n : Nat} (offset : BitVec n) : Bool := !offset.getLsbD 0

/-- The instruction has an encoding. -/
def Instr.wf : Instr → Bool
  | .beq _ _ off | .bne _ _ off | .blt _ _ off | .bge _ _ off | .bltu _ _ off | .bgeu _ _ off => evenOffset off
  | .jal _ off => evenOffset off
  | .add _ _ _ | .sub _ _ _ | .xor _ _ _ | .or _ _ _ | .and _ _ _ | .slt _ _ _ | .sltu _ _ _ => true
  | .addi _ _ _ | .xori _ _ _ | .ori _ _ _ | .andi _ _ _ | .slti _ _ _ | .sltiu _ _ _ => true
  | .jalr _ _ _ | .lui _ _ | .auipc _ _ => true
  | .sll _ _ _ | .slli _ _ _ | .srl _ _ _ | .sra _ _ _ | .srli _ _ _ | .srai _ _ _ => true
  | .mul _ _ _ | .mulh _ _ _ | .mulhsu _ _ _ | .mulhu _ _ _ => true
  | .div _ _ _ | .divu _ _ _ | .rem _ _ _ | .remu _ _ _ => true
  | .lb _ _ _ | .lh _ _ _ | .lw _ _ _ | .lbu _ _ _ | .lhu _ _ _ => true
  | .sb _ _ _ | .sh _ _ _ | .sw _ _ _ => true
  | .ecall | .mret => true

end Sys2Proof
end

