-- ==== Sys2Proof/Decode.lean ====
section
/-! DEFINITION. The encoding of instructions: byte order, fields and immediates of a word, the opcode map, the
decoder and, after it, the encoder (30_encoding.md). The decoder's constraint realisation, with its witness
pieces, is in Machine/CircuitDecode.lean. -/

namespace Sys2Proof

/-! ## Byte order (20_memory.md R64) -/

/-- The word whose byte k, from the lowest address, is `bk` (20_memory.md R64). -/
def wordOfBytes (b0 b1 b2 b3 : Byte) : Word :=
  BitVec.cast (by decide : 8 + 8 + 8 + 8 = 32)
    (b3 ++ b2 ++ b1 ++ b0)

/-- Byte `k` of a word, its bits 8k+7 to 8k (20_memory.md R64). -/
def byteOfWord (w : Word) (k : Nat) : Byte := w.extractLsb' (8 * k) 8

/-- A word as memory holds it, lowest address first (20_memory.md R64). -/
def bytesOfWord (w : Word) : List Byte := [byteOfWord w 0, byteOfWord w 1, byteOfWord w 2, byteOfWord w 3]

/-! ## Fields and immediates (30_encoding.md R81, R95 to R100) -/

/-- opcode, bits 6:0 (30_encoding.md R81). -/
def opcodeOf (w : Word) : BitVec 7 := w.extractLsb' 0 7

/-- rd, bits 11:7 (30_encoding.md R81). -/
def rdOf (w : Word) : RegNum := w.extractLsb' 7 5

/-- func3, bits 14:12 (30_encoding.md R81). -/
def func3Of (w : Word) : BitVec 3 := w.extractLsb' 12 3

/-- rs1, bits 19:15 (30_encoding.md R81). -/
def rs1Of (w : Word) : RegNum := w.extractLsb' 15 5

/-- rs2, bits 24:20, which is also the shift amount of format I-shift (30_encoding.md R81, R100). -/
def rs2Of (w : Word) : RegNum := w.extractLsb' 20 5

/-- func7, bits 31:25 (30_encoding.md R81). -/
def func7Of (w : Word) : BitVec 7 := w.extractLsb' 25 7

/-- The twelve bits of format I's immediate, word[31:20] (30_encoding.md R95). -/
def imm12I (w : Word) : BitVec 12 := w.extractLsb' 20 12

/-- The twelve bits of format S's immediate, word[31:25] above word[11:7] (30_encoding.md R96). -/
def imm12S (w : Word) : BitVec 12 :=
  BitVec.cast (by decide : 7 + 5 = 12)
    (w.extractLsb' 25 7 ++ w.extractLsb' 7 5)

/-- The thirteen bits of format B's immediate (30_encoding.md R97). -/
def offsetB (w : Word) : BitVec 13 :=
  BitVec.cast (by decide : 1 + 1 + 6 + 4 + 1 = 13)
    (w.extractLsb' 31 1 ++ w.extractLsb' 7 1 ++ w.extractLsb' 25 6 ++ w.extractLsb' 8 4 ++ 0#1)

/-- The twenty upper bits of format U's immediate, word[31:12] (30_encoding.md R98). -/
def imm20U (w : Word) : BitVec 20 := w.extractLsb' 12 20

/-- The twenty-one bits of format J's immediate (30_encoding.md R99). -/
def offsetJ (w : Word) : BitVec 21 :=
  BitVec.cast (by decide : 1 + 8 + 1 + 10 + 1 = 21)
    (w.extractLsb' 31 1 ++ w.extractLsb' 12 8 ++ w.extractLsb' 20 1 ++ w.extractLsb' 21 10 ++ 0#1)

/-- A sign-extended immediate as a u32 (00_scope.md R9; 30_encoding.md R101). -/
def sextWord {n : Nat} (imm : BitVec n) : Word := imm.signExtend 32

/-- The U immediate's value, its twenty bits above twelve zeros (30_encoding.md R98). -/
def upperWord (imm : BitVec 20) : Word := BitVec.cast (by decide : 20 + 12 = 32) (imm ++ 0#12)

/-! ## The opcode map (30_encoding.md R102, R103, R116) -/

/-- The instructions of the opcode table without operands. -/
inductive Op where
  | add | sub | xor | or | and | slt | sltu | addi
  | xori | ori | andi | slti | sltiu | beq | bne | blt
  | bge | bltu | bgeu | jal | jalr | lui | auipc | sll
  | slli | mul | mulh | mulhsu | mulhu | srl | sra | srli
  | srai | div | divu | rem | remu | lb | lh | lw
  | lbu | lhu | sb | sh | sw | ecall | mret
deriving DecidableEq, Repr

/-- The major groups of the datapath (30_encoding.md R103, R117); their numeric codes are OPEN. -/
inductive MajorGroup where
  | alu0 | alu1 | alu2 | mul0 | div0 | mem0 | mem1 | ecall | control
deriving DecidableEq, Repr

/-- One row of the table of 30_encoding.md R103. A minor of `none` is OPEN. -/
structure TableRow where
  op    : Op
  group : MajorGroup
  minor : Option Nat
  mtch  : Word
  mask  : Word
deriving DecidableEq, Repr

/-- The word is this row's instruction (30_encoding.md R103). -/
def TableRow.hits (r : TableRow) (w : Word) : Bool := w &&& r.mask == r.mtch

/-- The rows of major group ALU0 (30_encoding.md R103). -/
def rowsAlu0 : List TableRow := [
  ⟨.add, .alu0, some 0, 0x00000033#32, 0xFE00707F#32⟩,
  ⟨.sub, .alu0, some 1, 0x40000033#32, 0xFE00707F#32⟩,
  ⟨.xor, .alu0, some 2, 0x00004033#32, 0xFE00707F#32⟩,
  ⟨.or, .alu0, some 3, 0x00006033#32, 0xFE00707F#32⟩,
  ⟨.and, .alu0, some 4, 0x00007033#32, 0xFE00707F#32⟩,
  ⟨.slt, .alu0, some 5, 0x00002033#32, 0xFE00707F#32⟩,
  ⟨.sltu, .alu0, some 6, 0x00003033#32, 0xFE00707F#32⟩,
  ⟨.addi, .alu0, some 7, 0x00000013#32, 0x0000707F#32⟩ ]

/-- The rows of major group ALU1 (30_encoding.md R103). -/
def rowsAlu1 : List TableRow := [
  ⟨.xori, .alu1, some 0, 0x00004013#32, 0x0000707F#32⟩,
  ⟨.ori, .alu1, some 1, 0x00006013#32, 0x0000707F#32⟩,
  ⟨.andi, .alu1, some 2, 0x00007013#32, 0x0000707F#32⟩,
  ⟨.slti, .alu1, some 3, 0x00002013#32, 0x0000707F#32⟩,
  ⟨.sltiu, .alu1, some 4, 0x00003013#32, 0x0000707F#32⟩,
  ⟨.beq, .alu1, some 5, 0x00000063#32, 0x0000707F#32⟩,
  ⟨.bne, .alu1, some 6, 0x00001063#32, 0x0000707F#32⟩,
  ⟨.blt, .alu1, some 7, 0x00004063#32, 0x0000707F#32⟩ ]

/-- The rows of major group ALU2 (30_encoding.md R103). -/
def rowsAlu2 : List TableRow := [
  ⟨.bge, .alu2, some 0, 0x00005063#32, 0x0000707F#32⟩,
  ⟨.bltu, .alu2, some 1, 0x00006063#32, 0x0000707F#32⟩,
  ⟨.bgeu, .alu2, some 2, 0x00007063#32, 0x0000707F#32⟩,
  ⟨.jal, .alu2, some 3, 0x0000006F#32, 0x0000007F#32⟩,
  ⟨.jalr, .alu2, some 4, 0x00000067#32, 0x0000707F#32⟩,
  ⟨.lui, .alu2, some 5, 0x00000037#32, 0x0000007F#32⟩,
  ⟨.auipc, .alu2, some 6, 0x00000017#32, 0x0000007F#32⟩ ]

/-- The rows of major group MUL0 (30_encoding.md R103). -/
def rowsMul0 : List TableRow := [
  ⟨.sll, .mul0, some 0, 0x00001033#32, 0xFE00707F#32⟩,
  ⟨.slli, .mul0, some 1, 0x00001013#32, 0xFE00707F#32⟩,
  ⟨.mul, .mul0, some 2, 0x02000033#32, 0xFE00707F#32⟩,
  ⟨.mulh, .mul0, some 3, 0x02001033#32, 0xFE00707F#32⟩,
  ⟨.mulhsu, .mul0, some 4, 0x02002033#32, 0xFE00707F#32⟩,
  ⟨.mulhu, .mul0, some 5, 0x02003033#32, 0xFE00707F#32⟩ ]

/-- The rows of major group DIV0 (30_encoding.md R103). -/
def rowsDiv0 : List TableRow := [
  ⟨.srl, .div0, some 0, 0x00005033#32, 0xFE00707F#32⟩,
  ⟨.sra, .div0, some 1, 0x40005033#32, 0xFE00707F#32⟩,
  ⟨.srli, .div0, some 2, 0x00005013#32, 0xFE00707F#32⟩,
  ⟨.srai, .div0, some 3, 0x40005013#32, 0xFE00707F#32⟩,
  ⟨.div, .div0, some 4, 0x02004033#32, 0xFE00707F#32⟩,
  ⟨.divu, .div0, some 5, 0x02005033#32, 0xFE00707F#32⟩,
  ⟨.rem, .div0, some 6, 0x02006033#32, 0xFE00707F#32⟩,
  ⟨.remu, .div0, some 7, 0x02007033#32, 0xFE00707F#32⟩ ]

/-- The rows of major group MEM0 (30_encoding.md R103). -/
def rowsMem0 : List TableRow := [
  ⟨.lb, .mem0, some 0, 0x00000003#32, 0x0000707F#32⟩,
  ⟨.lh, .mem0, some 1, 0x00001003#32, 0x0000707F#32⟩,
  ⟨.lw, .mem0, some 2, 0x00002003#32, 0x0000707F#32⟩,
  ⟨.lbu, .mem0, some 3, 0x00004003#32, 0x0000707F#32⟩,
  ⟨.lhu, .mem0, some 4, 0x00005003#32, 0x0000707F#32⟩ ]

/-- The rows of major group MEM1 (30_encoding.md R103). -/
def rowsMem1 : List TableRow := [
  ⟨.sb, .mem1, some 0, 0x00000023#32, 0x0000707F#32⟩,
  ⟨.sh, .mem1, some 1, 0x00001023#32, 0x0000707F#32⟩,
  ⟨.sw, .mem1, some 2, 0x00002023#32, 0x0000707F#32⟩ ]

/-- The rows of major group ECALL (30_encoding.md R103). -/
def rowsEcall : List TableRow := [
  ⟨.ecall, .ecall, none, 0x00000073#32, 0xFFFFFFFF#32⟩ ]

/-- The rows of major group CONTROL (30_encoding.md R103). -/
def rowsControl : List TableRow := [
  ⟨.mret, .control, none, 0x30200073#32, 0xFFFFFFFF#32⟩ ]

/-- The complete table (30_encoding.md R103). -/
def opcodeTable : List TableRow :=
  rowsAlu0 ++ rowsAlu1 ++ rowsAlu2 ++ rowsMul0 ++ rowsDiv0 ++ rowsMem0 ++ rowsMem1 ++ rowsEcall ++ rowsControl

/-- The row of an instruction (30_encoding.md R103, R117). -/
def Op.row (op : Op) : Option TableRow := opcodeTable.find? (fun r => r.op == op)

/-- Lookup by the table's match and mask values (30_encoding.md R103, R116); `none` is ILLEGAL. -/
def lookupByMask (w : Word) : Option Op := (opcodeTable.find? (fun r => r.hits w)).map TableRow.op

/-- Lookup by the decoded fields, and for the two I-sys rows by the whole word (30_encoding.md R102, R116);
`none` is ILLEGAL, for every combination the map does not list (R118). -/
def lookupFields (opcode func3 func7 word : Nat) : Option Op :=
  match opcode with
  | 0x33 =>
    match func3, func7 with
    | 0, 0x00 => some .add
    | 0, 0x20 => some .sub
    | 4, 0x00 => some .xor
    | 6, 0x00 => some .or
    | 7, 0x00 => some .and
    | 2, 0x00 => some .slt
    | 3, 0x00 => some .sltu
    | 1, 0x00 => some .sll
    | 0, 0x01 => some .mul
    | 1, 0x01 => some .mulh
    | 2, 0x01 => some .mulhsu
    | 3, 0x01 => some .mulhu
    | 5, 0x00 => some .srl
    | 5, 0x20 => some .sra
    | 4, 0x01 => some .div
    | 5, 0x01 => some .divu
    | 6, 0x01 => some .rem
    | 7, 0x01 => some .remu
    | _, _ => none
  | 0x13 =>
    match func3, func7 with
    | 0, _ => some .addi
    | 4, _ => some .xori
    | 6, _ => some .ori
    | 7, _ => some .andi
    | 2, _ => some .slti
    | 3, _ => some .sltiu
    | 1, 0x00 => some .slli
    | 5, 0x00 => some .srli
    | 5, 0x20 => some .srai
    | _, _ => none
  | 0x63 =>
    match func3 with
    | 0 => some .beq
    | 1 => some .bne
    | 4 => some .blt
    | 5 => some .bge
    | 6 => some .bltu
    | 7 => some .bgeu
    | _ => none
  | 0x6F => some .jal
  | 0x67 =>
    match func3 with
    | 0 => some .jalr
    | _ => none
  | 0x37 => some .lui
  | 0x17 => some .auipc
  | 0x03 =>
    match func3 with
    | 0 => some .lb
    | 1 => some .lh
    | 2 => some .lw
    | 4 => some .lbu
    | 5 => some .lhu
    | _ => none
  | 0x23 =>
    match func3 with
    | 0 => some .sb
    | 1 => some .sh
    | 2 => some .sw
    | _ => none
  | 0x73 => if word = 0x00000073 then some .ecall else if word = 0x30200073 then some .mret else none
  | _ => none

/-- Lookup of a word by its fields (30_encoding.md R116). -/
def lookup (w : Word) : Option Op :=
  lookupFields (opcodeOf w).toNat (func3Of w).toNat (func7Of w).toNat w.toNat

/-! ## The decoder -/

/-- Why bytes are no instruction. -/
inductive DecodeError where
  /-- Fewer than the four bytes that every instruction has (30_encoding.md R80). -/
  | truncated
  /-- The word is no row of the table (30_encoding.md R118). -/
  | illegal (word : Word)
deriving DecidableEq, Repr

/-- The instruction a word of a row stands for, its operands taken from the row's format (30_encoding.md R82). -/
def Op.withOperands (op : Op) (w : Word) : Instr :=
  match op with
  | .add => .add (rdOf w) (rs1Of w) (rs2Of w)
  | .sub => .sub (rdOf w) (rs1Of w) (rs2Of w)
  | .xor => .xor (rdOf w) (rs1Of w) (rs2Of w)
  | .or => .or (rdOf w) (rs1Of w) (rs2Of w)
  | .and => .and (rdOf w) (rs1Of w) (rs2Of w)
  | .slt => .slt (rdOf w) (rs1Of w) (rs2Of w)
  | .sltu => .sltu (rdOf w) (rs1Of w) (rs2Of w)
  | .addi => .addi (rdOf w) (rs1Of w) (imm12I w)
  | .xori => .xori (rdOf w) (rs1Of w) (imm12I w)
  | .ori => .ori (rdOf w) (rs1Of w) (imm12I w)
  | .andi => .andi (rdOf w) (rs1Of w) (imm12I w)
  | .slti => .slti (rdOf w) (rs1Of w) (imm12I w)
  | .sltiu => .sltiu (rdOf w) (rs1Of w) (imm12I w)
  | .beq => .beq (rs1Of w) (rs2Of w) (offsetB w)
  | .bne => .bne (rs1Of w) (rs2Of w) (offsetB w)
  | .blt => .blt (rs1Of w) (rs2Of w) (offsetB w)
  | .bge => .bge (rs1Of w) (rs2Of w) (offsetB w)
  | .bltu => .bltu (rs1Of w) (rs2Of w) (offsetB w)
  | .bgeu => .bgeu (rs1Of w) (rs2Of w) (offsetB w)
  | .jal => .jal (rdOf w) (offsetJ w)
  | .jalr => .jalr (rdOf w) (rs1Of w) (imm12I w)
  | .lui => .lui (rdOf w) (imm20U w)
  | .auipc => .auipc (rdOf w) (imm20U w)
  | .sll => .sll (rdOf w) (rs1Of w) (rs2Of w)
  | .slli => .slli (rdOf w) (rs1Of w) (rs2Of w)
  | .mul => .mul (rdOf w) (rs1Of w) (rs2Of w)
  | .mulh => .mulh (rdOf w) (rs1Of w) (rs2Of w)
  | .mulhsu => .mulhsu (rdOf w) (rs1Of w) (rs2Of w)
  | .mulhu => .mulhu (rdOf w) (rs1Of w) (rs2Of w)
  | .srl => .srl (rdOf w) (rs1Of w) (rs2Of w)
  | .sra => .sra (rdOf w) (rs1Of w) (rs2Of w)
  | .srli => .srli (rdOf w) (rs1Of w) (rs2Of w)
  | .srai => .srai (rdOf w) (rs1Of w) (rs2Of w)
  | .div => .div (rdOf w) (rs1Of w) (rs2Of w)
  | .divu => .divu (rdOf w) (rs1Of w) (rs2Of w)
  | .rem => .rem (rdOf w) (rs1Of w) (rs2Of w)
  | .remu => .remu (rdOf w) (rs1Of w) (rs2Of w)
  | .lb => .lb (rdOf w) (rs1Of w) (imm12I w)
  | .lh => .lh (rdOf w) (rs1Of w) (imm12I w)
  | .lw => .lw (rdOf w) (rs1Of w) (imm12I w)
  | .lbu => .lbu (rdOf w) (rs1Of w) (imm12I w)
  | .lhu => .lhu (rdOf w) (rs1Of w) (imm12I w)
  | .sb => .sb (rs1Of w) (rs2Of w) (imm12S w)
  | .sh => .sh (rs1Of w) (rs2Of w) (imm12S w)
  | .sw => .sw (rs1Of w) (rs2Of w) (imm12S w)
  | .ecall => .ecall
  | .mret => .mret

/-- Decode a fetched word (30_encoding.md R85, R116, R118). -/
def decodeWord (w : Word) : Except DecodeError Instr :=
  match lookup w with
  | some op => .ok (op.withOperands w)
  | none => .error (.illegal w)

/-- Decode the instruction at the head of some bytes, and give the bytes after it (30_encoding.md R80). -/
def decode (bytes : List Byte) : Except DecodeError (Instr × List Byte) :=
  match bytes with
  | b0 :: b1 :: b2 :: b3 :: rest =>
    match decodeWord (wordOfBytes b0 b1 b2 b3) with
    | .ok i => .ok (i, rest)
    | .error e => .error e
  | _ => .error .truncated

/-- The word of the low `nbits` bits of `w`, every other bit 0. -/
def tableWord (nbits w : Nat) : Word := BitVec.ofNat 32 (w % 2 ^ nbits)

/-- The instruction the decoder reads from a row of the opcode table whose bits are `w`. -/
def decodeTableWord (nbits w : Nat) : Option Instr :=
  match decode (bytesOfWord (tableWord nbits w)) with
  | .ok (i, _) => some i
  | .error _ => none

/-! ## The encoder -/

/-- The row an instruction belongs to. -/
def Instr.op : Instr → Op
  | .add _ _ _ => .add
  | .sub _ _ _ => .sub
  | .xor _ _ _ => .xor
  | .or _ _ _ => .or
  | .and _ _ _ => .and
  | .slt _ _ _ => .slt
  | .sltu _ _ _ => .sltu
  | .addi _ _ _ => .addi
  | .xori _ _ _ => .xori
  | .ori _ _ _ => .ori
  | .andi _ _ _ => .andi
  | .slti _ _ _ => .slti
  | .sltiu _ _ _ => .sltiu
  | .beq _ _ _ => .beq
  | .bne _ _ _ => .bne
  | .blt _ _ _ => .blt
  | .bge _ _ _ => .bge
  | .bltu _ _ _ => .bltu
  | .bgeu _ _ _ => .bgeu
  | .jal _ _ => .jal
  | .jalr _ _ _ => .jalr
  | .lui _ _ => .lui
  | .auipc _ _ => .auipc
  | .sll _ _ _ => .sll
  | .slli _ _ _ => .slli
  | .mul _ _ _ => .mul
  | .mulh _ _ _ => .mulh
  | .mulhsu _ _ _ => .mulhsu
  | .mulhu _ _ _ => .mulhu
  | .srl _ _ _ => .srl
  | .sra _ _ _ => .sra
  | .srli _ _ _ => .srli
  | .srai _ _ _ => .srai
  | .div _ _ _ => .div
  | .divu _ _ _ => .divu
  | .rem _ _ _ => .rem
  | .remu _ _ _ => .remu
  | .lb _ _ _ => .lb
  | .lh _ _ _ => .lh
  | .lw _ _ _ => .lw
  | .lbu _ _ _ => .lbu
  | .lhu _ _ _ => .lhu
  | .sb _ _ _ => .sb
  | .sh _ _ _ => .sh
  | .sw _ _ _ => .sw
  | .ecall => .ecall
  | .mret => .mret

/-- Formats R and I-shift (30_encoding.md R82). -/
def encR (func7 : BitVec 7) (rs2 rs1 : RegNum) (func3 : BitVec 3) (rd : RegNum) (opcode : BitVec 7) : Word :=
  BitVec.cast (by decide : 7 + 5 + 5 + 3 + 5 + 7 = 32)
    (func7 ++ rs2 ++ rs1 ++ func3 ++ rd ++ opcode)

/-- Format I (30_encoding.md R82, R95). -/
def encI (imm : BitVec 12) (rs1 : RegNum) (func3 : BitVec 3) (rd : RegNum) (opcode : BitVec 7) : Word :=
  BitVec.cast (by decide : 12 + 5 + 3 + 5 + 7 = 32)
    (imm ++ rs1 ++ func3 ++ rd ++ opcode)

/-- Format S (30_encoding.md R82, R96). -/
def encS (imm : BitVec 12) (rs2 rs1 : RegNum) (func3 : BitVec 3) (opcode : BitVec 7) : Word :=
  BitVec.cast (by decide : 7 + 5 + 5 + 3 + 5 + 7 = 32)
    (imm.extractLsb' 5 7 ++ rs2 ++ rs1 ++ func3 ++ imm.extractLsb' 0 5 ++ opcode)

/-- Format B (30_encoding.md R82, R97); bit 0 of the offset has no place in the word. -/
def encB (offset : BitVec 13) (rs2 rs1 : RegNum) (func3 : BitVec 3) (opcode : BitVec 7) : Word :=
  BitVec.cast (by decide : 1 + 6 + 5 + 5 + 3 + 4 + 1 + 7 = 32)
    (offset.extractLsb' 12 1 ++ offset.extractLsb' 5 6 ++ rs2 ++ rs1 ++ func3 ++ offset.extractLsb' 1 4
      ++ offset.extractLsb' 11 1 ++ opcode)

/-- Format U (30_encoding.md R82, R98). -/
def encU (imm : BitVec 20) (rd : RegNum) (opcode : BitVec 7) : Word :=
  BitVec.cast (by decide : 20 + 5 + 7 = 32)
    (imm ++ rd ++ opcode)

/-- Format J (30_encoding.md R82, R99); bit 0 of the offset has no place in the word. -/
def encJ (offset : BitVec 21) (rd : RegNum) (opcode : BitVec 7) : Word :=
  BitVec.cast (by decide : 1 + 10 + 1 + 8 + 5 + 7 = 32)
    (offset.extractLsb' 20 1 ++ offset.extractLsb' 1 10 ++ offset.extractLsb' 11 1 ++ offset.extractLsb' 12 8
      ++ rd ++ opcode)

/-- The word of an instruction, from the fields of its row (30_encoding.md R102, R103). -/
def encode : Instr → Word
  | .add rd rs1 rs2 => encR 0x00#7 rs2 rs1 0#3 rd 0x33#7
  | .sub rd rs1 rs2 => encR 0x20#7 rs2 rs1 0#3 rd 0x33#7
  | .xor rd rs1 rs2 => encR 0x00#7 rs2 rs1 4#3 rd 0x33#7
  | .or rd rs1 rs2 => encR 0x00#7 rs2 rs1 6#3 rd 0x33#7
  | .and rd rs1 rs2 => encR 0x00#7 rs2 rs1 7#3 rd 0x33#7
  | .slt rd rs1 rs2 => encR 0x00#7 rs2 rs1 2#3 rd 0x33#7
  | .sltu rd rs1 rs2 => encR 0x00#7 rs2 rs1 3#3 rd 0x33#7
  | .addi rd rs1 imm => encI imm rs1 0#3 rd 0x13#7
  | .xori rd rs1 imm => encI imm rs1 4#3 rd 0x13#7
  | .ori rd rs1 imm => encI imm rs1 6#3 rd 0x13#7
  | .andi rd rs1 imm => encI imm rs1 7#3 rd 0x13#7
  | .slti rd rs1 imm => encI imm rs1 2#3 rd 0x13#7
  | .sltiu rd rs1 imm => encI imm rs1 3#3 rd 0x13#7
  | .beq rs1 rs2 offset => encB offset rs2 rs1 0#3 0x63#7
  | .bne rs1 rs2 offset => encB offset rs2 rs1 1#3 0x63#7
  | .blt rs1 rs2 offset => encB offset rs2 rs1 4#3 0x63#7
  | .bge rs1 rs2 offset => encB offset rs2 rs1 5#3 0x63#7
  | .bltu rs1 rs2 offset => encB offset rs2 rs1 6#3 0x63#7
  | .bgeu rs1 rs2 offset => encB offset rs2 rs1 7#3 0x63#7
  | .jal rd offset => encJ offset rd 0x6F#7
  | .jalr rd rs1 imm => encI imm rs1 0#3 rd 0x67#7
  | .lui rd imm => encU imm rd 0x37#7
  | .auipc rd imm => encU imm rd 0x17#7
  | .sll rd rs1 rs2 => encR 0x00#7 rs2 rs1 1#3 rd 0x33#7
  | .slli rd rs1 shamt => encR 0x00#7 shamt rs1 1#3 rd 0x13#7
  | .mul rd rs1 rs2 => encR 0x01#7 rs2 rs1 0#3 rd 0x33#7
  | .mulh rd rs1 rs2 => encR 0x01#7 rs2 rs1 1#3 rd 0x33#7
  | .mulhsu rd rs1 rs2 => encR 0x01#7 rs2 rs1 2#3 rd 0x33#7
  | .mulhu rd rs1 rs2 => encR 0x01#7 rs2 rs1 3#3 rd 0x33#7
  | .srl rd rs1 rs2 => encR 0x00#7 rs2 rs1 5#3 rd 0x33#7
  | .sra rd rs1 rs2 => encR 0x20#7 rs2 rs1 5#3 rd 0x33#7
  | .srli rd rs1 shamt => encR 0x00#7 shamt rs1 5#3 rd 0x13#7
  | .srai rd rs1 shamt => encR 0x20#7 shamt rs1 5#3 rd 0x13#7
  | .div rd rs1 rs2 => encR 0x01#7 rs2 rs1 4#3 rd 0x33#7
  | .divu rd rs1 rs2 => encR 0x01#7 rs2 rs1 5#3 rd 0x33#7
  | .rem rd rs1 rs2 => encR 0x01#7 rs2 rs1 6#3 rd 0x33#7
  | .remu rd rs1 rs2 => encR 0x01#7 rs2 rs1 7#3 rd 0x33#7
  | .lb rd rs1 imm => encI imm rs1 0#3 rd 0x03#7
  | .lh rd rs1 imm => encI imm rs1 1#3 rd 0x03#7
  | .lw rd rs1 imm => encI imm rs1 2#3 rd 0x03#7
  | .lbu rd rs1 imm => encI imm rs1 4#3 rd 0x03#7
  | .lhu rd rs1 imm => encI imm rs1 5#3 rd 0x03#7
  | .sb rs1 rs2 imm => encS imm rs2 rs1 0#3 0x23#7
  | .sh rs1 rs2 imm => encS imm rs2 rs1 1#3 0x23#7
  | .sw rs1 rs2 imm => encS imm rs2 rs1 2#3 0x23#7
  | .ecall => 0x00000073#32
  | .mret => 0x30200073#32

/-- The bytes of an instruction as memory holds them. -/
def encodeBytes (i : Instr) : List Byte := bytesOfWord (encode i)

end Sys2Proof
end

