-- ==== Sys2Proof/Config.lean ====
section
/-! DEFINITION. What the spec leaves to the implementation (00_scope.md R7): the shapes of its OPEN
parameters, which State carries as plain data so that every statement holds for each value of them, the
free bytes of the initial image, and the values the model names for reset, each with its entry of the assumption
log. -/

namespace Sys2Proof

/-- The kinds of access that ADDR_OK tells apart (20_memory.md R68). -/
inductive AccessKind where
  | fetch
  | load
  | store
deriving DecidableEq, Repr

/-- One refusal of the memory subsystem: the accesses of `kind` to the word addresses `first` to `last`, in the
mode `mode` or, where that is `none`, in every mode. -/
structure DenyRule where
  mode  : Option Nat
  kind  : AccessKind
  first : WordAddr
  last  : WordAddr
deriving DecidableEq, Repr

/-- The OPEN parameters STATE_DECODE, REG_BASE(mode) and ADDR_OK(mode, w, kind) as data (10_state.md R35, R36;
20_memory.md R68). `stateDecode` is the field value of the decode-ready interpreter state (log 6); `regBases` gives
the base of each mode listed, `regBaseDefault` that of every other; `denied` lists what ADDR_OK refuses. DESIGN
CHOICE (log 1, log 4), safe: every such choice of parameters over finitely many modes is one of these, and every
statement holds for all of them. -/
structure Params where
  stateDecode    : Nat
  regBases       : List (Nat × WordAddr)
  regBaseDefault : WordAddr
  denied         : List DenyRule
deriving DecidableEq, Repr

/-- What the control subsystem returns for one ECALL or MRET (48_system.md R340): the output record
(newPc, newState, newMode) and the word writes it made, in order. -/
structure ControlResult where
  newPc    : Word
  newState : Nat
  newMode  : Nat
  writes   : List (WordAddr × Word)
deriving DecidableEq, Repr

/-- One answer of CONTROL_STEP: a result, or a violation raised inside it (48_system.md R340, R341). -/
inductive ControlAnswer where
  | result (r : ControlResult)
  | violation
deriving DecidableEq, Repr

namespace Config

/-- NUM_MINORS, the minors of one major (00_scope.md R7). -/
def numMinors : Nat := 8

/-- The spec's default for the OPEN field prime FIELD_P, 15·2^27 + 1 (00_scope.md R7). -/
def defaultFieldP : Nat := 2013265921

/-- The byte of the initial memory image M0 at an address that the image does not fix: any value
(70_reset_and_hazards.md R383; 93_implementation_defined.md). A free value (log 8): it has no body, so nothing can be
proved of it. -/
opaque initialByte : Nat → Byte

/-- INIT_PC, which is OPEN (70_reset_and_hazards.md R381). DESIGN CHOICE (log 5), unsafe: the start address of
the spec's test programs (95_test_vectors.md, L3). -/
def initPc : Word := 0x00001000#32

/-- INIT_MODE, which is OPEN (70_reset_and_hazards.md R381). DESIGN CHOICE (log 7), unsafe. -/
def initMode : Nat := 0

/-- STATE_DECODE at reset, which is OPEN (10_state.md R35). DESIGN CHOICE (log 6), unsafe. -/
def initStateDecode : Nat := 0

/-- REG_BASE of every mode at reset, which is OPEN (10_state.md R36). DESIGN CHOICE (log 2), unsafe: the last
32 words of the address space. -/
def initRegBase : WordAddr := 0x3FFFFFE0#30

/-- The OPEN parameters at reset. DESIGN CHOICE (log 2, log 4, log 6), unsafe: one register region for every mode, and
ADDR_OK true everywhere, as in the conventions of 95_test_vectors.md. -/
def initParams : Params :=
  { stateDecode := initStateDecode, regBases := [], regBaseDefault := initRegBase, denied := [] }

end Config

end Sys2Proof
end

