-- ==== Sys2Proof/Machine/State.lean ====
section
/-! DEFINITION. The state of the machine as plain data, the reasons a step stops, and the state after reset
(10_state.md; 60_exceptions.md R361; 70_reset_and_hazards.md R381). -/

namespace Sys2Proof.Machine

/-- Memory: the bytes that the image fixes or a store has written, by byte address, rising; every other address
reads as a free value (log 8) (20_memory.md R60, R64; 70_reset_and_hazards.md R383). The general registers live in it
(10_state.md R36). -/
abbrev Memory := List Host.Cell

/-- What the row-to-row handoff, the memory and the subsystems outside the block hold between two cycles
(10_state.md R30, R31, R34). -/
structure State where
  /-- The byte address of the instruction of this cycle (10_state.md R39). -/
  pc      : Word
  /-- The interpreter state code, a field element (10_state.md R31, R35; log 6). The source names the states
  decode-ready, suspended, resumed, loading-root, storing-root, table-walk, ecall-dispatch substates and paging
  substates; the code of the first is the parameter STATE_DECODE. -/
  istate  : Nat
  /-- The privilege mode, a field element whose values are OPEN (60_exceptions.md R370; log 7). -/
  mode    : Nat
  /-- The one memory address space, the general registers' slots among its words (20_memory.md R60). -/
  mem     : Memory
  /-- The proof's cycle counter, invisible to a program (60_exceptions.md R371; log 12). -/
  cycle   : Nat
  /-- The MODEL's own field: the OPEN parameters STATE_DECODE, REG_BASE and ADDR_OK (00_scope.md R7; log 1, log 4,
  log 6). -/
  params  : Params
  /-- The MODEL's own field: the answers that CONTROL_STEP, OPEN, will give, the next one first; with none left
  the default CONTROL_STEP applies (48_system.md R340, R341; log 9). -/
  control : List ControlAnswer
deriving DecidableEq, Repr

/-- The violation codes of 60_exceptions.md R361. A violation is fatal to the whole trace (R360), so each is
safe: the hardware has no valid row there either. `step` raises `vState`, `vFetchAlign`, `vIllegal`,
`vMisaligned`, `vMem` and `vControl` (R364); the circuit layer raises every code but `vControl` and hands that
one through. -/
inductive Fault where
  /-- A Bit cell not in 0..1; raised by the circuit layer (safe). -/
  | vBit
  /-- A Twit cell not in 0..3; raised by the circuit layer (safe). -/
  | vTwit
  /-- A byte range check fails; raised by the circuit layer (safe). -/
  | vU8
  /-- A halfword range check fails; raised by the circuit layer (safe). -/
  | vU16
  /-- An equality of a unit fails; raised by the circuit layer (safe). -/
  | vEq
  /-- A normalize or address-split identity fails; raised by the circuit layer (safe). -/
  | vNorm
  /-- The decoded pieces do not reassemble the fetched word; raised by the circuit layer (safe). -/
  | vReassemble
  /-- The minor one-hot or the power table is not one-hot, or the minor disagrees; raised by the circuit layer
  (safe). -/
  | vOnehot
  /-- The input interpreter state is not STATE_DECODE; raised by `step` and the circuit layer (safe): such a
  cycle belongs to the control subsystem (93_implementation_defined.md). -/
  | vState
  /-- The pc is not a multiple of 4 at fetch; raised by `step` and the circuit layer (safe). -/
  | vFetchAlign
  /-- The fetched word is no instruction of the datapath; raised by `step` and the circuit layer (safe). -/
  | vIllegal
  /-- The oracle's (major, minor) does not name the decoded instruction; raised by the circuit layer (safe). -/
  | vDispatch
  /-- A halfword or word data access is misaligned; raised by loads and stores (safe). -/
  | vMisaligned
  /-- ADDR_OK refuses an access, or a store's new word is not the merge; raised by `step`, loads and stores
  (safe). -/
  | vMem
  /-- A division back-check or remainder bound fails; raised by the circuit layer (safe). -/
  | vDiv
  /-- A constraint of CONTROL_STEP fails; raised by ECALL and MRET when the control subsystem answers so
  (safe). -/
  | vControl
deriving DecidableEq, Repr

/-- Why a step has no next state though no constraint fails. -/
inductive Refusal where
  /-- An instruction without a meaning; raised by no arm of `exec` (safe). -/
  | notModelled (mnemonic : String)
  /-- The outcome Control(word, pc) of the default CONTROL_STEP: the block-level run ends at an ECALL or MRET
  with no state changed; raised by these two when the control subsystem has no answer (48_system.md R341)
  (safe). -/
  | control (word pc : Word)
deriving DecidableEq, Repr

/-- `n` bytes of value 0 from an address on. -/
def zeroBytes : (n a : Nat) → Memory
  | 0, _ => []
  | n + 1, a => (a, 0#8) :: zeroBytes n (a + 1)

/-- The machine right after reset. The spec gives no value of its own (70_reset_and_hazards.md R380, R381) but
x0's 0 (R384): the handoff and the OPEN parameters are the log's (log 2, log 4 to log 7, log 9, log 12). Memory lists
the thirty-two register slots alone, with 0 in each (log 22); every other byte of M0 is a free value (log 8). -/
def State.reset : State :=
  { pc := Config.initPc
    istate := Config.initStateDecode
    mode := Config.initMode
    mem := zeroBytes 128 (4 * Config.initRegBase.toNat)
    cycle := 0
    params := Config.initParams
    control := [] }

end Sys2Proof.Machine
end

