-- ==== Sys2Proof/Machine/Ops.lean ====
section
/-! DEFINITION. The named operations over memory, registers and the handoff fields that the meanings are built
from: word transactions (20_memory.md), register transactions (10_state.md R36, R37), the checks of an access
(R312, R363), raising a violation (00_scope.md R13) and the hand-off to the control subsystem (48_system.md). -/

namespace Sys2Proof.Machine

/-- What a meaning answers. -/
abbrev Result := Host.Outcome State Fault Refusal

/-! ## Memory -/

/-- The byte listed at an address, if any. -/
def Memory.listed : Memory → Nat → Option Byte
  | [], _ => none
  | (k, v) :: rest, a => if k = a then some v else Memory.listed rest a

/-- The byte at an address: the listed one, else the initial image's, a free value (20_memory.md R70;
70_reset_and_hazards.md R383; log 8). -/
def Memory.readByte (m : Memory) (a : Nat) : Byte := (m.listed a).getD (Config.initialByte a)

/-- Store a byte, keeping the canonical form. -/
def Memory.writeByte : Memory → Nat → Byte → Memory
  | [], a, v => [(a, v)]
  | (k, w) :: rest, a, v =>
    if a < k then (a, v) :: (k, w) :: rest
    else if a = k then (a, v) :: rest
    else (k, w) :: Memory.writeByte rest a v

/-- Canonical from an address on: addresses rising from `lo` and inside the 2^32 byte addresses (20_memory.md
R60). -/
def Memory.wfFrom : Nat → Memory → Bool
  | _, [] => true
  | lo, (k, _) :: rest => decide (lo ≤ k) && decide (k < 2 ^ 32) && Memory.wfFrom (k + 1) rest

/-- The canonical form of memory, the model's own (log 8): memories that list the same bytes are equal data. -/
def Memory.wf (m : Memory) : Bool := Memory.wfFrom 0 m

/-- `memoryRead(w)`: the word at a word address (20_memory.md R61), its bytes little-endian (R64). -/
def Memory.readWord (m : Memory) (w : WordAddr) : Word :=
  wordOfBytes (m.readByte (4 * w.toNat)) (m.readByte (4 * w.toNat + 1)) (m.readByte (4 * w.toNat + 2))
    (m.readByte (4 * w.toNat + 3))

/-- `memoryWrite(w, v)`: the new data is v (20_memory.md R62), its bytes little-endian (R64). -/
def Memory.writeWord (m : Memory) (w : WordAddr) (v : Word) : Memory :=
  (((m.writeByte (4 * w.toNat) (byteOfWord v 0)).writeByte (4 * w.toNat + 1) (byteOfWord v 1)).writeByte
    (4 * w.toNat + 2) (byteOfWord v 2)).writeByte (4 * w.toNat + 3) (byteOfWord v 3)

/-- Word writes in their order. -/
def Memory.writeWords (m : Memory) : List (WordAddr × Word) → Memory
  | [] => m
  | (w, v) :: rest => Memory.writeWords (m.writeWord w v) rest

/-! ## Addresses (40_primitives.md R150) -/

/-- The word address of a byte address, `addr div 4` (40_primitives.md R150). -/
def wordAddrOf (addr : Word) : WordAddr := addr.extractLsb' 2 30

/-- The two low bits of a byte address, the byte offset within its word (40_primitives.md R150). -/
def laneOf (addr : Word) : BitVec 2 := addr.extractLsb' 0 2

/-- The widths of a data access, the `kind` of 40_primitives.md R150. -/
inductive AccessSize where
  | byte
  | half
  | word
deriving DecidableEq, Repr

/-- Bytes moved by an access (20_memory.md R65). -/
def AccessSize.bytes : AccessSize → Nat
  | .byte => 1
  | .half => 2
  | .word => 4

/-- The alignment rule of data accesses (20_memory.md R67; 47_load_store.md R311). -/
def aligned (size : AccessSize) (addr : Word) : Bool :=
  match size with
  | .byte => true
  | .half => !(laneOf addr).getLsbD 0
  | .word => laneOf addr == 0#2

/-! ## The OPEN parameters -/

/-- Whether a rule refuses the access (20_memory.md R68). -/
def DenyRule.refuses (r : DenyRule) (mode : Nat) (kind : AccessKind) (w : WordAddr) : Bool :=
  (match r.mode with | none => true | some m => m == mode) && r.kind == kind
    && decide (r.first.toNat ≤ w.toNat) && decide (w.toNat ≤ r.last.toNat)

/-- ADDR_OK(mode, w, kind) (20_memory.md R68; log 4). -/
def Params.addrOk (p : Params) (mode : Nat) (w : WordAddr) (kind : AccessKind) : Bool :=
  !p.denied.any (fun r => DenyRule.refuses r mode kind w)

/-- REG_BASE(mode) (10_state.md R36; log 1). -/
def Params.regBase (p : Params) (mode : Nat) : WordAddr :=
  (p.regBases.lookup mode).getD p.regBaseDefault

/-- ADDR_OK in the mode of the state. -/
def State.addrOk (s : State) (kind : AccessKind) (w : WordAddr) : Bool :=
  Params.addrOk s.params s.mode w kind

/-! ## Registers (10_state.md R36, R37) -/

/-- The slot of register r, the word address REG_BASE(mode) + r (10_state.md R36). DESIGN CHOICE (log 1): the
sum is taken in the 30-bit word-address space. -/
def State.slot (s : State) (r : RegNum) : WordAddr :=
  Params.regBase s.params s.mode + r.setWidth 30

/-- `x[r]`: the word of the slot, and 0 for x0 (10_state.md R36, R37). DEDUCED (log 3): x0 reads 0 whatever its
slot holds. -/
def State.readReg (s : State) (r : RegNum) : Word :=
  if r = 0#5 then 0#32 else s.mem.readWord (s.slot r)

/-- `x[r] <- v`: one word write to the slot, of 0 for x0 (10_state.md R36, R37). -/
def State.writeReg (s : State) (r : RegNum) (v : Word) : State :=
  { s with mem := s.mem.writeWord (s.slot r) (if r = 0#5 then 0#32 else v) }

/-! ## The handoff fields -/

/-- `pc <- target` (00_scope.md R14). -/
def State.setPc (s : State) (target : Word) : State := { s with pc := target }

/-- The address of the next instruction in sequence, `u32(pc + 4)` (10_state.md R39). -/
def State.pcPlus4 (s : State) : Word := s.pc + 4#32

/-- The end of a cycle: the cycle counter goes up (20_memory.md R70; log 12). -/
def State.tick (s : State) : State := { s with cycle := s.cycle + 1 }

/-- Write the destination register and go on in sequence, as every instruction does that computes one value
(41_alu.md R170; 42_compare.md R194; 43_bitwise.md R213; 44_multiply.md R239; 45_divide.md R265). -/
def State.retire (s : State) (rd : RegNum) (v : Word) : State := (s.writeReg rd v).setPc s.pcPlus4

/-! ## Violations and the hand-off to the control subsystem -/

/-- `raise Violation(code)`: the cycle ends and no state is handed forward (00_scope.md R13; 60_exceptions.md
R360). It stands where a machine with traps would take an exception: this one has no trap entry (R366). -/
def raise (code : Fault) : Result := .fault code

/-- The state after the control subsystem's result: its writes, then the output record (48_system.md R340). -/
def State.applyControl (s : State) (r : ControlResult) : State :=
  { s with
    pc := r.newPc
    istate := r.newState
    mode := r.newMode
    mem := s.mem.writeWords r.writes }

/-- `CONTROL_STEP(in, dec)`, the hand-off of ECALL and MRET (48_system.md R340): the control subsystem's next
answer; with none, the default of R341, which ends the block-level run with Control(word, pc) and changes
nothing. DESIGN CHOICE (log 9), safe: the OPEN relation's answers are data of the state, so statements hold for
every relation. -/
def controlStep (word : Word) (s : State) : Result :=
  match s.control with
  | [] => .refused (.control word s.pc)
  | .violation :: _ => raise .vControl
  | .result r :: rest => .next ({ s with control := rest }.applyControl r)

/-! ## Data accesses (47_load_store.md) -/

/-- The checks of a data access, alignment before permission (47_load_store.md R311, R312; 60_exceptions.md
R363): the violation it raises, if any. -/
def State.accessViolation (s : State) (kind : AccessKind) (size : AccessSize) (addr : Word) : Option Fault :=
  if !aligned size addr then some .vMisaligned
  else if !s.addrOk kind (wordAddrOf addr) then some .vMem
  else none

/-- `HalfSel(word, b1)`: the halfword at byte offset 2·b1 (47_load_store.md R313). -/
def halfSel (word : Word) (lane : BitVec 2) : Half :=
  if lane.getLsbD 1 then word.extractLsb' 16 16 else word.extractLsb' 0 16

/-- `ByteSel(word, b0, b1)`: the byte at byte offset 2·b1 + b0 (47_load_store.md R314). -/
def byteSel (word : Word) (lane : BitVec 2) : Byte := byteOfWord word lane.toNat

/-- A half with one of its bytes replaced, the upper one where `upper` (47_load_store.md R322). -/
def mergeHalf (old : Half) (d : Byte) (upper : Bool) : Half :=
  if upper then BitVec.cast (by decide : 8 + 8 = 16) (d ++ old.extractLsb' 0 8)
  else BitVec.cast (by decide : 8 + 8 = 16) (old.extractLsb' 8 8 ++ d)

/-- A word with one of its halves replaced, the upper one where `upper` (47_load_store.md R322). -/
def replaceHalf (old : Word) (h : Half) (upper : Bool) : Word :=
  if upper then BitVec.cast (by decide : 16 + 16 = 32) (h ++ old.extractLsb' 0 16)
  else BitVec.cast (by decide : 16 + 16 = 32) (old.extractLsb' 16 16 ++ h)

/-- `Merge(old, data, b0, b1, kind)`: the word a store leaves, only the bytes it names changed
(47_load_store.md R322). -/
def merge (old data : Word) (lane : BitVec 2) (size : AccessSize) : Word :=
  match size with
  | .word => data
  | .half => replaceHalf old (data.extractLsb' 0 16) (lane.getLsbD 1)
  | .byte =>
    replaceHalf old (mergeHalf (halfSel old lane) (data.extractLsb' 0 8) (lane.getLsbD 0)) (lane.getLsbD 1)

/-- `MemWrite(addr, n, v)` as one word transaction (00_scope.md R12; 47_load_store.md R322). -/
def State.store (s : State) (size : AccessSize) (addr data : Word) : State :=
  let w := wordAddrOf addr
  { s with mem := s.mem.writeWord w (merge (s.mem.readWord w) data (laneOf addr) size) }

/-! ## Fetch -/

/-- The checks of a cycle before its decode, in the order of 60_exceptions.md R362: the violation raised, if
any (10_state.md R45). -/
def State.fetchViolation (s : State) : Option Fault :=
  if s.istate ≠ s.params.stateDecode then some .vState
  else if laneOf s.pc ≠ 0#2 then some .vFetchAlign
  else if !s.addrOk .fetch (wordAddrOf s.pc) then some .vMem
  else none

/-- The fetched word, `memoryRead(pc div 4)` (20_memory.md R66). -/
def State.fetchWord (s : State) : Word := s.mem.readWord (wordAddrOf s.pc)

/-- The bytes at the pc, which the decoder reads. -/
def State.fetchBytes (s : State) : List Byte := bytesOfWord s.fetchWord

/-- The end of a cycle for any outcome of an instruction: a next state has its cycle counter advanced. -/
def endCycle (r : Result) : Result :=
  match r with
  | .next s => .next s.tick
  | .fault f => .fault f
  | .refused q => .refused q

/-- The state with the word placed where the next fetch reads it (log 11). -/
def State.placeWord (s : State) (word : Word) : State :=
  { s with mem := s.mem.writeWord (wordAddrOf s.pc) word }

end Sys2Proof.Machine
end

