-- ==== Sys2Proof/Machine/Operands.lean ====
section
/-! DEFINITION. The operand forms: the base-plus-displacement address of loads, stores and JALR, branch and jump
targets, and shift amounts (44_multiply.md R238; 46_control_transfer.md R291; 47_load_store.md R310). All address
arithmetic is modulo 2^32 (46_control_transfer.md R303). -/

namespace Sys2Proof.Machine

/-- `EA = u32(x[rs1] + imm)`, the one addressing mode (47_load_store.md R310). -/
def State.effAddr (s : State) (rs1 : RegNum) (imm : BitVec 12) : Word := s.readReg rs1 + sextWord imm

/-- The target of a branch or of JAL, `u32(pc + offset)` (46_control_transfer.md R291). -/
def State.relTarget {n : Nat} (s : State) (offset : BitVec n) : Word := s.pc + sextWord offset

/-- `ClearBit0(v)`, `v & 0xFFFFFFFE` (40_primitives.md R151). -/
def clearBit0 (v : Word) : Word := v &&& 0xFFFFFFFE#32

/-- The target of JALR (46_control_transfer.md R291). -/
def State.jalrTarget (s : State) (rs1 : RegNum) (imm : BitVec 12) : Word := clearBit0 (s.effAddr rs1 imm)

/-- `ShiftAmount(v)`, `v mod 32` (44_multiply.md R238). -/
def shiftAmount (v : Word) : Nat := v.toNat % 32

end Sys2Proof.Machine
end

