-- ==== Sys2Proof/Machine/Flags.lean ====
section
/-! DEFINITION. The conditions of the value layer. There are no architectural flags (10_state.md R41): the
overflow bit and the comparator bits are read only inside their cycle. -/

namespace Sys2Proof.Machine

/-- The overflow bit of an addition, the carry out of bit 31 (40_primitives.md R139, R140). -/
def carryAdd (a b : Word) : Bool := decide (2 ^ 32 ≤ a.toNat + b.toNat)

/-- The overflow bit of a subtraction, 1 exactly when there is no borrow (40_primitives.md R139, R140). -/
def carrySub (a b : Word) : Bool := decide (b.toNat ≤ a.toNat)

/-- `LtU(a, b) = 1 - carry` (42_compare.md R190). -/
def ltU (a b : Word) : Bool := !carrySub a b

/-- `LtS(a, b)`: signed less-than (42_compare.md R191, R192). -/
def ltS (a b : Word) : Bool := decide (a.toInt < b.toInt)

/-- `EqU32(a, b)` (40_primitives.md R143; 42_compare.md R193). -/
def eqU (a b : Word) : Bool := a == b

/-- `GeU(a, b)` (42_compare.md R193). -/
def geU (a b : Word) : Bool := !ltU a b

/-- `GeS(a, b)` (42_compare.md R193). -/
def geS (a b : Word) : Bool := !ltS a b

/-- A condition as the word {lt, 0} (42_compare.md R194). -/
def condWord (c : Bool) : Word := if c then 1#32 else 0#32

end Sys2Proof.Machine
end

