-- ==== Sys2Proof/Machine/Alu.lean ====
section
/-! DEFINITION. Addition, subtraction and upper-immediate instructions (41_alu.md). -/

namespace Sys2Proof.Machine

/-- ADD (41_alu.md R171). -/
def execAdd (rd rs1 rs2 : RegNum) (s : State) : Result :=
  .next (s.retire rd (s.readReg rs1 + s.readReg rs2))

/-- SUB (41_alu.md R172). -/
def execSub (rd rs1 rs2 : RegNum) (s : State) : Result :=
  .next (s.retire rd (s.readReg rs1 - s.readReg rs2))

/-- ADDI (41_alu.md R173). -/
def execAddi (rd rs1 : RegNum) (imm : BitVec 12) (s : State) : Result :=
  .next (s.retire rd (s.readReg rs1 + sextWord imm))

/-- LUI (41_alu.md R174). -/
def execLui (rd : RegNum) (imm : BitVec 20) (s : State) : Result :=
  .next (s.retire rd (upperWord imm))

/-- AUIPC (41_alu.md R175). -/
def execAuipc (rd : RegNum) (imm : BitVec 20) (s : State) : Result :=
  .next (s.retire rd (s.pc + upperWord imm))

end Sys2Proof.Machine
end

