-- ==== Sys2Proof/Machine/Bitwise.lean ====
section
/-! DEFINITION. Bitwise AND, OR and XOR (43_bitwise.md). -/

namespace Sys2Proof.Machine

/-- AND (43_bitwise.md R214). -/
def execAnd (rd rs1 rs2 : RegNum) (s : State) : Result :=
  .next (s.retire rd (s.readReg rs1 &&& s.readReg rs2))

/-- OR (43_bitwise.md R215). -/
def execOr (rd rs1 rs2 : RegNum) (s : State) : Result :=
  .next (s.retire rd (s.readReg rs1 ||| s.readReg rs2))

/-- XOR (43_bitwise.md R216). -/
def execXor (rd rs1 rs2 : RegNum) (s : State) : Result :=
  .next (s.retire rd (s.readReg rs1 ^^^ s.readReg rs2))

/-- ANDI (43_bitwise.md R217). -/
def execAndi (rd rs1 : RegNum) (imm : BitVec 12) (s : State) : Result :=
  .next (s.retire rd (s.readReg rs1 &&& sextWord imm))

/-- ORI (43_bitwise.md R218). -/
def execOri (rd rs1 : RegNum) (imm : BitVec 12) (s : State) : Result :=
  .next (s.retire rd (s.readReg rs1 ||| sextWord imm))

/-- XORI (43_bitwise.md R219). -/
def execXori (rd rs1 : RegNum) (imm : BitVec 12) (s : State) : Result :=
  .next (s.retire rd (s.readReg rs1 ^^^ sextWord imm))

end Sys2Proof.Machine
end

