-- ==== Sys2Proof/Machine/Compare.lean ====
section
/-! DEFINITION. Set-less-than instructions (42_compare.md). -/

namespace Sys2Proof.Machine

/-- SLT (42_compare.md R195). -/
def execSlt (rd rs1 rs2 : RegNum) (s : State) : Result :=
  .next (s.retire rd (condWord (ltS (s.readReg rs1) (s.readReg rs2))))

/-- SLTU (42_compare.md R196). -/
def execSltu (rd rs1 rs2 : RegNum) (s : State) : Result :=
  .next (s.retire rd (condWord (ltU (s.readReg rs1) (s.readReg rs2))))

/-- SLTI (42_compare.md R197). -/
def execSlti (rd rs1 : RegNum) (imm : BitVec 12) (s : State) : Result :=
  .next (s.retire rd (condWord (ltS (s.readReg rs1) (sextWord imm))))

/-- SLTIU: the immediate is sign-extended, then compared unsigned (42_compare.md R198). -/
def execSltiu (rd rs1 : RegNum) (imm : BitVec 12) (s : State) : Result :=
  .next (s.retire rd (condWord (ltU (s.readReg rs1) (sextWord imm))))

end Sys2Proof.Machine
end

