-- ==== Sys2Proof/Machine/ControlTransfer.lean ====
section
/-! DEFINITION. Branches and jumps (46_control_transfer.md). A target that is not a multiple of 4 is handed
forward; the next cycle's fetch raises the violation (R292). -/

namespace Sys2Proof.Machine

/-- A branch: `newPc = Select(cond, target, pcPlus4)` and nothing else (46_control_transfer.md R290, R293). -/
def State.branch (s : State) (cond : Bool) (offset : BitVec 13) : State :=
  s.setPc (if cond then s.relTarget offset else s.pcPlus4)

/-- A jump: the link register takes `u32(pc + 4)`, the pc the target (46_control_transfer.md R290, R300, R301). -/
def State.jump (s : State) (rd : RegNum) (target : Word) : State := (s.writeReg rd s.pcPlus4).setPc target

/-- BEQ (46_control_transfer.md R294). -/
def execBeq (rs1 rs2 : RegNum) (offset : BitVec 13) (s : State) : Result :=
  .next (s.branch (eqU (s.readReg rs1) (s.readReg rs2)) offset)

/-- BNE (46_control_transfer.md R295). -/
def execBne (rs1 rs2 : RegNum) (offset : BitVec 13) (s : State) : Result :=
  .next (s.branch (!eqU (s.readReg rs1) (s.readReg rs2)) offset)

/-- BLT (46_control_transfer.md R296). -/
def execBlt (rs1 rs2 : RegNum) (offset : BitVec 13) (s : State) : Result :=
  .next (s.branch (ltS (s.readReg rs1) (s.readReg rs2)) offset)

/-- BGE (46_control_transfer.md R297). -/
def execBge (rs1 rs2 : RegNum) (offset : BitVec 13) (s : State) : Result :=
  .next (s.branch (geS (s.readReg rs1) (s.readReg rs2)) offset)

/-- BLTU (46_control_transfer.md R298). -/
def execBltu (rs1 rs2 : RegNum) (offset : BitVec 13) (s : State) : Result :=
  .next (s.branch (ltU (s.readReg rs1) (s.readReg rs2)) offset)

/-- BGEU (46_control_transfer.md R299). -/
def execBgeu (rs1 rs2 : RegNum) (offset : BitVec 13) (s : State) : Result :=
  .next (s.branch (geU (s.readReg rs1) (s.readReg rs2)) offset)

/-- JAL (46_control_transfer.md R300). -/
def execJal (rd : RegNum) (offset : BitVec 21) (s : State) : Result :=
  .next (s.jump rd (s.relTarget offset))

/-- JALR: the base is read before the link is written (46_control_transfer.md R301). -/
def execJalr (rd rs1 : RegNum) (imm : BitVec 12) (s : State) : Result :=
  .next (s.jump rd (s.jalrTarget rs1 imm))

end Sys2Proof.Machine
end

