-- ==== Sys2Proof/Machine/Multiply.lean ====
section
/-! DEFINITION. Multiplication and left shifts (44_multiply.md). The byte-sliced unit is in
Machine/CircuitUnits.lean. -/

namespace Sys2Proof.Machine

/-- A word read as an integer, signed where `signed` (00_scope.md R9). -/
def readAs (signed : Bool) (v : Word) : Int := if signed then v.toInt else (v.toNat : Int)

/-- `(A·B + C) mod 2^64`, what MultiplyAccumulate computes (44_multiply.md R234). -/
def macValue (a b c : Word) (sA sB sC : Bool) : BitVec 64 :=
  BitVec.ofInt 64 (readAs sA a * readAs sB b + readAs sC c)

/-- The low word of a 64-bit result (44_multiply.md R234). -/
def loWord (v : BitVec 64) : Word := v.extractLsb' 0 32

/-- The high word of a 64-bit result (44_multiply.md R234). -/
def hiWord (v : BitVec 64) : Word := v.extractLsb' 32 32

/-- The left shift of SLL and SLLI, by 0 to 31 (44_multiply.md R244, R246). -/
def shiftLeft (v : Word) (amount : Nat) : Word := v <<< amount

/-- MUL: the low word (44_multiply.md R240). -/
def execMul (rd rs1 rs2 : RegNum) (s : State) : Result :=
  .next (s.retire rd (loWord (macValue (s.readReg rs1) (s.readReg rs2) 0#32 false false false)))

/-- MULH: the high word, both operands signed (44_multiply.md R241). -/
def execMulh (rd rs1 rs2 : RegNum) (s : State) : Result :=
  .next (s.retire rd (hiWord (macValue (s.readReg rs1) (s.readReg rs2) 0#32 true true false)))

/-- MULHSU: the high word, rs1 signed and rs2 unsigned (44_multiply.md R242). -/
def execMulhsu (rd rs1 rs2 : RegNum) (s : State) : Result :=
  .next (s.retire rd (hiWord (macValue (s.readReg rs1) (s.readReg rs2) 0#32 true false false)))

/-- MULHU: the high word, both operands unsigned (44_multiply.md R243). -/
def execMulhu (rd rs1 rs2 : RegNum) (s : State) : Result :=
  .next (s.retire rd (hiWord (macValue (s.readReg rs1) (s.readReg rs2) 0#32 false false false)))

/-- SLL (44_multiply.md R244). -/
def execSll (rd rs1 rs2 : RegNum) (s : State) : Result :=
  .next (s.retire rd (shiftLeft (s.readReg rs1) (shiftAmount (s.readReg rs2))))

/-- SLLI (44_multiply.md R245). -/
def execSlli (rd rs1 : RegNum) (shamt : BitVec 5) (s : State) : Result :=
  .next (s.retire rd (shiftLeft (s.readReg rs1) shamt.toNat))

end Sys2Proof.Machine
end

