-- ==== Sys2Proof/Machine/Divide.lean ====
section
/-! DEFINITION. Division and right shifts (45_divide.md). The division verifier is in
Machine/CircuitUnits.lean. -/

namespace Sys2Proof.Machine

/-- The signed overflow case of a division, 0x80000000 / -1 (45_divide.md R261, R262). -/
def divOverflow (n d : Word) : Bool := n == 0x80000000#32 && d == 0xFFFFFFFF#32

/-- The quotient row of DoDiv's functional result (45_divide.md R262); signed division truncates toward zero
(00_scope.md R8). -/
def divQuotient (n d : Word) (signed : Bool) : Word :=
  if d = 0#32 then 0xFFFFFFFF#32
  else if signed then
    if divOverflow n d then 0x80000000#32 else BitVec.ofInt 32 (Int.tdiv n.toInt d.toInt)
  else BitVec.ofNat 32 (n.toNat / d.toNat)

/-- The remainder row of DoDiv's functional result (45_divide.md R262); a signed remainder takes the sign of the
dividend. -/
def divRemainder (n d : Word) (signed : Bool) : Word :=
  if d = 0#32 then n
  else if signed then
    if divOverflow n d then 0#32 else BitVec.ofInt 32 (Int.tmod n.toInt d.toInt)
  else BitVec.ofNat 32 (n.toNat % d.toNat)

/-- The logical right shift of SRL and SRLI (45_divide.md R270). -/
def shiftRightLogical (v : Word) (amount : Nat) : Word := v >>> amount

/-- The arithmetic right shift of SRA and SRAI, `floor(signed(v) / 2^s)` (45_divide.md R271). -/
def shiftRightArith (v : Word) (amount : Nat) : Word := BitVec.ofInt 32 (Int.fdiv v.toInt (2 ^ amount))

/-- DIV (45_divide.md R266). -/
def execDiv (rd rs1 rs2 : RegNum) (s : State) : Result :=
  .next (s.retire rd (divQuotient (s.readReg rs1) (s.readReg rs2) true))

/-- DIVU (45_divide.md R267). -/
def execDivu (rd rs1 rs2 : RegNum) (s : State) : Result :=
  .next (s.retire rd (divQuotient (s.readReg rs1) (s.readReg rs2) false))

/-- REM (45_divide.md R268). -/
def execRem (rd rs1 rs2 : RegNum) (s : State) : Result :=
  .next (s.retire rd (divRemainder (s.readReg rs1) (s.readReg rs2) true))

/-- REMU (45_divide.md R269). -/
def execRemu (rd rs1 rs2 : RegNum) (s : State) : Result :=
  .next (s.retire rd (divRemainder (s.readReg rs1) (s.readReg rs2) false))

/-- SRL (45_divide.md R270). -/
def execSrl (rd rs1 rs2 : RegNum) (s : State) : Result :=
  .next (s.retire rd (shiftRightLogical (s.readReg rs1) (shiftAmount (s.readReg rs2))))

/-- SRA (45_divide.md R271). -/
def execSra (rd rs1 rs2 : RegNum) (s : State) : Result :=
  .next (s.retire rd (shiftRightArith (s.readReg rs1) (shiftAmount (s.readReg rs2))))

/-- SRLI (45_divide.md R272). -/
def execSrli (rd rs1 : RegNum) (shamt : BitVec 5) (s : State) : Result :=
  .next (s.retire rd (shiftRightLogical (s.readReg rs1) shamt.toNat))

/-- SRAI (45_divide.md R273). -/
def execSrai (rd rs1 : RegNum) (shamt : BitVec 5) (s : State) : Result :=
  .next (s.retire rd (shiftRightArith (s.readReg rs1) shamt.toNat))

end Sys2Proof.Machine
end

