-- ==== Sys2Proof/Machine/LoadStore.lean ====
section
/-! DEFINITION. Loads and stores (47_load_store.md). -/

namespace Sys2Proof.Machine

/-- A load: check the access, read the word, write rd with what `extend` makes of the word and the lane, go on
(47_load_store.md R311, R312, R316). -/
def loadFrom (size : AccessSize) (extend : Word → BitVec 2 → Word) (rd rs1 : RegNum) (imm : BitVec 12)
    (s : State) : Result :=
  match s.accessViolation .load size (s.effAddr rs1 imm) with
  | some code => raise code
  | none =>
    .next (s.retire rd
      (extend (s.mem.readWord (wordAddrOf (s.effAddr rs1 imm))) (laneOf (s.effAddr rs1 imm))))

/-- A store: check the access, write the word, go on; no register is written (47_load_store.md R322, R323). -/
def storeTo (size : AccessSize) (rs1 rs2 : RegNum) (imm : BitVec 12) (s : State) : Result :=
  match s.accessViolation .store size (s.effAddr rs1 imm) with
  | some code => raise code
  | none => .next ((s.store size (s.effAddr rs1 imm) (s.readReg rs2)).setPc s.pcPlus4)

/-- LB: a byte, sign-extended (47_load_store.md R317). -/
def execLb (rd rs1 : RegNum) (imm : BitVec 12) (s : State) : Result :=
  loadFrom .byte (fun word lane => (byteSel word lane).signExtend 32) rd rs1 imm s

/-- LH: a halfword, sign-extended (47_load_store.md R318). -/
def execLh (rd rs1 : RegNum) (imm : BitVec 12) (s : State) : Result :=
  loadFrom .half (fun word lane => (halfSel word lane).signExtend 32) rd rs1 imm s

/-- LW: the word as stored (47_load_store.md R319). -/
def execLw (rd rs1 : RegNum) (imm : BitVec 12) (s : State) : Result :=
  loadFrom .word (fun word _ => word) rd rs1 imm s

/-- LBU: a byte, zero-extended (47_load_store.md R320). -/
def execLbu (rd rs1 : RegNum) (imm : BitVec 12) (s : State) : Result :=
  loadFrom .byte (fun word lane => (byteSel word lane).setWidth 32) rd rs1 imm s

/-- LHU: a halfword, zero-extended (47_load_store.md R321). -/
def execLhu (rd rs1 : RegNum) (imm : BitVec 12) (s : State) : Result :=
  loadFrom .half (fun word lane => (halfSel word lane).setWidth 32) rd rs1 imm s

/-- SB (47_load_store.md R324). -/
def execSb (rs1 rs2 : RegNum) (imm : BitVec 12) (s : State) : Result := storeTo .byte rs1 rs2 imm s

/-- SH (47_load_store.md R325). -/
def execSh (rs1 rs2 : RegNum) (imm : BitVec 12) (s : State) : Result := storeTo .half rs1 rs2 imm s

/-- SW (47_load_store.md R326). -/
def execSw (rs1 rs2 : RegNum) (imm : BitVec 12) (s : State) : Result := storeTo .word rs1 rs2 imm s

end Sys2Proof.Machine
end

