-- ==== Sys2Proof/Machine/System.lean ====
section
/-! DEFINITION. ECALL and MRET, the two hand-offs to the control subsystem (48_system.md). Every other system
word is illegal (R344). -/

namespace Sys2Proof.Machine

/-- ECALL (48_system.md R342). -/
def execEcall (s : State) : Result := controlStep 0x00000073#32 s

/-- MRET, the privileged return (48_system.md R343). -/
def execMret (s : State) : Result := controlStep 0x30200073#32 s

end Sys2Proof.Machine
end

