-- ==== Sys2Proof/Machine/Dispatch.lean ====
section
/-! DEFINITION. One arm per instruction (30_encoding.md R117: exactly one arm is active per row). -/

namespace Sys2Proof.Machine

-- The functional result of an instruction (00_scope.md R17).
def exec (i : Instr) (s : State) : Host.Outcome State Fault Refusal :=
  match i with
  | .add rd rs1 rs2 => Sys2Proof.Machine.execAdd rd rs1 rs2 s
  | .sub rd rs1 rs2 => Sys2Proof.Machine.execSub rd rs1 rs2 s
  | .xor rd rs1 rs2 => Sys2Proof.Machine.execXor rd rs1 rs2 s
  | .or rd rs1 rs2 => Sys2Proof.Machine.execOr rd rs1 rs2 s
  | .and rd rs1 rs2 => Sys2Proof.Machine.execAnd rd rs1 rs2 s
  | .slt rd rs1 rs2 => Sys2Proof.Machine.execSlt rd rs1 rs2 s
  | .sltu rd rs1 rs2 => Sys2Proof.Machine.execSltu rd rs1 rs2 s
  | .addi rd rs1 imm => Sys2Proof.Machine.execAddi rd rs1 imm s
  | .xori rd rs1 imm => Sys2Proof.Machine.execXori rd rs1 imm s
  | .ori rd rs1 imm => Sys2Proof.Machine.execOri rd rs1 imm s
  | .andi rd rs1 imm => Sys2Proof.Machine.execAndi rd rs1 imm s
  | .slti rd rs1 imm => Sys2Proof.Machine.execSlti rd rs1 imm s
  | .sltiu rd rs1 imm => Sys2Proof.Machine.execSltiu rd rs1 imm s
  | .beq rs1 rs2 offset => Sys2Proof.Machine.execBeq rs1 rs2 offset s
  | .bne rs1 rs2 offset => Sys2Proof.Machine.execBne rs1 rs2 offset s
  | .blt rs1 rs2 offset => Sys2Proof.Machine.execBlt rs1 rs2 offset s
  | .bge rs1 rs2 offset => Sys2Proof.Machine.execBge rs1 rs2 offset s
  | .bltu rs1 rs2 offset => Sys2Proof.Machine.execBltu rs1 rs2 offset s
  | .bgeu rs1 rs2 offset => Sys2Proof.Machine.execBgeu rs1 rs2 offset s
  | .jal rd offset => Sys2Proof.Machine.execJal rd offset s
  | .jalr rd rs1 imm => Sys2Proof.Machine.execJalr rd rs1 imm s
  | .lui rd imm => Sys2Proof.Machine.execLui rd imm s
  | .auipc rd imm => Sys2Proof.Machine.execAuipc rd imm s
  | .sll rd rs1 rs2 => Sys2Proof.Machine.execSll rd rs1 rs2 s
  | .slli rd rs1 shamt => Sys2Proof.Machine.execSlli rd rs1 shamt s
  | .mul rd rs1 rs2 => Sys2Proof.Machine.execMul rd rs1 rs2 s
  | .mulh rd rs1 rs2 => Sys2Proof.Machine.execMulh rd rs1 rs2 s
  | .mulhsu rd rs1 rs2 => Sys2Proof.Machine.execMulhsu rd rs1 rs2 s
  | .mulhu rd rs1 rs2 => Sys2Proof.Machine.execMulhu rd rs1 rs2 s
  | .srl rd rs1 rs2 => Sys2Proof.Machine.execSrl rd rs1 rs2 s
  | .sra rd rs1 rs2 => Sys2Proof.Machine.execSra rd rs1 rs2 s
  | .srli rd rs1 shamt => Sys2Proof.Machine.execSrli rd rs1 shamt s
  | .srai rd rs1 shamt => Sys2Proof.Machine.execSrai rd rs1 shamt s
  | .div rd rs1 rs2 => Sys2Proof.Machine.execDiv rd rs1 rs2 s
  | .divu rd rs1 rs2 => Sys2Proof.Machine.execDivu rd rs1 rs2 s
  | .rem rd rs1 rs2 => Sys2Proof.Machine.execRem rd rs1 rs2 s
  | .remu rd rs1 rs2 => Sys2Proof.Machine.execRemu rd rs1 rs2 s
  | .lb rd rs1 imm => Sys2Proof.Machine.execLb rd rs1 imm s
  | .lh rd rs1 imm => Sys2Proof.Machine.execLh rd rs1 imm s
  | .lw rd rs1 imm => Sys2Proof.Machine.execLw rd rs1 imm s
  | .lbu rd rs1 imm => Sys2Proof.Machine.execLbu rd rs1 imm s
  | .lhu rd rs1 imm => Sys2Proof.Machine.execLhu rd rs1 imm s
  | .sb rs1 rs2 imm => Sys2Proof.Machine.execSb rs1 rs2 imm s
  | .sh rs1 rs2 imm => Sys2Proof.Machine.execSh rs1 rs2 imm s
  | .sw rs1 rs2 imm => Sys2Proof.Machine.execSw rs1 rs2 imm s
  | .ecall => Sys2Proof.Machine.execEcall s
  | .mret => Sys2Proof.Machine.execMret s

end Sys2Proof.Machine
end

