-- ==== Sys2Proof/Machine/Step.lean ====
section
/-! DEFINITION. One cycle of the datapath under an honest oracle (10_state.md R45; 60_exceptions.md R364): the
common checks, the fetch, the decode, the instruction. The cycle with every witness cell left to the oracle is in
Machine/CircuitRow.lean. -/

namespace Sys2Proof.Machine

/-- One cycle (10_state.md R45), in the order of 60_exceptions.md R362. -/
def step (s : State) : Host.Outcome State Fault Refusal :=
  match s.fetchViolation with
  | some code => raise code
  | none =>
    match decode s.fetchBytes with
    | .error _ => raise .vIllegal
    | .ok (i, _) => endCycle (exec i s)

/-- The state with the instruction of bits `w` where `step` fetches next: only the word at the pc changes, since
the handoff at reset is already a decode-ready one at an aligned pc that ADDR_OK permits (log 11). -/
def State.withFetchWord (s : State) (nbits w : Nat) : State := s.placeWord (tableWord nbits w)

end Sys2Proof.Machine
end

