-- ==== Sys2Proof/Machine/Circuit.lean ====
section
/-! DEFINITION. The constraint layer: rows of the circuit over the prime field of FIELD_P elements, with every
witness cell supplied by the oracle and bound by constraints alone (00_scope.md R15, R17). A row reads a tape of
oracle answers; an answer left out is the honest one, so the empty tape is the honest oracle and every tape is
admitted (log 16). This file holds the cells, the assertions and the range checks (40_primitives.md R130 to R133).

A field element is its representative, an integer, and a constraint is a congruence modulo FIELD_P (R15). -/

namespace Sys2Proof.Circuit

open Sys2Proof.Machine

/-- The OPEN parameters of the constraint layer (00_scope.md R7): FIELD_P, MAJOR_CODE(group), and the minors of
ECALL and MRET (log 14). -/
structure FieldConfig where
  p         : Nat
  majorCode : MajorGroup → Nat
  sysMinor  : Op → Nat

/-- What the spec requires of the parameters: FIELD_P is a prime above 2^28 (40_primitives.md R152), codes are
field elements, minors are below NUM_MINORS. -/
def FieldConfig.Ok (cfg : FieldConfig) : Prop :=
  Nat.Prime cfg.p ∧ 2 ^ 28 < cfg.p ∧ (∀ g, cfg.majorCode g < cfg.p) ∧ ∀ op, cfg.sysMinor op < Config.numMinors

/-- A word as two halves (00_scope.md R10); halves are field elements, canonical only where a rule says so. -/
structure ValU32 where
  low  : Int
  high : Int
deriving DecidableEq, Repr

/-- `low + 65536·high` (00_scope.md R10). -/
def ValU32.value (v : ValU32) : Int := v.low + 65536 * v.high

/-- Both halves in [0, 65536) (40_primitives.md R134). -/
abbrev ValU32.Canonical (v : ValU32) : Prop :=
  0 ≤ v.low ∧ v.low < 65536 ∧ 0 ≤ v.high ∧ v.high < 65536

/-- `{v}` for a u32 v (00_scope.md R10; 40_primitives.md R146). -/
def ValU32.ofWord (v : Word) : ValU32 := ⟨(v.toNat % 65536 : Nat), (v.toNat / 65536 : Nat)⟩

/-- The u32 of a ValU32 (00_scope.md R10). -/
def ValU32.toWord (v : ValU32) : Word := BitVec.ofInt 32 v.value

/-- A range-check event, `lookupDelta(width, value, +1)` (40_primitives.md R132). -/
structure RangeEvent where
  width : Nat
  value : Int
deriving DecidableEq, Repr

/-- The kinds of memory transaction of a cycle (10_state.md R44). -/
inductive TxnKind where
  | fetch
  | regRead
  | load
  | store
  | regWrite
deriving DecidableEq, Repr

/-- One word transaction of a cycle (20_memory.md R61, R62): its word address and the data the datapath reads or
writes. The old record, the cycle stamps and the count belong to the memory subsystem (00_scope.md R5). -/
structure Txn where
  kind : TxnKind
  addr : WordAddr
  data : Word
deriving DecidableEq, Repr

/-- What a row has left to read and has emitted: the oracle's answers, `none` for an honest one (log 16); the
range-check events (40_primitives.md R132); the transactions, in their order (10_state.md R44). -/
structure RowState where
  tape   : List (Option Nat)
  events : List RangeEvent
  txns   : List Txn
deriving DecidableEq, Repr

/-- A part of a row: it reads cells, emits, and may raise a violation (00_scope.md R13). -/
abbrev RowM := StateT RowState (Except Fault)

/-- The start of a row under a tape of oracle answers. -/
def RowState.start (tape : List (Option Nat)) : RowState := ⟨tape, [], []⟩

/-- `raise Violation(code)` (00_scope.md R13). -/
def violation {α : Type} (code : Fault) : RowM α := fun _ => .error code

/-- `witness c := e`: the oracle's answer, an element of the field, or the honest value e where the tape leaves it
(00_scope.md R15). -/
def cell (p : Nat) (honest : Int) : RowM Int := fun st =>
  match st.tape with
  | some v :: rest => .ok (((v % p : Nat) : Int), { st with tape := rest })
  | none :: rest => .ok (honest % p, { st with tape := rest })
  | [] => .ok (honest % p, st)

/-- Witness cells for a list of honest values, in order. -/
def cells (p : Nat) : List Int → RowM (List Int)
  | [] => pure []
  | e :: rest => do
    let c ← cell p e
    let cs ← cells p rest
    pure (c :: cs)

/-- A condition of the environment, not a constraint: it holds or the row is a violation. -/
def require (cond : Bool) (code : Fault) : RowM Unit := if cond then pure () else violation code

/-- `assert a == b` over the field (00_scope.md R15). -/
def assertEq (p : Nat) (a b : Int) (code : Fault) : RowM Unit :=
  if (a - b) % (p : Int) = 0 then pure () else violation code

/-- `when s: assert a == b`, the constraint s·(a - b) == 0 (00_scope.md R15). -/
def assertWhen (p : Nat) (s a b : Int) (code : Fault) : RowM Unit := assertEq p (s * (a - b)) 0 code

/-- `when s` for both halves of a word. -/
def assertWordWhen (p : Nat) (s : Int) (a b : ValU32) (code : Fault) : RowM Unit := do
  assertWhen p s a.low b.low code
  assertWhen p s a.high b.high code

/-- Check every element of a list. -/
def checkAll (check : Int → RowM Unit) : List Int → RowM Unit
  | [] => pure ()
  | c :: rest => do
    check c
    checkAll check rest

/-- `Bit(c)`: c·(c - 1) == 0 (40_primitives.md R130). -/
def bit (p : Nat) (c : Int) : RowM Unit := assertEq p (c * (c - 1)) 0 .vBit

/-- `Twit(c)`: c·(c - 1)·(c - 2)·(c - 3) == 0 (40_primitives.md R131; 90_conflicts.md C3). -/
def twit (p : Nat) (c : Int) : RowM Unit := assertEq p (c * (c - 1) * (c - 2) * (c - 3)) 0 .vTwit

/-- A lookup against the table [0, 2^width): one event, and a violation when the value, read in [0, FIELD_P), is
not in the table (40_primitives.md R132, R133). -/
def rangeCheck (p width : Nat) (c : Int) (code : Fault) : RowM Unit := fun st =>
  if c % (p : Int) < 2 ^ width then .ok ((), { st with events := st.events ++ [⟨width, c % p⟩] }) else .error code

/-- `U8(c)` (40_primitives.md R132). -/
def u8 (p : Nat) (c : Int) : RowM Unit := rangeCheck p 8 c .vU8

/-- `U16(c)` (40_primitives.md R132). -/
def u16 (p : Nat) (c : Int) : RowM Unit := rangeCheck p 16 c .vU16

/-- Emit a transaction (10_state.md R44). -/
def emitTxn (t : Txn) : RowM Unit := fun st => .ok ((), { st with txns := st.txns ++ [t] })

end Sys2Proof.Circuit
end

