-- ==== Sys2Proof/Machine/CircuitUnits.lean ====
section
/-! DEFINITION. The units of the constraint layer: the value layer (40_primitives.md), the comparators
(42_compare.md), the bitwise unit (43_bitwise.md), the multiplier and power table (44_multiply.md), the division
verifier (45_divide.md) and the lane units (47_load_store.md). Each states its honest hints and its constraints
line by line as the rule does. -/

namespace Sys2Proof.Circuit

open Sys2Proof.Machine

/-! ## The value layer -/

/-- `Normalize(D{l, h})`: the canonical word and the carry (40_primitives.md R137; 90_conflicts.md C1). -/
def normalize (p : Nat) (l h : Int) : RowM (ValU32 × Int) := do
  let lo ← cell p (l % 65536)
  u16 p lo
  let c0 ← cell p (l / 65536)
  bit p c0
  assertEq p l (lo + 65536 * c0) .vNorm
  let hi ← cell p ((h + c0) % 65536)
  u16 p hi
  let c1 ← cell p ((h + c0) / 65536)
  bit p c1
  assertEq p (h + c0) (hi + 65536 * c1) .vNorm
  pure (⟨lo, hi⟩, c1)

/-- `Add32(a, b)`, Normalize of AddU32 (40_primitives.md R135, R140). -/
def add32 (p : Nat) (a b : ValU32) : RowM (ValU32 × Int) := normalize p (a.low + b.low) (a.high + b.high)

/-- `Sub32(a, b)`, Normalize of SubU32 with its offsets (40_primitives.md R136, R140). -/
def sub32 (p : Nat) (a b : ValU32) : RowM (ValU32 × Int) :=
  normalize p (a.low + 65536 - b.low) (a.high + 65535 - b.high)

/-- `AddConst32(a, k)` (40_primitives.md R141). -/
def addConst32 (p : Nat) (a : ValU32) (k : Word) : RowM (ValU32 × Int) := add32 p a (ValU32.ofWord k)

/-- b^e modulo p by squaring; `fuel` bounds the bits of e. -/
def powMod (p : Nat) : (fuel b e : Nat) → Nat
  | 0, _, _ => 1 % p
  | fuel + 1, b, e =>
    if e = 0 then 1 % p
    else if e % 2 = 1 then (powMod p fuel (b * b % p) (e / 2) * b) % p
    else powMod p fuel (b * b % p) (e / 2)

/-- The honest inverse of a field element, x^(p-2) (40_primitives.md R142). -/
def fieldInv (p : Nat) (x : Int) : Int := (powMod p (Nat.log2 p + 1) (x % (p : Int)).toNat (p - 2) : Nat)

/-- `IsZero(x)` (40_primitives.md R142). -/
def isZero (p : Nat) (x : Int) : RowM Int := do
  let z ← cell p (if x % (p : Int) = 0 then 1 else 0)
  let inv ← cell p (if x % (p : Int) = 0 then 0 else fieldInv p x)
  assertEq p (x * z) 0 .vEq
  assertEq p (x * inv) (1 - z) .vEq
  pure z

/-- `EqU32(a, b)` (40_primitives.md R143). -/
def eqU32 (p : Nat) (a b : ValU32) : RowM Int := do
  let z0 ← isZero p (a.low - b.low)
  let z1 ← isZero p (a.high - b.high)
  pure (z0 * z1)

/-- `TopBit(h)` (40_primitives.md R144). -/
def topBit (p : Nat) (h : Int) : RowM Int := do
  let s ← cell p (h / 32768)
  bit p s
  u16 p (2 * (h - 32768 * s))
  pure s

/-- `Select(s, a, b)` (40_primitives.md R145). -/
def selectWord (s : Int) (a b : ValU32) : ValU32 :=
  ⟨s * a.low + (1 - s) * b.low, s * a.high + (1 - s) * b.high⟩

/-- `AddrSplit(addr, kind)`: the word address and the two low bits (40_primitives.md R150); `alignCode` is
V_MISALIGNED, or V_FETCH_ALIGN for a fetch. -/
def addrSplit (p : Nat) (addr : ValU32) (kind : AccessSize) (alignCode : Fault) : RowM (Int × Int × Int) := do
  let b0 ← cell p (addr.low % 2)
  bit p b0
  let b1 ← cell p (addr.low / 2 % 2)
  bit p b1
  let rest ← cell p (addr.low / 4)
  u16 p rest
  u16 p (4 * rest)
  assertEq p addr.low (b0 + 2 * b1 + 4 * rest) .vNorm
  match kind with
  | .byte => pure ()
  | .half => assertEq p b0 0 alignCode
  | .word => do
    assertEq p b0 0 alignCode
    assertEq p b1 0 alignCode
  pure (rest + 16384 * addr.high, b0, b1)

/-- `ClearBit0(v)` (40_primitives.md R151). -/
def clearBit0Row (p : Nat) (v : ValU32) : RowM ValU32 := do
  let b0 ← cell p (v.low % 2)
  bit p b0
  let rest ← cell p (v.low / 2)
  u16 p rest
  u16 p (2 * rest)
  assertEq p v.low (b0 + 2 * rest) .vNorm
  pure ⟨2 * rest, v.high⟩

/-! ## Comparators -/

/-- `LtU(a, b)` (42_compare.md R190). -/
def ltURow (p : Nat) (a b : ValU32) : RowM Int := do
  let (_, c) ← sub32 p a b
  pure (1 - c)

/-- `LtS(a, b)` (42_compare.md R191). -/
def ltSRow (p : Nat) (a b : ValU32) : RowM Int := do
  let sa ← topBit p a.high
  let sb ← topBit p b.high
  let (d, _) ← sub32 p a b
  let sd ← topBit p d.high
  let ovf := sa * (1 - sb) * (1 - sd) + (1 - sa) * sb * sd
  pure (ovf + sd - 2 * ovf * sd)

/-! ## The bitwise unit -/

/-- `Σ 2^i·x[i]` of a list of digits. -/
def weighted : List Int → Int
  | [] => 0
  | x :: rest => x + 2 * weighted rest

/-- The `n` low binary digits of an integer. -/
def binaryDigits : (n : Nat) → Int → List Int
  | 0, _ => []
  | n + 1, h => h % 2 :: binaryDigits n (h / 2)

/-- `Bits16(h)` (43_bitwise.md R210). -/
def bits16 (p : Nat) (h : Int) : RowM (List Int) := do
  let hb ← cells p (binaryDigits 16 h)
  checkAll (bit p) hb
  assertEq p h (weighted hb) .vEq
  pure hb

/-- `BitAnd(a, b)` (43_bitwise.md R211; 90_conflicts.md C4). -/
def bitAnd (p : Nat) (a b : ValU32) : RowM ValU32 := do
  let al ← bits16 p a.low
  let ah ← bits16 p a.high
  let bl ← bits16 p b.low
  let bh ← bits16 p b.high
  pure ⟨weighted (List.zipWith (fun x y => x * y) al bl), weighted (List.zipWith (fun x y => x * y) ah bh)⟩

/-- `BitOr(a, b)` (43_bitwise.md R212). -/
def bitOr (p : Nat) (a b : ValU32) : RowM ValU32 := do
  let m ← bitAnd p a b
  pure ⟨a.low + b.low - m.low, a.high + b.high - m.high⟩

/-- `BitXor(a, b)` (43_bitwise.md R212). -/
def bitXor (p : Nat) (a b : ValU32) : RowM ValU32 := do
  let m ← bitAnd p a b
  pure ⟨a.low + b.low - 2 * m.low, a.high + b.high - 2 * m.high⟩

/-! ## The multiplier -/

/-- `ExpandU32(x, signed)`: the four bytes and the sign (44_multiply.md R230). -/
def expandU32 (p : Nat) (x : ValU32) (signed : Bool) : RowM (List Int × Int) := do
  let x0 ← cell p (x.low % 256)
  u8 p x0
  let x1 ← cell p (x.low / 256)
  u8 p x1
  let x2 ← cell p (x.high % 256)
  u8 p x2
  let x3 ← cell p (x.high / 256)
  u8 p x3
  assertEq p x.low (x0 + 256 * x1) .vEq
  assertEq p x.high (x2 + 256 * x3) .vEq
  if signed then do
    let neg ← cell p (x3 / 128)
    bit p neg
    u8 p (2 * (x3 - 128 * neg))
    pure ([x0, x1, x2, x3], neg)
  else
    pure ([x0, x1, x2, x3], 0)

/-- The extended byte vector of an expanded operand (44_multiply.md R231). -/
def extendBytes (x : List Int × Int) : List Int := x.1 ++ List.replicate 4 (255 * x.2)

/-- `SplitTotal(T)` (44_multiply.md R232). -/
def splitTotal (p : Nat) (t : Int) : RowM (Int × Int) := do
  let out ← cell p (t % 65536)
  u16 p out
  let carry ← cell p (t / 65536)
  u16 p carry
  u16 p (16 * carry)
  assertEq p t (out + 65536 * carry) .vEq
  pure (out, carry)

/-- `Σ A[i]·B[j]` over i + j = n (44_multiply.md R233). -/
def column (a b : List Int) (n : Nat) : Int :=
  ((List.range (n + 1)).map (fun i => a.getD i 0 * b.getD (n - i) 0)).sum

/-- The column total T[m] without its carry in (44_multiply.md R233). -/
def columnTotal (a b : List Int) (addend : Int) (m : Nat) : Int :=
  addend + column a b (2 * m) + 256 * column a b (2 * m + 1)

/-- `MultiplyAccumulate(a, b, c; sA, sB, sC)`: the low and high words (44_multiply.md R233; 90_conflicts.md
C8). -/
def multiplyAccumulate (p : Nat) (a b c : ValU32) (sA sB sC : Bool) : RowM (ValU32 × ValU32) := do
  let ea ← expandU32 p a sA
  let eb ← expandU32 p b sB
  let negC ← if sC then topBit p c.high else pure 0
  let xa := extendBytes ea
  let xb := extendBytes eb
  let (o0, k0) ← splitTotal p (columnTotal xa xb c.low 0)
  let (o1, k1) ← splitTotal p (k0 + columnTotal xa xb c.high 1)
  let (o2, k2) ← splitTotal p (k1 + columnTotal xa xb (65535 * negC) 2)
  let (o3, _) ← splitTotal p (k2 + columnTotal xa xb (65535 * negC) 3)
  pure (⟨o0, o1⟩, ⟨o2, o3⟩)

/-- The honest one-hot vector of s over `n` places from k on. -/
def oneHotFrom : (n : Nat) → (k s : Int) → List Int
  | 0, _, _ => []
  | n + 1, k, s => (if k = s then 1 else 0) :: oneHotFrom n (k + 1) s

/-- `Σ k·h[k]` of a vector whose first place is k. -/
def indexSum : (k : Int) → List Int → Int
  | _, [] => 0
  | k, x :: rest => k * x + indexSum (k + 1) rest

/-- The one-hot vector of the power table, with its index `Σ k·h[k]` and its power (44_multiply.md R237); the
equality of the index with the shift amount is the caller's. -/
def powerTable (p : Nat) (s : Int) : RowM (Int × ValU32) := do
  let h ← cells p (oneHotFrom 32 0 s)
  checkAll (bit p) h
  assertEq p h.sum 1 .vOnehot
  pure (indexSum 0 h, ⟨weighted (h.take 16), weighted (h.drop 16)⟩)

/-- `Pow2(s)` (44_multiply.md R237). -/
def pow2 (p : Nat) (s : Int) : RowM ValU32 := do
  let (index, pw) ← powerTable p s
  assertEq p index s .vEq
  pure pw

/-- `Pow2(ShiftAmount(v))`: the amount is the index of the table it feeds (44_multiply.md R237, R238). -/
def pow2OfRegister (p : Nat) (v : ValU32) : RowM ValU32 := do
  let rest ← cell p (v.low / 32)
  u16 p rest
  u16 p (32 * rest)
  let (s, pw) ← powerTable p (v.low % 32)
  assertEq p v.low (s + 32 * rest) .vEq
  pure pw

/-! ## The division verifier -/

/-- The honest answer of the divide oracle (45_divide.md R260, R262). -/
def divideHint (n d : ValU32) (signed : Bool) : ValU32 × ValU32 :=
  (ValU32.ofWord (divQuotient n.toWord d.toWord signed), ValU32.ofWord (divRemainder n.toWord d.toWord signed))

/-- `Select(TopBit(v.high), Neg(v), v)`, the magnitude of a signed word (45_divide.md R261). -/
def magnitude (p : Nat) (sign : Int) (v : ValU32) : RowM ValU32 := do
  let (neg, _) ← sub32 p ⟨0, 0⟩ v
  pure (selectWord sign neg v)

/-- `DoDiv(n, d, sg)`: the oracle's quotient and remainder, bound by the back-check and the remainder conditions
(45_divide.md R261; 90_conflicts.md C2, C5). -/
def doDiv (p : Nat) (n d : ValU32) (signed : Bool) : RowM (ValU32 × ValU32) := do
  let ql ← cell p (divideHint n d signed).1.low
  let qh ← cell p (divideHint n d signed).1.high
  let rl ← cell p (divideHint n d signed).2.low
  let rh ← cell p (divideHint n d signed).2.high
  u16 p ql
  u16 p qh
  u16 p rl
  u16 p rh
  let q : ValU32 := ⟨ql, qh⟩
  let r : ValU32 := ⟨rl, rh⟩
  let dz ← eqU32 p d ⟨0, 0⟩
  let en ← eqU32 p n (ValU32.ofWord 0x80000000#32)
  let ed ← eqU32 p d (ValU32.ofWord 0xFFFFFFFF#32)
  let ovf := (if signed then 1 else 0) * en * ed
  let gen := (1 - dz) * (1 - ovf)
  assertWordWhen p dz q (ValU32.ofWord 0xFFFFFFFF#32) .vDiv
  assertWordWhen p dz r n .vDiv
  assertWordWhen p ovf q (ValU32.ofWord 0x80000000#32) .vDiv
  assertWordWhen p ovf r ⟨0, 0⟩ .vDiv
  let (lo, hi) ← multiplyAccumulate p q d r signed signed signed
  let sn ← if signed then topBit p n.high else pure 0
  assertWordWhen p gen lo n .vDiv
  assertWordWhen p gen hi ⟨65535 * sn, 65535 * sn⟩ .vDiv
  if signed then do
    let sr ← topBit p r.high
    let sd ← topBit p d.high
    let ra ← magnitude p sr r
    let da ← magnitude p sd d
    let lt ← ltURow p ra da
    assertWhen p gen lt 1 .vDiv
    let rz ← eqU32 p r ⟨0, 0⟩
    assertWhen p gen ((1 - rz) * (sr - sn)) 0 .vDiv
  else do
    let lt ← ltURow p r d
    assertWhen p gen lt 1 .vDiv
  pure (q, r)

/-- `~v` where the bit s is 1, v where it is 0 (45_divide.md R271). -/
def flipWhen (s : Int) (v : ValU32) : ValU32 :=
  ⟨v.low + s * (65535 - 2 * v.low), v.high + s * (65535 - 2 * v.high)⟩

/-- The arithmetic right shift by the power 2^s: an unsigned division of the one's complement (45_divide.md
R271). -/
def shiftArithRow (p : Nat) (n pw : ValU32) : RowM ValU32 := do
  let sn ← topBit p n.high
  let (q, _) ← doDiv p (flipWhen sn n) pw false
  pure (flipWhen sn q)

/-! ## Lanes of loads and stores -/

/-- `HalfSel(word, b1)` (47_load_store.md R313). -/
def halfSelRow (word : ValU32) (b1 : Int) : Int := b1 * word.high + (1 - b1) * word.low

/-- `ByteSplit(h)` (47_load_store.md R314). -/
def byteSplit (p : Nat) (h : Int) : RowM (Int × Int) := do
  let y0 ← cell p (h % 256)
  u8 p y0
  let y1 ← cell p (h / 256)
  u8 p y1
  assertEq p h (y0 + 256 * y1) .vEq
  pure (y0, y1)

/-- `ByteSel(word, b0, b1)` (47_load_store.md R314). -/
def byteSelRow (p : Nat) (word : ValU32) (b0 b1 : Int) : RowM Int := do
  let (y0, y1) ← byteSplit p (halfSelRow word b1)
  pure (b0 * y1 + (1 - b0) * y0)

/-- `SextByte(y)` (47_load_store.md R315). -/
def sextByte (p : Nat) (y : Int) : RowM ValU32 := do
  let sy ← cell p (y / 128)
  bit p sy
  u8 p (2 * (y - 128 * sy))
  pure ⟨y + 0xFF00 * sy, 0xFFFF * sy⟩

/-- `SextHalf(h)` (47_load_store.md R315). -/
def sextHalf (p : Nat) (h : Int) : RowM ValU32 := do
  let sh ← topBit p h
  pure ⟨h, 0xFFFF * sh⟩

/-- `Merge(old, data, b0, b1, kind)` (47_load_store.md R322). -/
def mergeRow (p : Nat) (old data : ValU32) (b0 b1 : Int) (kind : AccessSize) : RowM ValU32 :=
  match kind with
  | .word => pure data
  | .half => pure ⟨b1 * old.low + (1 - b1) * data.low, b1 * data.low + (1 - b1) * old.high⟩
  | .byte => do
    let (d0, _) ← byteSplit p data.low
    let (o0, o1) ← byteSplit p (halfSelRow old b1)
    let nh := b0 * (o0 + 256 * d0) + (1 - b0) * (d0 + 256 * o1)
    pure ⟨b1 * old.low + (1 - b1) * nh, b1 * nh + (1 - b1) * old.high⟩

end Sys2Proof.Circuit
end

