-- ==== Sys2Proof/Machine/CircuitDecode.lean ====
section
/-! DEFINITION. The decoder as constraints: sixteen witness pieces, their range checks, the reassembly of the
fetched word, the fields and the five immediates (30_encoding.md R85 to R101). -/

namespace Sys2Proof.Circuit

open Sys2Proof.Machine

/-- The sixteen witness pieces of a word (30_encoding.md R86). -/
structure Pieces where
  op    : Int
  rd0   : Int
  rd12  : Int
  rd34  : Int
  f3_01 : Int
  f3_2  : Int
  rs1_0 : Int
  rs1_12 : Int
  rs1_34 : Int
  rs2_0 : Int
  rs2_12 : Int
  rs2_34 : Int
  f7_01 : Int
  f7_23 : Int
  f7_45 : Int
  f7_6  : Int
deriving DecidableEq, Repr

/-- The piece of width `width` at bit `k` of a half; the witness generator's `(half & mask)·inverse(2^k)`
(30_encoding.md R86, R87). -/
def pieceOf (half : Int) (k width : Nat) : Int := half / 2 ^ k % 2 ^ width

/-- The honest pieces of a word (30_encoding.md R86). -/
def honestPieces (w : ValU32) : Pieces :=
  { op := pieceOf w.low 0 7, rd0 := pieceOf w.low 7 1, rd12 := pieceOf w.low 8 2, rd34 := pieceOf w.low 10 2
    f3_01 := pieceOf w.low 12 2, f3_2 := pieceOf w.low 14 1, rs1_0 := pieceOf w.low 15 1
    rs1_12 := pieceOf w.high 0 2, rs1_34 := pieceOf w.high 2 2, rs2_0 := pieceOf w.high 4 1
    rs2_12 := pieceOf w.high 5 2, rs2_34 := pieceOf w.high 7 2, f7_01 := pieceOf w.high 9 2
    f7_23 := pieceOf w.high 11 2, f7_45 := pieceOf w.high 13 2, f7_6 := pieceOf w.high 15 1 }

/-- The Bit pieces (30_encoding.md R86, R88). -/
def Pieces.bits (q : Pieces) : List Int := [q.rd0, q.f3_2, q.rs1_0, q.rs2_0, q.f7_6]

/-- The Twit pieces (30_encoding.md R86, R88). -/
def Pieces.twits (q : Pieces) : List Int :=
  [q.rd12, q.rd34, q.f3_01, q.rs1_12, q.rs1_34, q.rs2_12, q.rs2_34, q.f7_01, q.f7_23, q.f7_45]

/-- The low half that the pieces reassemble (30_encoding.md R90). -/
def Pieces.lowSum (q : Pieces) : Int :=
  q.op + 2 ^ 7 * q.rd0 + 2 ^ 8 * q.rd12 + 2 ^ 10 * q.rd34 + 2 ^ 12 * q.f3_01 + 2 ^ 14 * q.f3_2 + 2 ^ 15 * q.rs1_0

/-- The high half that the pieces reassemble (30_encoding.md R91). -/
def Pieces.highSum (q : Pieces) : Int :=
  q.rs1_12 + 2 ^ 2 * q.rs1_34 + 2 ^ 4 * q.rs2_0 + 2 ^ 5 * q.rs2_12 + 2 ^ 7 * q.rs2_34
    + 2 ^ 9 * q.f7_01 + 2 ^ 11 * q.f7_23 + 2 ^ 13 * q.f7_45 + 2 ^ 15 * q.f7_6

/-- The decoder's outputs: the six fields and the five immediates (30_encoding.md R85). -/
structure Decoded where
  opcode : Int
  rd     : Int
  func3  : Int
  rs1    : Int
  rs2    : Int
  func7  : Int
  immI   : ValU32
  immS   : ValU32
  immB   : ValU32
  immU   : ValU32
  immJ   : ValU32
deriving DecidableEq, Repr

/-- `F7LO`, word[30:25] at bits 10:5 (30_encoding.md, section 3). -/
def Pieces.f7lo (q : Pieces) : Int := 2 ^ 5 * q.f7_01 + 2 ^ 7 * q.f7_23 + 2 ^ 9 * q.f7_45

/-- The fields and immediates as linear sums of the pieces (30_encoding.md R92, R93, R95 to R99). -/
def Pieces.outputs (q : Pieces) (high : Int) : Decoded :=
  { opcode := q.op
    rd := q.rd0 + 2 * q.rd12 + 8 * q.rd34
    func3 := q.f3_01 + 4 * q.f3_2
    rs1 := q.rs1_0 + 2 * q.rs1_12 + 8 * q.rs1_34
    rs2 := q.rs2_0 + 2 * q.rs2_12 + 8 * q.rs2_34
    func7 := q.f7_01 + 4 * q.f7_23 + 16 * q.f7_45 + 64 * q.f7_6
    immI := ⟨q.rs2_0 + 2 * q.rs2_12 + 8 * q.rs2_34 + q.f7lo + 0xF800 * q.f7_6, 0xFFFF * q.f7_6⟩
    immS := ⟨q.rd0 + 2 * q.rd12 + 8 * q.rd34 + q.f7lo + 0xF800 * q.f7_6, 0xFFFF * q.f7_6⟩
    immB := ⟨2 * q.rd12 + 8 * q.rd34 + q.f7lo + 2 ^ 11 * q.rd0 + 0xF000 * q.f7_6, 0xFFFF * q.f7_6⟩
    immU := ⟨2 ^ 12 * q.f3_01 + 2 ^ 14 * q.f3_2 + 2 ^ 15 * q.rs1_0, high⟩
    immJ := ⟨2 * q.rs2_12 + 8 * q.rs2_34 + q.f7lo + 2 ^ 11 * q.rs2_0 + 2 ^ 12 * q.f3_01 + 2 ^ 14 * q.f3_2
        + 2 ^ 15 * q.rs1_0, q.rs1_12 + 4 * q.rs1_34 + 0xFFF0 * q.f7_6⟩ }

/-- The sixteen witness cells, in the order of the table of 30_encoding.md R86. -/
def pieceCells (p : Nat) (h : Pieces) : RowM Pieces := do
  let op ← cell p h.op
  let rd0 ← cell p h.rd0
  let rd12 ← cell p h.rd12
  let rd34 ← cell p h.rd34
  let f3_01 ← cell p h.f3_01
  let f3_2 ← cell p h.f3_2
  let rs1_0 ← cell p h.rs1_0
  let rs1_12 ← cell p h.rs1_12
  let rs1_34 ← cell p h.rs1_34
  let rs2_0 ← cell p h.rs2_0
  let rs2_12 ← cell p h.rs2_12
  let rs2_34 ← cell p h.rs2_34
  let f7_01 ← cell p h.f7_01
  let f7_23 ← cell p h.f7_23
  let f7_45 ← cell p h.f7_45
  let f7_6 ← cell p h.f7_6
  pure ⟨op, rd0, rd12, rd34, f3_01, f3_2, rs1_0, rs1_12, rs1_34, rs2_0, rs2_12, rs2_34, f7_01, f7_23, f7_45, f7_6⟩

/-- The constraints on the pieces of a word: range checks, then reassembly (30_encoding.md R88 to R91; the order
of 60_exceptions.md R362). -/
def checkPieces (p : Nat) (w : ValU32) (q : Pieces) : RowM Unit := do
  checkAll (bit p) q.bits
  checkAll (twit p) q.twits
  u8 p q.op
  u8 p (2 * q.op)
  assertEq p w.low q.lowSum .vReassemble
  assertEq p w.high q.highSum .vReassemble

/-- The pieces of a word that satisfy the decoder's constraints (30_encoding.md R86 to R91, R94). -/
def checkedPieces (p : Nat) (w : ValU32) : RowM Pieces := do
  let q ← pieceCells p (honestPieces w)
  checkPieces p w q
  pure q

/-- `Decode(word)` (30_encoding.md R85). -/
def decodeRow (p : Nat) (w : ValU32) : RowM Decoded := do
  let q ← checkedPieces p w
  pure (q.outputs w.high)

/-- `Lookup(dec.opcode, dec.func3, dec.func7, word)` (30_encoding.md R116); the rs2 field of the two I-sys rows is
part of the whole word. -/
def Decoded.lookup (d : Decoded) (w : ValU32) : Option Op :=
  lookupFields d.opcode.toNat d.func3.toNat d.func7.toNat w.value.toNat

end Sys2Proof.Circuit
end

