-- ==== Sys2Proof/Machine/CircuitRow.lean ====
section
/-! DEFINITION. One cycle as constraints (10_state.md R45): the minor one-hot, the fetch, the decoder, the
dispatch binding, and the constraint realisation of every instruction (files 41 to 48). `circuitStep` is the cycle
for any oracle; with the empty tape it is the cycle under the honest one. -/

namespace Sys2Proof.Circuit

open Sys2Proof.Machine

/-- What a row of an instruction of files 41 to 47 hands forward: newPc, and the one register or memory write
(10_state.md R33, R44). -/
structure RowOutput where
  newPc    : ValU32
  regWrite : Option (RegNum × ValU32)
  memWrite : Option (WordAddr × ValU32)
deriving DecidableEq, Repr

/-- How a row ends: with an output record, or handed to the control subsystem (48_system.md R340). -/
inductive RowEnd where
  | output (o : RowOutput)
  | control (word : Word)
deriving DecidableEq, Repr

/-- A register number from its decoded field (30_encoding.md R84, R92). -/
def regOf (field : Int) : RegNum := BitVec.ofInt 5 field

/-- A register read transaction (10_state.md R36, R37, R44). -/
def readRegRow (s : State) (field : Int) : RowM ValU32 := do
  emitTxn ⟨.regRead, s.slot (regOf field), s.readReg (regOf field)⟩
  pure (ValU32.ofWord (s.readReg (regOf field)))

/-- The end of an instruction that writes rd and goes on in sequence (41_alu.md R170). -/
def retireRow (p : Nat) (s : State) (d : Decoded) (v : ValU32) : RowM RowOutput := do
  let (pc4, _) ← addConst32 p (ValU32.ofWord s.pc) 4#32
  pure ⟨pc4, some (regOf d.rd, v), none⟩

/-- `newPc = Select(cond, target, pcPlus4)`, both computed (46_control_transfer.md R293). -/
def branchRow (p : Nat) (s : State) (d : Decoded) (cond : Int) : RowM RowOutput := do
  let (target, _) ← add32 p (ValU32.ofWord s.pc) d.immB
  let (pc4, _) ← addConst32 p (ValU32.ofWord s.pc) 4#32
  pure ⟨selectWord cond target pc4, none, none⟩

/-- A load's address, checks and read; then rd (47_load_store.md R310 to R312, R316). -/
def loadRow (p : Nat) (s : State) (d : Decoded) (kind : AccessSize)
    (extend : ValU32 → Int → Int → RowM ValU32) : RowM RowOutput := do
  let base ← readRegRow s d.rs1
  let (ea, _) ← add32 p base d.immI
  let (w, b0, b1) ← addrSplit p ea kind .vMisaligned
  require (s.addrOk .load (BitVec.ofInt 30 w)) .vMem
  emitTxn ⟨.load, BitVec.ofInt 30 w, s.mem.readWord (BitVec.ofInt 30 w)⟩
  let v ← extend (ValU32.ofWord (s.mem.readWord (BitVec.ofInt 30 w))) b0 b1
  retireRow p s d v

/-- A store's address, checks and word write; the new data of the memory record is the merge (47_load_store.md
R310 to R312, R322, R323). -/
def storeRow (p : Nat) (s : State) (d : Decoded) (kind : AccessSize) : RowM RowOutput := do
  let base ← readRegRow s d.rs1
  let data ← readRegRow s d.rs2
  let (ea, _) ← add32 p base d.immS
  let (w, b0, b1) ← addrSplit p ea kind .vMisaligned
  require (s.addrOk .store (BitVec.ofInt 30 w)) .vMem
  let old := ValU32.ofWord (s.mem.readWord (BitVec.ofInt 30 w))
  let merged ← mergeRow p old data b0 b1 kind
  let newLow ← cell p merged.low
  let newHigh ← cell p merged.high
  assertEq p newLow merged.low .vMem
  assertEq p newHigh merged.high .vMem
  let (pc4, _) ← addConst32 p (ValU32.ofWord s.pc) 4#32
  pure ⟨pc4, none, some (BitVec.ofInt 30 w, ⟨newLow, newHigh⟩)⟩

/-- An operation on two registers. -/
def regRegRow (p : Nat) (s : State) (d : Decoded) (unit : ValU32 → ValU32 → RowM ValU32) : RowM RowOutput := do
  let a ← readRegRow s d.rs1
  let b ← readRegRow s d.rs2
  let v ← unit a b
  retireRow p s d v

/-- An operation on a register and the I immediate. -/
def regImmRow (p : Nat) (s : State) (d : Decoded) (unit : ValU32 → ValU32 → RowM ValU32) : RowM RowOutput := do
  let a ← readRegRow s d.rs1
  let v ← unit a d.immI
  retireRow p s d v

/-- An operation on a register and the power of two of the shift amount in the rs2 field (30_encoding.md R100). -/
def shiftImmRow (p : Nat) (s : State) (d : Decoded) (unit : ValU32 → ValU32 → RowM ValU32) : RowM RowOutput := do
  let a ← readRegRow s d.rs1
  let pw ← pow2 p d.rs2
  let v ← unit a pw
  retireRow p s d v

/-- A branch on a comparator bit of two registers (46_control_transfer.md R293). -/
def compareBranchRow (p : Nat) (s : State) (d : Decoded) (cond : ValU32 → ValU32 → RowM Int) : RowM RowOutput := do
  let a ← readRegRow s d.rs1
  let b ← readRegRow s d.rs2
  let c ← cond a b
  branchRow p s d c

/-- The first component of a unit's result. -/
def firstOf {α β : Type} (m : RowM (α × β)) : RowM α := do
  let (a, _) ← m
  pure a

/-- The second component of a unit's result. -/
def secondOf {α β : Type} (m : RowM (α × β)) : RowM β := do
  let (_, b) ← m
  pure b

/-- A comparator bit as the word {lt, 0} (42_compare.md R194). -/
def condRow (m : RowM Int) : RowM ValU32 := do
  let lt ← m
  pure ⟨lt, 0⟩

/-- One minus a comparator bit (42_compare.md R193). -/
def notRow (m : RowM Int) : RowM Int := do
  let c ← m
  pure (1 - c)

/-- The constraint realisation of an instruction (files 41 to 47); ECALL and MRET hand the row to the control
subsystem (48_system.md R342, R343). -/
def rowExec (p : Nat) (op : Op) (d : Decoded) (s : State) : RowM RowEnd :=
  let out (m : RowM RowOutput) : RowM RowEnd := do
    let o ← m
    pure (.output o)
  match op with
  | .add => out (regRegRow p s d (fun a b => firstOf (add32 p a b)))
  | .sub => out (regRegRow p s d (fun a b => firstOf (sub32 p a b)))
  | .addi => out (regImmRow p s d (fun a b => firstOf (add32 p a b)))
  | .lui => out (retireRow p s d d.immU)
  | .auipc => out (do
      let (v, _) ← add32 p (ValU32.ofWord s.pc) d.immU
      retireRow p s d v)
  | .slt => out (regRegRow p s d (fun a b => condRow (ltSRow p a b)))
  | .sltu => out (regRegRow p s d (fun a b => condRow (ltURow p a b)))
  | .slti => out (regImmRow p s d (fun a b => condRow (ltSRow p a b)))
  | .sltiu => out (regImmRow p s d (fun a b => condRow (ltURow p a b)))
  | .and => out (regRegRow p s d (bitAnd p))
  | .or => out (regRegRow p s d (bitOr p))
  | .xor => out (regRegRow p s d (bitXor p))
  | .andi => out (regImmRow p s d (bitAnd p))
  | .ori => out (regImmRow p s d (bitOr p))
  | .xori => out (regImmRow p s d (bitXor p))
  | .mul => out (regRegRow p s d (fun a b => firstOf (multiplyAccumulate p a b ⟨0, 0⟩ false false false)))
  | .mulh => out (regRegRow p s d (fun a b => secondOf (multiplyAccumulate p a b ⟨0, 0⟩ true true false)))
  | .mulhsu => out (regRegRow p s d (fun a b => secondOf (multiplyAccumulate p a b ⟨0, 0⟩ true false false)))
  | .mulhu => out (regRegRow p s d (fun a b => secondOf (multiplyAccumulate p a b ⟨0, 0⟩ false false false)))
  | .sll => out (regRegRow p s d (fun a b => do
      let pw ← pow2OfRegister p b
      firstOf (multiplyAccumulate p a pw ⟨0, 0⟩ false false false)))
  | .slli => out (shiftImmRow p s d (fun a pw => firstOf (multiplyAccumulate p a pw ⟨0, 0⟩ false false false)))
  | .div => out (regRegRow p s d (fun a b => firstOf (doDiv p a b true)))
  | .divu => out (regRegRow p s d (fun a b => firstOf (doDiv p a b false)))
  | .rem => out (regRegRow p s d (fun a b => secondOf (doDiv p a b true)))
  | .remu => out (regRegRow p s d (fun a b => secondOf (doDiv p a b false)))
  | .srl => out (regRegRow p s d (fun a b => do
      let pw ← pow2OfRegister p b
      firstOf (doDiv p a pw false)))
  | .sra => out (regRegRow p s d (fun a b => do
      let pw ← pow2OfRegister p b
      shiftArithRow p a pw))
  | .srli => out (shiftImmRow p s d (fun a pw => firstOf (doDiv p a pw false)))
  | .srai => out (shiftImmRow p s d (fun a pw => shiftArithRow p a pw))
  | .beq => out (compareBranchRow p s d (eqU32 p))
  | .bne => out (compareBranchRow p s d (fun a b => notRow (eqU32 p a b)))
  | .blt => out (compareBranchRow p s d (ltSRow p))
  | .bge => out (compareBranchRow p s d (fun a b => notRow (ltSRow p a b)))
  | .bltu => out (compareBranchRow p s d (ltURow p))
  | .bgeu => out (compareBranchRow p s d (fun a b => notRow (ltURow p a b)))
  | .jal => out (do
      let (link, _) ← addConst32 p (ValU32.ofWord s.pc) 4#32
      let (target, _) ← add32 p (ValU32.ofWord s.pc) d.immJ
      pure ⟨target, some (regOf d.rd, link), none⟩)
  | .jalr => out (do
      let base ← readRegRow s d.rs1
      let (t, _) ← add32 p base d.immI
      let target ← clearBit0Row p t
      let (link, _) ← addConst32 p (ValU32.ofWord s.pc) 4#32
      pure ⟨target, some (regOf d.rd, link), none⟩)
  | .lb => out (loadRow p s d .byte (fun word b0 b1 => do
      let y ← byteSelRow p word b0 b1
      sextByte p y))
  | .lh => out (loadRow p s d .half (fun word _ b1 => sextHalf p (halfSelRow word b1)))
  | .lw => out (loadRow p s d .word (fun word _ _ => pure word))
  | .lbu => out (loadRow p s d .byte (fun word b0 b1 => do
      let y ← byteSelRow p word b0 b1
      pure ⟨y, 0⟩))
  | .lhu => out (loadRow p s d .half (fun word _ b1 => pure ⟨halfSelRow word b1, 0⟩))
  | .sb => out (storeRow p s d .byte)
  | .sh => out (storeRow p s d .half)
  | .sw => out (storeRow p s d .word)
  | .ecall => pure (.control 0x00000073#32)
  | .mret => pure (.control 0x30200073#32)

/-- The (group, minor) of an instruction, the minors of ECALL and MRET from the OPEN parameter (30_encoding.md
R103, R117). -/
def dispatchOf (cfg : FieldConfig) (op : Op) : MajorGroup × Nat :=
  match op.row with
  | some r => (r.group, r.minor.getD (cfg.sysMinor op))
  | none => (.alu0, 0)

/-- The dispatch pair an honest oracle gives for the word at the pc: that of its instruction, or any where the
word is illegal (60_exceptions.md R364). -/
def honestDispatch (cfg : FieldConfig) (s : State) : Int × Int :=
  match Sys2Proof.lookup s.fetchWord with
  | some op => ((cfg.majorCode (dispatchOf cfg op).1 : Nat), ((dispatchOf cfg op).2 : Nat))
  | none => (0, 0)

/-- The oracle's (major, minor) and minor one-hot, and the check of the one-hot (10_state.md R31, R32). -/
def oneHotRow (cfg : FieldConfig) (s : State) : RowM (Int × Int) := do
  let major ← cell cfg.p (honestDispatch cfg s).1
  let minor ← cell cfg.p (honestDispatch cfg s).2
  let h ← cells cfg.p (oneHotFrom Config.numMinors 0 (honestDispatch cfg s).2)
  checkAll (fun c => assertEq cfg.p (c * (c - 1)) 0 .vOnehot) h
  assertEq cfg.p h.sum 1 .vOnehot
  assertEq cfg.p (indexSum 0 h) minor .vOnehot
  pure (major, minor)

/-- The binding of (major, minor) to the decoded instruction; the minor of ECALL and MRET is not checked
(30_encoding.md R117). -/
def bindDispatch (cfg : FieldConfig) (op : Op) (major minor : Int) : RowM Unit := do
  assertEq cfg.p major (cfg.majorCode (dispatchOf cfg op).1 : Nat) .vDispatch
  match op with
  | .ecall | .mret => pure ()
  | _ => assertEq cfg.p minor (dispatchOf cfg op).2 .vDispatch

/-- One row, in the order of 60_exceptions.md R362. -/
def rowCycle (cfg : FieldConfig) (s : State) : RowM RowEnd := do
  let (major, minor) ← oneHotRow cfg s
  require (s.istate == s.params.stateDecode) .vState
  let (w, _, _) ← addrSplit cfg.p (ValU32.ofWord s.pc) .word .vFetchAlign
  require (s.addrOk .fetch (BitVec.ofInt 30 w)) .vMem
  emitTxn ⟨.fetch, BitVec.ofInt 30 w, s.mem.readWord (BitVec.ofInt 30 w)⟩
  let word := ValU32.ofWord (s.mem.readWord (BitVec.ofInt 30 w))
  let d ← decodeRow cfg.p word
  match d.lookup word with
  | none => violation .vIllegal
  | some op => do
    bindDispatch cfg op major minor
    rowExec cfg.p op d s

/-- The state a row hands forward: the data write, the write of rd, the pc (10_state.md R33 to R35, R44). -/
def commit (s : State) (o : RowOutput) : State :=
  let stored : State := match o.memWrite with
    | some (w, v) => { s with mem := s.mem.writeWord w v.toWord }
    | none => s
  let written : State := match o.regWrite with
    | some (r, v) => stored.writeReg r v.toWord
    | none => stored
  written.setPc o.newPc.toWord

/-- The write transactions of a row's output, after its reads (10_state.md R44). -/
def RowOutput.writeTxns (s : State) (o : RowOutput) : List Txn :=
  (match o.memWrite with | some (w, v) => [⟨.store, w, v.toWord⟩] | none => [])
    ++ (match o.regWrite with
      | some (r, v) => [⟨.regWrite, s.slot r, if r = 0#5 then 0#32 else v.toWord⟩]
      | none => [])

/-- One cycle under an oracle: a next state exactly when every constraint holds (00_scope.md R15, R18). -/
def circuitStep (cfg : FieldConfig) (tape : List (Option Nat)) (s : State) : Result :=
  match rowCycle cfg s (RowState.start tape) with
  | .error code => raise code
  | .ok (.output o, _) => endCycle (.next (commit s o))
  | .ok (.control word, _) => endCycle (controlStep word s)

/-- The memory transactions of a cycle under an oracle, in order; none where the row is a violation (10_state.md
R44). -/
def cycleTxns (cfg : FieldConfig) (tape : List (Option Nat)) (s : State) : List Txn :=
  match rowCycle cfg s (RowState.start tape) with
  | .error _ => []
  | .ok (.output o, st) => st.txns ++ o.writeTxns s
  | .ok (.control _, st) => st.txns

end Sys2Proof.Circuit
end

