-- ==== Sys2Proof/Safety.lean ====
section
/-! DEFINITION. The terms of the claims: the spec's notation on words, what an instruction that writes a register or
memory may change, the invariants, the illegal words, block-level runs, and what it means for a unit of the
constraint layer to be sound and complete. -/

namespace Sys2Proof.Safety

open Sys2Proof.Machine

/-! ## Notation (00_scope.md R9, R12) -/

/-- `u32(i) = i mod 2^32` (00_scope.md R9). -/
def u32 (i : Int) : Word := BitVec.ofInt 32 i

/-- A u32 as an unsigned integer (00_scope.md R8). -/
def unsigned (v : Word) : Int := (v.toNat : Int)

/-- `signed(v)` (00_scope.md R9). -/
def signed (v : Word) : Int := unsigned v - 2 ^ 32 * (if v.getLsbD 31 then 1 else 0)

/-- `v - 2^N·v[N-1]` of an N-bit value, whose u32 is its sign extension (00_scope.md R9). -/
def sextInt {n : Nat} (v : BitVec n) : Int := (v.toNat : Int) - 2 ^ n * (if v.getLsbD (n - 1) then 1 else 0)

/-- `MemRead(addr, n)`: n bytes from an address as an unsigned integer, little-endian (00_scope.md R12). -/
def memRead (m : Memory) (addr : Nat) : (n : Nat) → Nat
  | 0 => 0
  | n + 1 => (m.readByte addr).toNat + 256 * memRead m (addr + 1) n

/-! ## What an instruction may change -/

/-- Everything but the pc and memory is as before: the interpreter state and the mode (10_state.md R35), and the
model's own fields. -/
structure HandsOn (s t : State) : Prop where
  istate  : t.istate = s.istate
  mode    : t.mode = s.mode
  cycle   : t.cycle = s.cycle
  params  : t.params = s.params
  control : t.control = s.control

/-- The next pc is `npc`, register rd takes v (x0 stays 0, and its slot holds 0), and nothing else changes: no other
register, and no byte of memory outside rd's slot (10_state.md R36, R37). -/
structure WritesReg (s t : State) (rd : RegNum) (v npc : Word) : Prop where
  pc     : t.pc = npc
  rest   : HandsOn s t
  dest   : t.readReg rd = if rd = 0#5 then 0#32 else v
  slot   : t.mem.readWord (s.slot rd) = if rd = 0#5 then 0#32 else v
  others : ∀ r, r ≠ rd → t.readReg r = s.readReg r
  bytes  : ∀ a, a / 4 ≠ (s.slot rd).toNat → t.mem.readByte a = s.mem.readByte a

/-- The pc goes on in sequence, the `size` bytes from `addr` take the low bytes of `data`, and nothing else changes:
no other byte of memory, and no register whose slot is another word (47_load_store.md R322, R323). -/
structure StoresBytes (s t : State) (size : AccessSize) (addr data : Word) : Prop where
  pc     : t.pc = u32 (unsigned s.pc + 4)
  rest   : HandsOn s t
  stored : ∀ k, k < size.bytes → t.mem.readByte (addr.toNat + k) = byteOfWord data k
  bytes  : ∀ a, a < addr.toNat ∨ addr.toNat + size.bytes ≤ a → t.mem.readByte a = s.mem.readByte a
  regs   : ∀ r, s.slot r ≠ wordAddrOf addr → t.readReg r = s.readReg r

/-- The instruction completes and writes only rd and the pc. -/
def Computes (i : Instr) (s : State) (rd : RegNum) (v npc : Word) : Prop :=
  ∃ t, exec i s = .next t ∧ WritesReg s t rd v npc

/-- The instruction completes and changes nothing but the pc. -/
def OnlyMovesPc (i : Instr) (s : State) (npc : Word) : Prop := exec i s = .next { s with pc := npc }

/-- The word an instruction's data store writes, if it is a store (47_load_store.md R310, R322). -/
def storedWord (i : Instr) (s : State) : Option WordAddr :=
  match i with
  | .sb rs1 _ imm | .sh rs1 _ imm | .sw rs1 _ imm => some (wordAddrOf (s.effAddr rs1 imm))
  | _ => none

/-- The destination of an instruction that computes one value from registers, immediate and pc (files 41 to 45). -/
def computedReg : Instr → Option RegNum
  | .add rd _ _ | .sub rd _ _ | .xor rd _ _ | .or rd _ _ | .and rd _ _ | .slt rd _ _ | .sltu rd _ _ => some rd
  | .addi rd _ _ | .xori rd _ _ | .ori rd _ _ | .andi rd _ _ | .slti rd _ _ | .sltiu rd _ _ => some rd
  | .lui rd _ | .auipc rd _ => some rd
  | .sll rd _ _ | .slli rd _ _ | .srl rd _ _ | .sra rd _ _ | .srli rd _ _ | .srai rd _ _ => some rd
  | .mul rd _ _ | .mulh rd _ _ | .mulhsu rd _ _ | .mulhu rd _ _ => some rd
  | .div rd _ _ | .divu rd _ _ | .rem rd _ _ | .remu rd _ _ => some rd
  | _ => none

/-- The instructions of 46_control_transfer.md. -/
def transfersControl : Instr → Bool
  | .beq _ _ _ | .bne _ _ _ | .blt _ _ _ | .bge _ _ _ | .bltu _ _ _ | .bgeu _ _ _ | .jal _ _ | .jalr _ _ _ => true
  | _ => false

/-- ECALL and MRET, the instructions of 48_system.md. -/
def handsOver : Instr → Bool
  | .ecall | .mret => true
  | _ => false

/-- The transactions of an instruction's cycle by kind and word address, in the order of 10_state.md R44: the fetch,
the reads of rs1 and rs2, the data access, the write of rd. -/
def cyclePlan (i : Instr) (s : State) : List (Circuit.TxnKind × WordAddr) :=
  let fetch := (Circuit.TxnKind.fetch, wordAddrOf s.pc)
  let reads (r : RegNum) := (Circuit.TxnKind.regRead, s.slot r)
  let writes (r : RegNum) := (Circuit.TxnKind.regWrite, s.slot r)
  let load (rs1 : RegNum) (imm : BitVec 12) := (Circuit.TxnKind.load, wordAddrOf (s.effAddr rs1 imm))
  let store (rs1 : RegNum) (imm : BitVec 12) := (Circuit.TxnKind.store, wordAddrOf (s.effAddr rs1 imm))
  match i with
  | .add rd a b | .sub rd a b | .xor rd a b | .or rd a b | .and rd a b | .slt rd a b | .sltu rd a b
  | .sll rd a b | .srl rd a b | .sra rd a b | .mul rd a b | .mulh rd a b | .mulhsu rd a b | .mulhu rd a b
  | .div rd a b | .divu rd a b | .rem rd a b | .remu rd a b => [fetch, reads a, reads b, writes rd]
  | .addi rd a _ | .xori rd a _ | .ori rd a _ | .andi rd a _ | .slti rd a _ | .sltiu rd a _ => [fetch, reads a, writes rd]
  | .slli rd a _ | .srli rd a _ | .srai rd a _ | .jalr rd a _ => [fetch, reads a, writes rd]
  | .lui rd _ | .auipc rd _ | .jal rd _ => [fetch, writes rd]
  | .beq a b _ | .bne a b _ | .blt a b _ | .bge a b _ | .bltu a b _ | .bgeu a b _ => [fetch, reads a, reads b]
  | .lb rd a imm | .lh rd a imm | .lw rd a imm | .lbu rd a imm | .lhu rd a imm =>
    [fetch, reads a, load a imm, writes rd]
  | .sb a b imm | .sh a b imm | .sw a b imm => [fetch, reads a, reads b, store a imm]
  | .ecall | .mret => [fetch]

/-! ## Invariants -/

/-- Memory keeps its canonical form, the pc is even (46_control_transfer.md R292: every target is), and so is the pc
of every pending answer of the control subsystem. -/
structure KeptInv (s : State) : Prop where
  memory  : s.mem.wf = true
  pcEven  : s.pc.toNat % 2 = 0
  answers : ∀ r, ControlAnswer.result r ∈ s.control → r.newPc.toNat % 2 = 0

/-- The x0 premise (70_reset_and_hazards.md R384): the slot of x0 holds 0, no store may reach it, and the control
subsystem, which could change it, has no answer pending. -/
structure X0Inv (s : State) : Prop where
  memory  : s.mem.wf = true
  alone   : s.control = []
  guarded : s.addrOk .store (s.slot 0#5) = false
  zero    : s.mem.readWord (s.slot 0#5) = 0#32

/-- The next fetch is that of a word of the state: decode-ready, an aligned pc, a permitted fetch (10_state.md
R45). -/
structure FetchOk (s : State) : Prop where
  istate  : s.istate = s.params.stateDecode
  aligned : s.pc.toNat % 4 = 0
  allowed : s.addrOk .fetch (wordAddrOf s.pc) = true

/-! ## Illegal words -/

/-- The opcode values of 30_encoding.md R102. -/
def knownOpcodes : List (BitVec 7) :=
  [0x37#7, 0x17#7, 0x6F#7, 0x67#7, 0x63#7, 0x03#7, 0x23#7, 0x13#7, 0x33#7, 0x73#7]

/-- The illegal words, case by case as 30_encoding.md R118 lists them. -/
def IllegalWord (w : Word) : Prop :=
  opcodeOf w ∉ knownOpcodes
  ∨ (opcodeOf w = 0x73#7 ∧ w ≠ 0x00000073#32 ∧ w ≠ 0x30200073#32)
  ∨ (opcodeOf w = 0x67#7 ∧ func3Of w ≠ 0#3)
  ∨ (opcodeOf w = 0x63#7 ∧ func3Of w ∈ [2#3, 3#3])
  ∨ (opcodeOf w = 0x03#7 ∧ func3Of w ∈ [3#3, 6#3, 7#3])
  ∨ (opcodeOf w = 0x23#7 ∧ func3Of w ∈ [3#3, 4#3, 5#3, 6#3, 7#3])
  ∨ (opcodeOf w = 0x13#7 ∧ func3Of w = 1#3 ∧ func7Of w ≠ 0x00#7)
  ∨ (opcodeOf w = 0x13#7 ∧ func3Of w = 5#3 ∧ func7Of w ∉ [0x00#7, 0x20#7])
  ∨ (opcodeOf w = 0x33#7 ∧ func7Of w ∉ [0x00#7, 0x20#7, 0x01#7])
  ∨ (opcodeOf w = 0x33#7 ∧ func7Of w = 0x20#7 ∧ func3Of w ∉ [0#3, 5#3])

/-! ## Block-level runs (70_reset_and_hazards.md R382) -/

/-- How a block-level run ends, with the state it ends in where there is one (70_reset_and_hazards.md R382). -/
inductive RunEnd where
  /-- A constraint violation: the run is invalid and leaves no state. -/
  | invalid (code : Fault)
  /-- The pc is HALT_PC; the cycle there is not executed. -/
  | halted (s : State)
  /-- The default CONTROL_STEP ended the run at an ECALL or MRET, whose state is unchanged. -/
  | stopped (reason : Refusal) (s : State)
  /-- The given number of cycles has run. -/
  | cut (s : State)
deriving DecidableEq, Repr

/-- A block-level run of at most `cycles` cycles, with or without a stop address (70_reset_and_hazards.md R382;
log 19). DESIGN CHOICE (log 23), unsafe: a run whose pc is HALT_PC halts before any check of that cycle. -/
def blockRun (haltPc : Option Word) : (cycles : Nat) → State → RunEnd
  | 0, s => if haltPc = some s.pc then .halted s else .cut s
  | cycles + 1, s =>
    if haltPc = some s.pc then .halted s
    else match step s with
      | .next t => blockRun haltPc cycles t
      | .fault code => .invalid code
      | .refused reason => .stopped reason s

/-- A run is safe when no violation ends it (60_exceptions.md R360). -/
def SafeRun (haltPc : Option Word) (cycles : Nat) (s : State) : Prop :=
  ∀ code, blockRun haltPc cycles s ≠ .invalid code

/-! ## Units of the constraint layer (00_scope.md R17) -/

/-- Soundness of a unit: every satisfying witness gives a result with the property. -/
def EverySatisfying {α : Type} (m : Circuit.RowM α) (property : α → Prop) : Prop :=
  ∀ st r st', m st = .ok (r, st') → property r

/-- Completeness of a unit: the honest witness satisfies it and gives this result. -/
def HonestGives {α : Type} (m : Circuit.RowM α) (result : α) : Prop :=
  ∀ st, st.tape = [] → ∃ st', m st = .ok (result, st') ∧ st'.tape = []

/-- A unit that computes exactly one result: the honest witness gives it, and no satisfying witness gives
another. -/
def Determined {α : Type} (m : Circuit.RowM α) (result : α) : Prop :=
  HonestGives m result ∧ EverySatisfying m (fun r => r = result)

/-- A bit as a field element. -/
def asBit (b : Bool) : Int := if b then 1 else 0

end Sys2Proof.Safety
end

