-- ==== Sys2Proof/Certificates/Slice0/Obligations.lean ====
section
/-! DEFINITION. The statements about the model, for the provers. -/

section

open Sys2Proof Sys2Proof.Machine Sys2Proof.Safety Sys2Proof.Circuit

/-- The state after reset has memory in canonical form, an even pc and no pending control answer; it is decode-
ready at an aligned pc that may be fetched; every register, and the slot of x0, holds 0; every byte below the
register slots is the free value of the initial image (log 8). x0's 0 is the spec's (70_reset_and_hazards.md R384);
the other values are the model's choice for OPEN values (logs 2, 4 to 7, 9 and 22), and so is the form of memory
(log 8). (R380, R381, R383, R384.) -/
def Obligations.ResetMeetsInvariant : Prop :=
  KeptInv State.reset ∧ State.reset.control = [] ∧ FetchOk State.reset ∧ (∀ r, State.reset.readReg r = 0#32) ∧
    State.reset.mem.readWord (State.reset.slot 0#5) = 0#32 ∧
    ∀ a, a / 4 < (State.reset.slot 0#5).toNat → State.reset.mem.readByte a = Config.initialByte a

/-- From every state whose memory is in canonical form, whose pc is even and whose pending control answers all have
an even pc, a step that answers a next state answers one that meets the same invariant: every target is even
(46_control_transfer.md R292) and every write keeps the canonical form. The canonical form of memory is the model's
own (log 8). The clause on pending control answers rests on log 9 (the answers of the OPEN control subsystem are
data of the state). (R292, 20_memory.md, 46_control_transfer.md.) -/
def Obligations.StepKeepsInvariant : Prop :=
  ∀ s t, KeptInv s → step s = .next t → KeptInv t

/-- If the slot of x0 holds 0 and an instruction other than ECALL and MRET completes without a data store to that
slot, the slot still holds 0: a write to x0 writes 0, and no other register's slot is x0's (10_state.md R37;
70_reset_and_hazards.md R384). (R37, R384, R327.) -/
def Obligations.X0SlotKeptByInstructions : Prop :=
  ∀ i s t, handsOver i = false → storedWord i s ≠ some (s.slot 0#5) →
    s.mem.readWord (s.slot 0#5) = 0#32 → exec i s = .next t → t.mem.readWord (t.slot 0#5) = 0#32

/-- The x0 premise of 70_reset_and_hazards.md R384 is an invariant of the step: with memory canonical, no pending
control answer and stores to x0's slot refused by ADDR_OK in the state's mode, every next state again has all of
this and 0 in x0's slot. That memory has a canonical form, that ADDR_OK is a list of refusals and that control
answers are pending in the state are the model's choices (logs 8, 4 and 9). (R37, R384, R327, R68.) -/
def Obligations.X0InvariantKeptBySteps : Prop :=
  ∀ s t, X0Inv s → step s = .next t → X0Inv t

/-- Every step in another interpreter state is the violation V_STATE. Every step of an instruction of files 41 to
47 (all but ECALL and MRET) that has a next state leaves the interpreter state decode-ready and the mode as it was.
(R35.) -/
def Obligations.HandoffFieldsKept : Prop :=
  (∀ s, s.istate ≠ s.params.stateDecode → step s = .fault .vState) ∧
    ∀ s t i, decodeWord s.fetchWord = .ok i → handsOver i = false → step s = .next t →
      s.istate = s.params.stateDecode ∧ t.istate = s.params.stateDecode ∧ t.mode = s.mode

/-- When the state is decode-ready, the pc is a multiple of 4 that may be fetched and the four bytes at the pc
decode to a well-formed instruction i, the step is exec of i at that state; a next state has its cycle counter
advanced by one and is otherwise exec's, and a fault or a refusal is exec's. That a step advances the cycle counter
by one is the model's choice (log 12). (R45, R66, R64.) -/
def Obligations.StepRunsDecoded : Prop :=
  ∀ s i rest, FetchOk s → i.wf = true →
    decode [s.mem.readByte s.pc.toNat, s.mem.readByte (s.pc.toNat + 1), s.mem.readByte (s.pc.toNat + 2),
      s.mem.readByte (s.pc.toNat + 3)] = .ok (i, rest) →
    step s = match exec i s with
      | .next t => .next { t with cycle := t.cycle + 1 }
      | .fault c => .fault c
      | .refused q => .refused q

/-- A step is V_STATE in a state that is not decode-ready; else V_FETCH_ALIGN at a pc that is not a multiple of 4;
else V_MEM where ADDR_OK refuses the fetch; else V_ILLEGAL at a word that matches no row of the opcode table. The
one-hot, the decoder's range checks and the dispatch binding of R362 are the circuit layer's (log 15). (R45, R66,
R68, R118, R362, R363.) -/
def Obligations.CommonChecksInOrder : Prop :=
  ∀ s,
    (s.istate ≠ s.params.stateDecode → step s = .fault .vState) ∧
    (s.istate = s.params.stateDecode → s.pc.toNat % 4 ≠ 0 → step s = .fault .vFetchAlign) ∧
    (s.istate = s.params.stateDecode → s.pc.toNat % 4 = 0 → s.addrOk .fetch (wordAddrOf s.pc) = false →
      step s = .fault .vMem) ∧
    (FetchOk s → lookupByMask (s.mem.readWord (wordAddrOf s.pc)) = none → step s = .fault .vIllegal)

/-- A step's fault is one of V_STATE, V_FETCH_ALIGN, V_ILLEGAL, V_MISALIGNED, V_MEM and V_CONTROL, and each of the
six is the fault of some step. (R364, R361.) -/
def Obligations.OnlySixViolations : Prop :=
  ∀ c, (∃ s, step s = .fault c) ↔
    c = .vState ∨ c = .vFetchAlign ∨ c = .vIllegal ∨ c = .vMisaligned ∨ c = .vMem ∨ c = .vControl

/-- In a state whose fetch is in order, the step is the violation V_ILLEGAL exactly when the fetched word is one of
the illegal words, case by case as 30_encoding.md R118 lists them: an unknown opcode (so FENCE, AMO, floating
point, custom opcodes and every word whose two low bits are not 11), a SYSTEM word other than ECALL and MRET, and
the func3 and func7 values no row has. (R118.) -/
def Obligations.IllegalWordsFault : Prop :=
  ∀ s, FetchOk s → (step s = .fault .vIllegal ↔ IllegalWord (s.mem.readWord (wordAddrOf s.pc)))

/-- Looking a word up by its fields gives an instruction exactly when the row of that instruction in the table of
30_encoding.md R103 matches the word by mask, no two rows match one word, and lookup by mask agrees. (R102, R103,
R116.) -/
def Obligations.LookupMatchesTable : Prop :=
  (∀ w op, lookup w = some op ↔ ∃ r ∈ opcodeTable, r.op = op ∧ w &&& r.mask = r.mtch) ∧
    (∀ w, ∀ r ∈ opcodeTable, ∀ r' ∈ opcodeTable, w &&& r.mask = r.mtch → w &&& r'.mask = r'.mtch → r = r') ∧
    ∀ w, lookupByMask w = lookup w

/-- For every well-formed instruction, with every operand at every value its encoding admits, decoding the bytes of
its encoding (and whatever bytes follow) gives the instruction and the bytes that follow. (R81, R82, R95, R96, R97,
R98, R99, R100, R103, 30_encoding.md.) -/
def Obligations.DecodeEncode : Prop :=
  ∀ i, i.wf = true → ∀ rest, decode (encodeBytes i ++ rest) = .ok (i, rest)

/-- Every word that decodes to an instruction decodes to a well-formed one whose encoding is that word: no bit of a
word is dropped. (R81, R82, R94, R95, R96, R97, R98, R99, R100, R103.) -/
def Obligations.EncodeDecode : Prop :=
  ∀ w i, decodeWord w = .ok i → i.wf = true ∧ encode i = w

/-- Words that the worked examples of the spec write out decode to the instructions they stand for, one or more per
format, and EBREAK's word is refused. (R95, R96, R97, R98, R99, R103, R118.) -/
def Obligations.DecodeSamples : Prop :=
  decodeWord 0x00108133#32 = .ok (.add 2#5 1#5 1#5) ∧
    decodeWord 0xFFF08093#32 = .ok (.addi 1#5 1#5 0xFFF#12) ∧
    decodeWord 0x123450B7#32 = .ok (.lui 1#5 0x12345#20) ∧
    decodeWord 0x00001297#32 = .ok (.auipc 5#5 1#20) ∧
    decodeWord 0x4040D113#32 = .ok (.srai 2#5 1#5 4#5) ∧
    decodeWord 0xFE209EE3#32 = .ok (.bne 1#5 2#5 0x1FFC#13) ∧
    decodeWord 0x001000EF#32 = .ok (.jal 1#5 2048#21) ∧
    decodeWord 0x003280E7#32 = .ok (.jalr 1#5 5#5 3#12) ∧
    decodeWord 0x00308103#32 = .ok (.lb 2#5 1#5 3#12) ∧
    decodeWord 0xFE20AE23#32 = .ok (.sw 1#5 2#5 0xFFC#12) ∧
    decodeWord 0x30200073#32 = .ok .mret ∧
    decodeWord 0x00100073#32 = .error (.illegal 0x00100073#32)

/-- In every state, ADD, SUB and ADDI complete: rd takes the sum or difference modulo 2^32 (x0 stays 0), the pc
goes to u32(pc + 4), and no other register, no byte outside rd's slot and no other field changes. (R36, R37, R170,
R171, R172, R173, R176.) -/
def Obligations.AddSubtractCompute : Prop :=
  ∀ s rd rs1 rs2 imm,
    Computes (.add rd rs1 rs2) s rd (u32 (unsigned (s.readReg rs1) + unsigned (s.readReg rs2))) (u32 (unsigned s.pc + 4)) ∧
    Computes (.sub rd rs1 rs2) s rd (u32 (unsigned (s.readReg rs1) - unsigned (s.readReg rs2))) (u32 (unsigned s.pc + 4)) ∧
    Computes (.addi rd rs1 imm) s rd (u32 (unsigned (s.readReg rs1) + sextInt imm)) (u32 (unsigned s.pc + 4))

/-- In every state, LUI and AUIPC complete: rd takes imm20 * 2^12, or the pc plus that modulo 2^32 (x0 stays 0),
the pc goes to u32(pc + 4), and nothing else changes. (R36, R37, R98, R170, R174, R175.) -/
def Obligations.UpperImmediatesCompute : Prop :=
  ∀ s rd imm,
    Computes (.lui rd imm) s rd (u32 ((imm.toNat : Int) * 2 ^ 12)) (u32 (unsigned s.pc + 4)) ∧
    Computes (.auipc rd imm) s rd (u32 (unsigned s.pc + (imm.toNat : Int) * 2 ^ 12)) (u32 (unsigned s.pc + 4))

/-- In every state, the four set-less-than instructions complete: rd takes 1 where the signed or unsigned
comparison holds and 0 where it does not (x0 stays 0); SLTIU compares with the sign-extended immediate read
unsigned; the pc goes to u32(pc + 4), and nothing else changes. (R36, R37, R95, R194, R195, R196, R197, R198.) -/
def Obligations.SetLessThanComputes : Prop :=
  ∀ s rd rs1 rs2 imm,
    Computes (.slt rd rs1 rs2) s rd (if signed (s.readReg rs1) < signed (s.readReg rs2) then 1#32 else 0#32) (u32 (unsigned s.pc + 4)) ∧
    Computes (.sltu rd rs1 rs2) s rd (if unsigned (s.readReg rs1) < unsigned (s.readReg rs2) then 1#32 else 0#32) (u32 (unsigned s.pc + 4)) ∧
    Computes (.slti rd rs1 imm) s rd (if signed (s.readReg rs1) < sextInt imm then 1#32 else 0#32) (u32 (unsigned s.pc + 4)) ∧
    Computes (.sltiu rd rs1 imm) s rd
      (if unsigned (s.readReg rs1) < unsigned (u32 (sextInt imm)) then 1#32 else 0#32) (u32 (unsigned s.pc + 4))

/-- In every state, the six bitwise instructions complete: bit k of rd's new value is the AND, OR or XOR of bit k
of the operands, the immediate sign-extended (x0 stays 0), the pc goes to u32(pc + 4), and nothing else changes.
(R36, R37, R95, R213, R214, R215, R216, R217, R218, R219.) -/
def Obligations.BitwiseComputes : Prop :=
  ∀ s rd rs1 rs2 imm,
    (∃ v, Computes (.and rd rs1 rs2) s rd v (u32 (unsigned s.pc + 4)) ∧
      ∀ k < 32, v.getLsbD k = (and ((s.readReg rs1).getLsbD k) ((s.readReg rs2).getLsbD k))) ∧
    (∃ v, Computes (.or rd rs1 rs2) s rd v (u32 (unsigned s.pc + 4)) ∧
      ∀ k < 32, v.getLsbD k = (or ((s.readReg rs1).getLsbD k) ((s.readReg rs2).getLsbD k))) ∧
    (∃ v, Computes (.xor rd rs1 rs2) s rd v (u32 (unsigned s.pc + 4)) ∧
      ∀ k < 32, v.getLsbD k = (xor ((s.readReg rs1).getLsbD k) ((s.readReg rs2).getLsbD k))) ∧
    (∃ v, Computes (.andi rd rs1 imm) s rd v (u32 (unsigned s.pc + 4)) ∧
      ∀ k < 32, v.getLsbD k = (and ((s.readReg rs1).getLsbD k) ((u32 (sextInt imm)).getLsbD k))) ∧
    (∃ v, Computes (.ori rd rs1 imm) s rd v (u32 (unsigned s.pc + 4)) ∧
      ∀ k < 32, v.getLsbD k = (or ((s.readReg rs1).getLsbD k) ((u32 (sextInt imm)).getLsbD k))) ∧
    (∃ v, Computes (.xori rd rs1 imm) s rd v (u32 (unsigned s.pc + 4)) ∧
      ∀ k < 32, v.getLsbD k = (xor ((s.readReg rs1).getLsbD k) ((u32 (sextInt imm)).getLsbD k)))

/-- In every state, the four multiply instructions complete: rd takes the low word of the product, or the high word
of the exact product of the signed-signed, signed-unsigned or unsigned-unsigned readings (x0 stays 0), the pc goes
to u32(pc + 4), and nothing else changes. (R36, R37, R234, R239, R240, R241, R242, R243, R246.) -/
def Obligations.MultiplyComputes : Prop :=
  ∀ s rd rs1 rs2,
    Computes (.mul rd rs1 rs2) s rd (u32 (unsigned (s.readReg rs1) * unsigned (s.readReg rs2))) (u32 (unsigned s.pc + 4)) ∧
    Computes (.mulh rd rs1 rs2) s rd (u32 (signed (s.readReg rs1) * signed (s.readReg rs2) / 2 ^ 32)) (u32 (unsigned s.pc + 4)) ∧
    Computes (.mulhsu rd rs1 rs2) s rd (u32 (signed (s.readReg rs1) * unsigned (s.readReg rs2) / 2 ^ 32)) (u32 (unsigned s.pc + 4)) ∧
    Computes (.mulhu rd rs1 rs2) s rd (u32 (unsigned (s.readReg rs1) * unsigned (s.readReg rs2) / 2 ^ 32)) (u32 (unsigned s.pc + 4))

/-- In every state, SLL and SLLI complete: rd takes x[rs1] * 2^s modulo 2^32, s being the low five bits of x[rs2]
or the shift field (x0 stays 0), the pc goes to u32(pc + 4), and nothing else changes. (R36, R37, R100, R238, R239,
R244, R245, R246.) -/
def Obligations.LeftShiftComputes : Prop :=
  ∀ s rd rs1 rs2 shamt,
    Computes (.sll rd rs1 rs2) s rd (u32 (unsigned (s.readReg rs1) * 2 ^ ((s.readReg rs2).toNat % 32))) (u32 (unsigned s.pc + 4)) ∧
    Computes (.slli rd rs1 shamt) s rd (u32 (unsigned (s.readReg rs1) * 2 ^ shamt.toNat)) (u32 (unsigned s.pc + 4))

/-- In every state, DIV and REM complete, writing q and r to rd (x0 stays 0): by a zero divisor q is all ones and r
the dividend; at 0x80000000 / -1 q is 0x80000000 and r is 0; otherwise n = q*d + r over the signed readings, |r| <
|d|, and r is 0 or has the sign of n. The pc goes to u32(pc + 4) and nothing else changes. (R36, R37, R262, R265,
R266, R268, R274.) -/
def Obligations.SignedDivisionComputes : Prop :=
  ∀ s rd rs1 rs2, ∃ q r,
    Computes (.div rd rs1 rs2) s rd q (u32 (unsigned s.pc + 4)) ∧ Computes (.rem rd rs1 rs2) s rd r (u32 (unsigned s.pc + 4)) ∧
    (s.readReg rs2 = 0#32 → q = 0xFFFFFFFF#32 ∧ r = s.readReg rs1) ∧
    (s.readReg rs1 = 0x80000000#32 → s.readReg rs2 = 0xFFFFFFFF#32 → q = 0x80000000#32 ∧ r = 0#32) ∧
    (s.readReg rs2 ≠ 0#32 → ¬ (s.readReg rs1 = 0x80000000#32 ∧ s.readReg rs2 = 0xFFFFFFFF#32) →
      signed (s.readReg rs1) = signed q * signed (s.readReg rs2) + signed r ∧
      |signed r| < |signed (s.readReg rs2)| ∧
      (signed r = 0 ∨ (signed r < 0 ↔ signed (s.readReg rs1) < 0)))

/-- In every state, DIVU and REMU complete, writing q and r to rd (x0 stays 0): by a zero divisor q is all ones and
r the dividend; otherwise n = q*d + r and 0 <= r < d over the unsigned readings. The pc goes to u32(pc + 4) and
nothing else changes. (R36, R37, R262, R265, R267, R269, R274.) -/
def Obligations.UnsignedDivisionComputes : Prop :=
  ∀ s rd rs1 rs2, ∃ q r,
    Computes (.divu rd rs1 rs2) s rd q (u32 (unsigned s.pc + 4)) ∧ Computes (.remu rd rs1 rs2) s rd r (u32 (unsigned s.pc + 4)) ∧
    (s.readReg rs2 = 0#32 → q = 0xFFFFFFFF#32 ∧ r = s.readReg rs1) ∧
    (s.readReg rs2 ≠ 0#32 →
      unsigned (s.readReg rs1) = unsigned q * unsigned (s.readReg rs2) + unsigned r ∧
      unsigned r < unsigned (s.readReg rs2))

/-- In every state, the four right shifts complete: rd takes the floor of the unsigned (SRL, SRLI) or the signed
(SRA, SRAI) reading of x[rs1] divided by 2^s, s being the low five bits of x[rs2] or the shift field (x0 stays 0),
the pc goes to u32(pc + 4), and nothing else changes. (R36, R37, R100, R238, R265, R270, R271, R272, R273.) -/
def Obligations.RightShiftComputes : Prop :=
  ∀ s rd rs1 rs2 shamt,
    Computes (.srl rd rs1 rs2) s rd (u32 (unsigned (s.readReg rs1) / 2 ^ ((s.readReg rs2).toNat % 32))) (u32 (unsigned s.pc + 4)) ∧
    Computes (.srli rd rs1 shamt) s rd (u32 (unsigned (s.readReg rs1) / 2 ^ shamt.toNat)) (u32 (unsigned s.pc + 4)) ∧
    Computes (.sra rd rs1 rs2) s rd (u32 (signed (s.readReg rs1) / 2 ^ ((s.readReg rs2).toNat % 32))) (u32 (unsigned s.pc + 4)) ∧
    Computes (.srai rd rs1 shamt) s rd (u32 (signed (s.readReg rs1) / 2 ^ shamt.toNat)) (u32 (unsigned s.pc + 4))

/-- In every state the six branches complete: the pc goes to u32(pc + offset) where the condition on x[rs1] and
x[rs2] holds (equal, different, signed or unsigned less, signed or unsigned not less) and to u32(pc + 4) where it
does not; no register, no byte of memory and no other field changes. (R39, R97, R290, R291, R293, R294, R295, R296,
R297, R298, R299, R303.) -/
def Obligations.BranchesMoveThePc : Prop :=
  ∀ s rs1 rs2 offset,
    OnlyMovesPc (.beq rs1 rs2 offset) s
      (if s.readReg rs1 = s.readReg rs2 then u32 (unsigned s.pc + sextInt offset) else u32 (unsigned s.pc + 4)) ∧
    OnlyMovesPc (.bne rs1 rs2 offset) s
      (if s.readReg rs1 ≠ s.readReg rs2 then u32 (unsigned s.pc + sextInt offset) else u32 (unsigned s.pc + 4)) ∧
    OnlyMovesPc (.blt rs1 rs2 offset) s
      (if signed (s.readReg rs1) < signed (s.readReg rs2) then u32 (unsigned s.pc + sextInt offset) else u32 (unsigned s.pc + 4)) ∧
    OnlyMovesPc (.bge rs1 rs2 offset) s
      (if signed (s.readReg rs2) ≤ signed (s.readReg rs1) then u32 (unsigned s.pc + sextInt offset) else u32 (unsigned s.pc + 4)) ∧
    OnlyMovesPc (.bltu rs1 rs2 offset) s
      (if unsigned (s.readReg rs1) < unsigned (s.readReg rs2) then u32 (unsigned s.pc + sextInt offset) else u32 (unsigned s.pc + 4)) ∧
    OnlyMovesPc (.bgeu rs1 rs2 offset) s
      (if unsigned (s.readReg rs2) ≤ unsigned (s.readReg rs1) then u32 (unsigned s.pc + sextInt offset) else u32 (unsigned s.pc + 4))

/-- In every state, JAL and JALR complete: rd takes u32(pc + 4) (x0 stays 0), the pc goes to u32(pc + offset), or
to the sum of the old x[rs1] and the immediate modulo 2^32 with bit 0 cleared, and nothing else changes. (R36, R37,
R95, R99, R290, R291, R300, R301, R303, R387.) -/
def Obligations.JumpsLink : Prop :=
  ∀ s rd rs1 offset imm,
    Computes (.jal rd offset) s rd (u32 (unsigned s.pc + 4)) (u32 (unsigned s.pc + sextInt offset)) ∧
    ∀ target, target = unsigned (u32 (unsigned (s.readReg rs1) + sextInt imm)) →
      Computes (.jalr rd rs1 imm) s rd (u32 (unsigned s.pc + 4)) (u32 (target - target % 2))

/-- In every state where ADDR_OK permits the load at the word of the effective address (and the address is even for
a halfword), the four sub-word loads complete: rd takes the byte, or the little-endian halfword, at the effective
address, sign- or zero-extended (x0 stays 0), the pc goes to u32(pc + 4), and nothing else changes. (R12, R64,
R310, R313, R314, R315, R316, R317, R318, R320, R321.) -/
def Obligations.ByteAndHalfLoadsCompute : Prop :=
  ∀ s rd rs1 imm, s.addrOk .load (wordAddrOf (s.effAddr rs1 imm)) = true →
    (s.effAddr rs1 imm) = u32 (unsigned (s.readReg rs1) + sextInt imm) ∧
    (Computes (.lb rd rs1 imm) s rd
      (u32 (sextInt (BitVec.ofNat 8 (memRead s.mem (s.effAddr rs1 imm).toNat 1)))) (u32 (unsigned s.pc + 4))) ∧
    (Computes (.lbu rd rs1 imm) s rd
      (u32 (memRead s.mem (s.effAddr rs1 imm).toNat 1 : Nat)) (u32 (unsigned s.pc + 4))) ∧
    ((s.effAddr rs1 imm).toNat % 2 = 0 → Computes (.lh rd rs1 imm) s rd
      (u32 (sextInt (BitVec.ofNat 16 (memRead s.mem (s.effAddr rs1 imm).toNat 2)))) (u32 (unsigned s.pc + 4))) ∧
    ((s.effAddr rs1 imm).toNat % 2 = 0 → Computes (.lhu rd rs1 imm) s rd
      (u32 (memRead s.mem (s.effAddr rs1 imm).toNat 2 : Nat)) (u32 (unsigned s.pc + 4)))

/-- In every state where the effective address is a multiple of 4 and ADDR_OK permits the load, LW completes: rd
takes the four bytes at the effective address, little-endian (x0 stays 0), the pc goes to u32(pc + 4), and nothing
else changes. (R12, R36, R37, R64, R310, R311, R312, R316, R319.) -/
def Obligations.WordLoadComputes : Prop :=
  ∀ s rd rs1 imm, s.addrOk .load (wordAddrOf (s.effAddr rs1 imm)) = true →
    (s.effAddr rs1 imm).toNat % 4 = 0 →
    (s.effAddr rs1 imm) = u32 (unsigned (s.readReg rs1) + sextInt imm) ∧
    Computes (.lw rd rs1 imm) s rd (u32 (memRead s.mem (s.effAddr rs1 imm).toNat 4 : Nat)) (u32 (unsigned s.pc + 4))

/-- In every state where ADDR_OK permits the store at the word of the effective address (and the address is a
multiple of 2 or 4 for SH or SW), the stores complete: the 1, 2 or 4 bytes at the effective address take the low
bytes of x[rs2], lowest first; every other byte of memory, every register whose slot is another word and every
field but the pc is as before; the pc goes to u32(pc + 4). (R12, R64, R310, R311, R312, R322, R323, R324, R325,
R326.) -/
def Obligations.StoresWriteTheirBytes : Prop :=
  ∀ s rs1 rs2 imm, s.addrOk .store (wordAddrOf (s.effAddr rs1 imm)) = true →
    (s.effAddr rs1 imm) = u32 (unsigned (s.readReg rs1) + sextInt imm) ∧
    (∃ t, exec (.sb rs1 rs2 imm) s = .next t ∧ StoresBytes s t .byte (s.effAddr rs1 imm) (s.readReg rs2)) ∧
    ((s.effAddr rs1 imm).toNat % 2 = 0 → ∃ t, exec (.sh rs1 rs2 imm) s = .next t ∧ StoresBytes s t .half (s.effAddr rs1 imm) (s.readReg rs2)) ∧
    ((s.effAddr rs1 imm).toNat % 4 = 0 → ∃ t, exec (.sw rs1 rs2 imm) s = .next t ∧ StoresBytes s t .word (s.effAddr rs1 imm) (s.readReg rs2))

/-- A word load or store is the violation V_MISALIGNED exactly when the effective address is not a multiple of 4, a
halfword load or store exactly when it is odd, and a byte load or store never; the fault leaves no next state, so
no access is split. (R67.) -/
def Obligations.MisalignedAccessFaults : Prop :=
  ∀ s rd rs1 rs2 imm,
    (exec (.lw rd rs1 imm) s = .fault .vMisaligned ↔ (s.effAddr rs1 imm).toNat % 4 ≠ 0) ∧
    (exec (.sw rs1 rs2 imm) s = .fault .vMisaligned ↔ (s.effAddr rs1 imm).toNat % 4 ≠ 0) ∧
    (exec (.lh rd rs1 imm) s = .fault .vMisaligned ↔ (s.effAddr rs1 imm).toNat % 2 ≠ 0) ∧
    (exec (.lhu rd rs1 imm) s = .fault .vMisaligned ↔ (s.effAddr rs1 imm).toNat % 2 ≠ 0) ∧
    (exec (.sh rs1 rs2 imm) s = .fault .vMisaligned ↔ (s.effAddr rs1 imm).toNat % 2 ≠ 0) ∧
    exec (.lb rd rs1 imm) s ≠ .fault .vMisaligned ∧ exec (.lbu rd rs1 imm) s ≠ .fault .vMisaligned ∧
    exec (.sb rs1 rs2 imm) s ≠ .fault .vMisaligned

/-- Where ADDR_OK refuses the load or the store at the word of the effective address in the state's mode, the
instruction is the violation V_MEM, or V_MISALIGNED where the address is also misaligned: alignment is checked
first. (R312.) -/
def Obligations.RefusedAccessFaults : Prop :=
  ∀ s rd rs1 rs2 imm,
    (s.addrOk .load (wordAddrOf (s.effAddr rs1 imm)) = false → exec (.lb rd rs1 imm) s = .fault .vMem) ∧
    (s.addrOk .load (wordAddrOf (s.effAddr rs1 imm)) = false → exec (.lbu rd rs1 imm) s = .fault .vMem) ∧
    (s.addrOk .load (wordAddrOf (s.effAddr rs1 imm)) = false →
      exec (.lh rd rs1 imm) s = .fault (if (s.effAddr rs1 imm).toNat % 2 = 0 then .vMem else .vMisaligned)) ∧
    (s.addrOk .load (wordAddrOf (s.effAddr rs1 imm)) = false →
      exec (.lhu rd rs1 imm) s = .fault (if (s.effAddr rs1 imm).toNat % 2 = 0 then .vMem else .vMisaligned)) ∧
    (s.addrOk .load (wordAddrOf (s.effAddr rs1 imm)) = false →
      exec (.lw rd rs1 imm) s = .fault (if (s.effAddr rs1 imm).toNat % 4 = 0 then .vMem else .vMisaligned)) ∧
    (s.addrOk .store (wordAddrOf (s.effAddr rs1 imm)) = false → exec (.sb rs1 rs2 imm) s = .fault .vMem) ∧
    (s.addrOk .store (wordAddrOf (s.effAddr rs1 imm)) = false →
      exec (.sh rs1 rs2 imm) s = .fault (if (s.effAddr rs1 imm).toNat % 2 = 0 then .vMem else .vMisaligned)) ∧
    (s.addrOk .store (wordAddrOf (s.effAddr rs1 imm)) = false →
      exec (.sw rs1 rs2 imm) s = .fault (if (s.effAddr rs1 imm).toNat % 4 = 0 then .vMem else .vMisaligned))

/-- With no answer of the control subsystem pending, a run that reaches ECALL or MRET with its fetch in order ends
there with the outcome Control(word, pc) and the state unchanged. A violation answered by the control subsystem is
V_CONTROL. That the control subsystem's answers are pending in the state, and that none left means the default, is
the model's choice (log 9), and so is the form of the outcome, a refusal (log 10). (R341.) -/
def Obligations.DefaultControlEndsTheRun : Prop :=
  (∀ s n haltPc, FetchOk s → haltPc ≠ some s.pc → s.control = [] →
      (s.fetchWord = 0x00000073#32 →
        blockRun haltPc (n + 1) s = .stopped (.control 0x00000073#32 s.pc) s) ∧
      (s.fetchWord = 0x30200073#32 →
        blockRun haltPc (n + 1) s = .stopped (.control 0x30200073#32 s.pc) s)) ∧
    ∀ s rest, s.control = .violation :: rest →
      exec .ecall s = .fault .vControl ∧ exec .mret s = .fault .vControl

/-- In every state where the control subsystem's next answer is a result, ECALL and MRET complete: the pc, the
interpreter state and the mode are those of the result, every word it writes holds the last value written, every
other word is as before, and the answer is used up. That answers are queued in the state is the model's form of the
OPEN relation CONTROL_STEP (log 9). (R340, R342, R343, R33, R34.) -/
def Obligations.ControlResultApplies : Prop :=
  ∀ s r rest, s.control = .result r :: rest →
    (∃ t, exec .ecall s = .next t ∧ t.pc = r.newPc ∧ t.istate = r.newState ∧ t.mode = r.newMode ∧ t.control = rest ∧
      t.params = s.params ∧ t.cycle = s.cycle ∧
      (∀ w, (∀ v, (w, v) ∉ r.writes) → t.mem.readWord w = s.mem.readWord w) ∧
      ∀ before w v later, r.writes = before ++ (w, v) :: later → (∀ v', (w, v') ∉ later) → t.mem.readWord w = v) ∧
    (∃ t, exec .mret s = .next t ∧ t.pc = r.newPc ∧ t.istate = r.newState ∧ t.mode = r.newMode ∧ t.control = rest ∧
      t.params = s.params ∧ t.cycle = s.cycle ∧
      (∀ w, (∀ v, (w, v) ∉ r.writes) → t.mem.readWord w = s.mem.readWord w) ∧
      ∀ before w v later, r.writes = before ++ (w, v) :: later → (∀ v', (w, v') ∉ later) → t.mem.readWord w = v)

/-- In every state whose x0 slot holds 0, an instruction of files 41 to 45 whose destination is x0 completes and
changes nothing but the pc, which goes to u32(pc + 4): every byte and every register reads as before, and memory is
equal as data where it is canonical and lists the slot of x0 (log 8). The canonical no-op is one of them. (R37,
R119, R384.) -/
def Obligations.HintsChangeOnlyThePc : Prop :=
  ∀ i s, computedReg i = some 0#5 → s.mem.readWord (s.slot 0#5) = 0#32 →
    ∃ t, exec i s = .next t ∧ t.pc = (u32 (unsigned s.pc + 4)) ∧ HandsOn s t ∧
      (∀ a, t.mem.readByte a = s.mem.readByte a) ∧ (∀ r, t.readReg r = s.readReg r) ∧
      (s.mem.wf = true → (∀ k < 4, (s.mem.listed (4 * (s.slot 0#5).toNat + k)).isSome) → t.mem = s.mem)

/-- When a step completes an SW whose effective address is the address of the next instruction in sequence, the
word it stored is the word fetched next: where that fetch is in order and the stored word decodes, the next step is
the decoded instruction's, with no fence between. (R66, R70, R73, R323, R326.) -/
def Obligations.StoredWordIsNextFetched : Prop :=
  ∀ s t rs1 rs2 imm i, decodeWord s.fetchWord = .ok (.sw rs1 rs2 imm) →
    s.effAddr rs1 imm = u32 (unsigned s.pc + 4) → step s = .next t →
    t.fetchWord = s.readReg rs2 ∧
      (FetchOk t → decodeWord (s.readReg rs2) = .ok i → step t = endCycle (exec i t))

/-- In every state where ADDR_OK permits the access and the effective address is that of the slot of a register
other than x0: SW leaves x[rs2]'s old value in that register, and LW gives rd that register's old value. (R36, R70,
R327.) -/
def Obligations.SlotAccessIsRegisterAccess : Prop :=
  ∀ s rd rs1 rs2 imm r, r ≠ 0#5 → (s.effAddr rs1 imm).toNat = 4 * (s.slot r).toNat →
    (s.addrOk .store (s.slot r) = true →
      ∃ t, exec (.sw rs1 rs2 imm) s = .next t ∧ t.readReg r = s.readReg rs2) ∧
    (s.addrOk .load (s.slot r) = true → rd ≠ 0#5 →
      ∃ t, exec (.lw rd rs1 imm) s = .next t ∧ t.readReg rd = s.readReg r)

/-- When a branch or jump completes, its next pc is even; where that pc is not a multiple of 4, the next step is
the violation V_FETCH_ALIGN, raised one cycle after the jump itself completed. (R40, R66, R292.) -/
def Obligations.MisalignedTargetFaultsAtFetch : Prop :=
  ∀ s t i, decodeWord s.fetchWord = .ok i → transfersControl i = true → step s = .next t →
    t.pc.toNat % 2 = 0 ∧ (t.pc.toNat % 4 ≠ 0 → step t = .fault .vFetchAlign)

/-- Whatever the instruction, a step with a next state adds 1 to the cycle counter, leaves STATE_DECODE, REG_BASE
and ADDR_OK as they are, and leaves the queue of control answers as it is or, at ECALL and MRET, takes its first
answer. The counter and the queue are the model's fields (logs 9 and 12). (R18, R34, R388.) -/
def Obligations.StepUsesOneCycle : Prop :=
  ∀ s t, step s = .next t →
    t.cycle = s.cycle + 1 ∧ t.params = s.params ∧
      ((t.control = s.control ∧ ∃ i, decodeWord s.fetchWord = .ok i ∧ handsOver i = false) ∨
        (∃ r, s.control = .result r :: t.control) ∧ ∃ i, decodeWord s.fetchWord = .ok i ∧ handsOver i = true)

/-- A run that has ended before its cycles ran out ends the same way with more cycles. A halted run is at HALT_PC;
a stopped run is at an ECALL or MRET with no control answer pending; an invalid run's code is one of the six of
R364. The stop address is an argument, and the cycle at it is not checked (logs 19 and 23). That a run stops where
no answer is pending, by a refusal, is the model's form of the default CONTROL_STEP (logs 9 and 10). (R360, R382,
R364, R341.) -/
def Obligations.BlockRunEndings : Prop :=
  ∀ haltPc n s,
    (∀ k, (∀ u, blockRun haltPc n s ≠ .cut u) → blockRun haltPc (n + k) s = blockRun haltPc n s) ∧
    (∀ u, blockRun haltPc n s = .halted u → haltPc = some u.pc) ∧
    (∀ q u, blockRun haltPc n s = .stopped q u → step u = .refused q ∧ u.control = [] ∧
      (q = .control 0x00000073#32 u.pc ∨ q = .control 0x30200073#32 u.pc)) ∧
    (∀ c, blockRun haltPc n s = .invalid c →
      c ∈ [Fault.vState, .vFetchAlign, .vIllegal, .vMisaligned, .vMem, .vControl])

/-- Over every prime field of the parameters, Bit(c) holds exactly when c is 0 or 1 and is V_BIT otherwise; Twit(c)
holds exactly when c is 0, 1, 2 or 3 and is V_TWIT otherwise; neither emits anything. (R130, R131.) -/
def Obligations.BitAndTwitChecks : Prop :=
  ∀ cfg : FieldConfig, cfg.Ok → ∀ c st,
    bit cfg.p c st = (if c % cfg.p = 0 ∨ c % cfg.p = 1 then .ok ((), st) else .error .vBit) ∧
    twit cfg.p c st =
      (if c % cfg.p = 0 ∨ c % cfg.p = 1 ∨ c % cfg.p = 2 ∨ c % cfg.p = 3 then .ok ((), st) else .error .vTwit)

/-- Over every prime field of the parameters, U8(c) and U16(c) hold exactly when c, read as an integer from 0 up to
the prime, is below 256 or 65536, and are V_U8 or V_U16 otherwise; one that holds adds one event of its width and
value to those emitted and changes nothing else of the row. (R132, R133, 40_primitives.md.) -/
def Obligations.RangeChecks : Prop :=
  ∀ cfg : FieldConfig, cfg.Ok → ∀ c st,
    u8 cfg.p c st = (if c % cfg.p < 256 then .ok ((), { st with events := st.events ++ [⟨8, c % cfg.p⟩] })
      else .error .vU8) ∧
    u16 cfg.p c st = (if c % cfg.p < 65536 then .ok ((), { st with events := st.events ++ [⟨16, c % cfg.p⟩] })
      else .error .vU16)

/-- For every denormalized pair within the bounds of R137, every satisfying witness of Normalize, the honest one
among them, gives canonical halves of value (l + 65536h) mod 2^32 and the carry (l + 65536h) div 2^32, a bit.
(R138.) -/
def Obligations.NormalizeUnit : Prop :=
  ∀ cfg : FieldConfig, cfg.Ok → ∀ l h : Int, 0 ≤ l → l ≤ 131071 → 0 ≤ h → h ≤ 131070 →
    ∃ (v : ValU32) (carry : Int), Determined (normalize cfg.p l h) (v, carry) ∧ v.Canonical ∧
      v.value = (l + 65536 * h) % 2 ^ 32 ∧ carry = (l + 65536 * h) / 2 ^ 32 ∧ (carry = 0 ∨ carry = 1)

/-- For all words a and b, every satisfying witness of Add32, the honest one among them, gives u32(a + b) and the
carry (a + b) div 2^32, and of Sub32 gives u32(a - b) and 1 exactly when a >= b unsigned. (R140.) -/
def Obligations.AddSubUnits : Prop :=
  ∀ cfg : FieldConfig, cfg.Ok → ∀ a b : Word,
    Determined (add32 cfg.p (ValU32.ofWord a) (ValU32.ofWord b))
      (ValU32.ofWord (u32 (unsigned a + unsigned b)), (unsigned a + unsigned b) / 2 ^ 32) ∧
    Determined (sub32 cfg.p (ValU32.ofWord a) (ValU32.ofWord b))
      (ValU32.ofWord (u32 (unsigned a - unsigned b)), if unsigned b ≤ unsigned a then 1 else 0)

/-- For every field element x, every satisfying witness of IsZero gives 1 when x is 0 and 0 otherwise, and for all
words a and b every satisfying witness of EqU32 gives 1 exactly when a = b; the honest witness satisfies both.
(R142, R143.) -/
def Obligations.ZeroAndEqualityUnits : Prop :=
  ∀ cfg : FieldConfig, cfg.Ok →
    (∀ x, Determined (isZero cfg.p x) (if x % cfg.p = 0 then 1 else 0)) ∧
    ∀ a b : Word, Determined (eqU32 cfg.p (ValU32.ofWord a) (ValU32.ofWord b)) (if a = b then 1 else 0)

/-- For every byte address, every satisfying witness of AddrSplit, the honest one among them, gives addr div 4 and
the two low bits when the address suits the kind; when it does not, the honest witness raises the alignment code
and no witness satisfies it. Every satisfying witness of ClearBit0 gives the word with bit 0 cleared. (R66, R150,
R151, R311.) -/
def Obligations.AddressSplitUnit : Prop :=
  ∀ cfg : FieldConfig, cfg.Ok → ∀ (addr : Word) (kind : AccessSize) (code : Fault),
    (addr.toNat % kind.bytes = 0 →
      Determined (addrSplit cfg.p (ValU32.ofWord addr) kind code)
        (((addr.toNat / 4 : Nat) : Int), ((addr.toNat % 2 : Nat) : Int), ((addr.toNat / 2 % 2 : Nat) : Int))) ∧
    (addr.toNat % kind.bytes ≠ 0 →
      (∀ st, st.tape = [] → addrSplit cfg.p (ValU32.ofWord addr) kind code st = .error code) ∧
      EverySatisfying (addrSplit cfg.p (ValU32.ofWord addr) kind code) (fun _ => False)) ∧
    Determined (clearBit0Row cfg.p (ValU32.ofWord addr)) (ValU32.ofWord (u32 (unsigned addr - unsigned addr % 2)))

/-- For every word, every satisfying witness of the decoder, the honest one among them, has the sixteen honest
pieces in its cells and gives the six fields that the word's bits hold, and the fields reassemble the word; for a
pair of halves that is not canonical (as field elements) no witness satisfies it. (R83, R85, R88, R89, R90, R91,
R92, R93, R94.) -/
def Obligations.DecoderUnit : Prop :=
  ∀ cfg : FieldConfig, cfg.Ok →
    (∀ w : Word, Determined (checkedPieces cfg.p (ValU32.ofWord w)) (honestPieces (ValU32.ofWord w))) ∧
    (∀ w : Word, ∃ d : Decoded, Determined (decodeRow cfg.p (ValU32.ofWord w)) d ∧
      d.opcode = (opcodeOf w).toNat ∧ d.rd = (rdOf w).toNat ∧ d.func3 = (func3Of w).toNat ∧
      d.rs1 = (rs1Of w).toNat ∧ d.rs2 = (rs2Of w).toNat ∧ d.func7 = (func7Of w).toNat ∧
      unsigned w = d.opcode + 2 ^ 7 * d.rd + 2 ^ 12 * d.func3 + 2 ^ 15 * d.rs1 + 2 ^ 20 * d.rs2 + 2 ^ 25 * d.func7) ∧
    ∀ v : ValU32, 65536 ≤ v.low % cfg.p ∨ 65536 ≤ v.high % cfg.p →
      EverySatisfying (decodeRow cfg.p v) (fun _ => False)

/-- For every word, every satisfying witness of the decoder gives the five immediates, as canonical halves: I, S, B
and J are the sign extensions of the bits that R95, R96, R97 and R99 name, and U is the upper twenty bits above
twelve zeros. (R95, R96, R97, R98, R99.) -/
def Obligations.ImmediateSums : Prop :=
  ∀ cfg : FieldConfig, cfg.Ok → ∀ w : Word, EverySatisfying (decodeRow cfg.p (ValU32.ofWord w)) (fun d =>
    d.immI = ValU32.ofWord (u32 (sextInt (imm12I w))) ∧
    d.immS = ValU32.ofWord (u32 (sextInt (imm12S w))) ∧
    d.immB = ValU32.ofWord (u32 (sextInt (offsetB w))) ∧
    d.immU = ValU32.ofWord (u32 (((imm20U w).toNat : Int) * 2 ^ 12)) ∧
    d.immJ = ValU32.ofWord (u32 (sextInt (offsetJ w))))

/-- For all words a and b, every satisfying witness of LtS, the honest one among them, gives 1 exactly when
signed(a) < signed(b), and every satisfying witness of LtU gives 1 exactly when a < b unsigned. (R192.) -/
def Obligations.ComparatorUnits : Prop :=
  ∀ cfg : FieldConfig, cfg.Ok → ∀ a b : Word,
    Determined (ltSRow cfg.p (ValU32.ofWord a) (ValU32.ofWord b)) (if signed a < signed b then 1 else 0) ∧
    Determined (ltURow cfg.p (ValU32.ofWord a) (ValU32.ofWord b)) (if unsigned a < unsigned b then 1 else 0)

/-- For all words a and b, every satisfying witness of the bitwise units, the honest one among them, gives a & b, a
| b and a ^ b as canonical halves. (R210, R211, R212.) -/
def Obligations.BitwiseUnits : Prop :=
  ∀ cfg : FieldConfig, cfg.Ok → ∀ a b : Word,
    Determined (bitAnd cfg.p (ValU32.ofWord a) (ValU32.ofWord b)) (ValU32.ofWord (a &&& b)) ∧
    Determined (bitOr cfg.p (ValU32.ofWord a) (ValU32.ofWord b)) (ValU32.ofWord (a ||| b)) ∧
    Determined (bitXor cfg.p (ValU32.ofWord a) (ValU32.ofWord b)) (ValU32.ofWord (a ^^^ b))

/-- For all words a, b and c and every choice of signedness, every satisfying witness of MultiplyAccumulate, the
honest one among them, gives the low and high words of (A*B + C) mod 2^64, each operand read as its flag says.
(R234, R235.) -/
def Obligations.MultiplyAccumulateUnit : Prop :=
  ∀ cfg : FieldConfig, cfg.Ok → ∀ (a b c : Word) (sA sB sC : Bool),
    ∃ lo hi : Word, Determined
        (multiplyAccumulate cfg.p (ValU32.ofWord a) (ValU32.ofWord b) (ValU32.ofWord c) sA sB sC)
        (ValU32.ofWord lo, ValU32.ofWord hi) ∧
      unsigned lo + 2 ^ 32 * unsigned hi =
        ((if sA then signed a else unsigned a) * (if sB then signed b else unsigned b)
          + (if sC then signed c else unsigned c)) % 2 ^ 64

/-- For every shift amount s below 32, every satisfying witness of Pow2(s), the honest one among them, gives the
word 2^s, and no witness satisfies it at any other field element; for every word v, every satisfying witness of
Pow2(ShiftAmount(v)) gives 2^(v mod 32). (R237, R238.) -/
def Obligations.PowerTableUnit : Prop :=
  ∀ cfg : FieldConfig, cfg.Ok →
    (∀ s : Nat, s < 32 → Determined (pow2 cfg.p s) (ValU32.ofWord (u32 (2 ^ s)))) ∧
    (∀ s : Int, 32 ≤ s % cfg.p → EverySatisfying (pow2 cfg.p s) (fun _ => False)) ∧
    ∀ v : Word, Determined (pow2OfRegister cfg.p (ValU32.ofWord v)) (ValU32.ofWord (u32 (2 ^ (v.toNat % 32))))

/-- For all words n and d and either signedness, every oracle answer that satisfies DoDiv is the pair of the table
of R262: all ones and n for a zero divisor; 0x80000000 and 0 at the signed overflow; the truncated quotient and its
remainder otherwise. (R261, R262, R263.) -/
def Obligations.DivisionSoundness : Prop :=
  ∀ cfg : FieldConfig, cfg.Ok → ∀ (n d : Word) (sg : Bool),
    EverySatisfying (doDiv cfg.p (ValU32.ofWord n) (ValU32.ofWord d) sg) (fun r =>
      r = if d = 0#32 then (ValU32.ofWord 0xFFFFFFFF#32, ValU32.ofWord n)
        else if sg = true then
          if n = 0x80000000#32 ∧ d = 0xFFFFFFFF#32 then (ValU32.ofWord 0x80000000#32, ValU32.ofWord 0#32)
          else (ValU32.ofWord (u32 (Int.tdiv (signed n) (signed d))), ValU32.ofWord (u32 (Int.tmod (signed n) (signed d))))
        else (ValU32.ofWord (u32 (unsigned n / unsigned d)), ValU32.ofWord (u32 (unsigned n % unsigned d))))

/-- For all words n and d and either signedness, the honest oracle answer satisfies DoDiv and gives the quotient
and remainder of the division table. Any other answer for the four halves is a violation of the row. (R264.) -/
def Obligations.DivisionCompleteness : Prop :=
  ∀ cfg : FieldConfig, cfg.Ok → ∀ (n d : Word) (sg : Bool),
    HonestGives (doDiv cfg.p (ValU32.ofWord n) (ValU32.ofWord d) sg)
      (ValU32.ofWord (divQuotient n d sg), ValU32.ofWord (divRemainder n d sg)) ∧
    ∀ (q r : ValU32) st st', doDiv cfg.p (ValU32.ofWord n) (ValU32.ofWord d) sg st = .ok ((q, r), st') →
      q = ValU32.ofWord (divQuotient n d sg) ∧ r = ValU32.ofWord (divRemainder n d sg)

/-- For every word n and shift amount s below 32, every satisfying witness of the arithmetic shift by the power
2^s, the honest one among them, gives u32(floor(signed(n) / 2^s)). (R271, R261, R144.) -/
def Obligations.ArithmeticShiftUnit : Prop :=
  ∀ cfg : FieldConfig, cfg.Ok → ∀ (n : Word) (s : Nat), s < 32 →
    Determined (shiftArithRow cfg.p (ValU32.ofWord n) (ValU32.ofWord (u32 (2 ^ s))))
      (ValU32.ofWord (u32 (signed n / 2 ^ s)))

/-- For all words and every lane, every satisfying witness of ByteSel, SextByte, SextHalf and Merge, the honest one
among them, gives the byte at the lane, the sign extensions, and the word with the stored bytes replaced. (R64,
R313, R314, R315, R322.) -/
def Obligations.LaneUnits : Prop :=
  ∀ cfg : FieldConfig, cfg.Ok → ∀ (word data : Word) (lane : BitVec 2),
    Determined (byteSelRow cfg.p (ValU32.ofWord word) (lane.toNat % 2 : Nat) (lane.toNat / 2 : Nat))
      (byteOfWord word lane.toNat).toNat ∧
    (∀ y : Byte, Determined (sextByte cfg.p y.toNat) (ValU32.ofWord (u32 (sextInt y)))) ∧
    (∀ h : Half, Determined (sextHalf cfg.p h.toNat) (ValU32.ofWord (u32 (sextInt h)))) ∧
    ∀ kind : AccessSize, lane.toNat % kind.bytes = 0 → ∃ new : Word,
      Determined (mergeRow cfg.p (ValU32.ofWord word) (ValU32.ofWord data) (lane.toNat % 2 : Nat)
        (lane.toNat / 2 : Nat) kind) (ValU32.ofWord new) ∧
      ∀ k < 4, byteOfWord new k =
        if lane.toNat ≤ k ∧ k < lane.toNat + kind.bytes then byteOfWord data (k - lane.toNat) else byteOfWord word k

/-- For every oracle: if a row satisfies every constraint up to its end (an output, or the hand-off of ECALL and
MRET), the major it gave is the code of the fetched instruction's group and, for an instruction of files 41 to 47,
the minor is the instruction's in the opcode table, as field elements; the minor of ECALL and MRET is the control
subsystem's. (R32, R117, R116.) -/
def Obligations.DispatchIsBound : Prop :=
  ∀ cfg : FieldConfig, cfg.Ok → ∀ major minor tape s i rowEnd st, decodeWord s.fetchWord = .ok i →
    rowCycle cfg s (RowState.start (some major :: some minor :: tape)) = .ok (rowEnd, st) →
    major % cfg.p = cfg.majorCode (dispatchOf cfg i.op).1 ∧
      (handsOver i = false → minor % cfg.p = (dispatchOf cfg i.op).2)

/-- Under the honest oracle, the transactions of a cycle that completes are, in order, the fetch at the pc, the
reads of rs1 and rs2 where the instruction has them, the data access, and the write of rd, each at its word
address; a store makes no register write, and ADD makes exactly one. (R44, R171, R316, R323.) -/
def Obligations.TransactionOrder : Prop :=
  ∀ cfg : FieldConfig, cfg.Ok → ∀ s t i, decodeWord s.fetchWord = .ok i → step s = .next t →
    (cycleTxns cfg [] s).map (fun x => (x.kind, x.addr)) = cyclePlan i s

/-- For all parameters that the spec admits and every state, the constraint cycle under the honest oracle answers
exactly what the functional step answers: the same next state, the same violation code, the same outcome of a hand-
off (completeness, 00_scope.md R17 (a)). The form of a hand-off's outcome is the model's (logs 9 and 10). (R17,
R18, R364.) -/
def Obligations.CircuitIsComplete : Prop :=
  ∀ cfg : FieldConfig, cfg.Ok → ∀ s, circuitStep cfg [] s = step s

/-- For all parameters that the spec admits, every state and every oracle: if the constraint cycle has a next
state, it is the functional step's next state; if it is handed to the control subsystem without an answer, so is
the functional step; and where the functional step is a violation, no oracle satisfies the constraints (soundness,
00_scope.md R17 (b)). The clause on hand-offs rests on logs 9 and 10 (the queue of control answers, and the refusal
where none is left). (R17, R364, R116.) -/
def Obligations.CircuitIsSound : Prop :=
  ∀ cfg : FieldConfig, cfg.Ok → ∀ tape s,
    (∀ t, circuitStep cfg tape s = .next t → step s = .next t) ∧
    (∀ q, circuitStep cfg tape s = .refused q → step s = .refused q) ∧
    (∀ c, step s = .fault c → ∃ c', circuitStep cfg tape s = .fault c')

end
end

