-- ==== Sys2Proof/Laws/Memory.lean ====
section
/-! SUPPORT. What the memory operations do: a read after a write, the bytes a word write leaves alone, the
canonical form kept by every operation, and equality of memories that list alike. -/

namespace Sys2Proof.Machine

/-! ## Bytes of words -/

theorem byteOfWord_wordOfBytes_0 (b0 b1 b2 b3 : Byte) : byteOfWord (wordOfBytes b0 b1 b2 b3) 0 = b0 := by
  refine BitVec.eq_of_getLsbD_eq fun i hi => ?_
  simp only [byteOfWord, wordOfBytes, BitVec.getLsbD_extractLsb', BitVec.getLsbD_cast, BitVec.getLsbD_append]
  interval_cases i <;> simp

theorem byteOfWord_wordOfBytes_1 (b0 b1 b2 b3 : Byte) : byteOfWord (wordOfBytes b0 b1 b2 b3) 1 = b1 := by
  refine BitVec.eq_of_getLsbD_eq fun i hi => ?_
  simp only [byteOfWord, wordOfBytes, BitVec.getLsbD_extractLsb', BitVec.getLsbD_cast, BitVec.getLsbD_append]
  interval_cases i <;> simp

theorem byteOfWord_wordOfBytes_2 (b0 b1 b2 b3 : Byte) : byteOfWord (wordOfBytes b0 b1 b2 b3) 2 = b2 := by
  refine BitVec.eq_of_getLsbD_eq fun i hi => ?_
  simp only [byteOfWord, wordOfBytes, BitVec.getLsbD_extractLsb', BitVec.getLsbD_cast, BitVec.getLsbD_append]
  interval_cases i <;> simp

theorem byteOfWord_wordOfBytes_3 (b0 b1 b2 b3 : Byte) : byteOfWord (wordOfBytes b0 b1 b2 b3) 3 = b3 := by
  refine BitVec.eq_of_getLsbD_eq fun i hi => ?_
  simp only [byteOfWord, wordOfBytes, BitVec.getLsbD_extractLsb', BitVec.getLsbD_cast, BitVec.getLsbD_append]
  interval_cases i <;> simp

/-- A word is the word of its four bytes (20_memory.md R64). -/
@[simp] theorem wordOfBytes_byteOfWord (w : Word) :
    wordOfBytes (byteOfWord w 0) (byteOfWord w 1) (byteOfWord w 2) (byteOfWord w 3) = w := by
  ext i hi
  simp only [byteOfWord, wordOfBytes, BitVec.getElem_cast, BitVec.getElem_append, BitVec.getElem_extractLsb']
  split
  · simp [BitVec.getLsbD_eq_getElem hi]
  · split
    · rw [← BitVec.getLsbD_eq_getElem hi]; congr 1; omega
    · split
      · rw [← BitVec.getLsbD_eq_getElem hi]; congr 1; omega
      · rw [← BitVec.getLsbD_eq_getElem hi]; congr 1; omega

/-! ## Bytes of memory -/

@[simp] theorem listed_nil (a : Nat) : Memory.listed [] a = none := rfl

theorem listed_cons (k : Nat) (v : Byte) (m : Memory) (a : Nat) :
    Memory.listed ((k, v) :: m) a = if k = a then some v else Memory.listed m a := rfl

theorem readByte_of_listed {m : Memory} {a : Nat} {v : Byte} (h : m.listed a = some v) : m.readByte a = v := by
  simp [Memory.readByte, h]

/-- A byte that memory does not list is the initial image's (70_reset_and_hazards.md R383). -/
theorem readByte_of_not_listed {m : Memory} {a : Nat} (h : m.listed a = none) :
    m.readByte a = Config.initialByte a := by
  simp [Memory.readByte, h]

theorem wfFrom_cons {lo k : Nat} {v : Byte} {m : Memory} :
    Memory.wfFrom lo ((k, v) :: m) = true ↔ lo ≤ k ∧ k < 2 ^ 32 ∧ Memory.wfFrom (k + 1) m = true := by
  simp only [Memory.wfFrom, Bool.and_eq_true, decide_eq_true_iff, and_assoc]

theorem wfFrom_mono {lo lo' : Nat} {m : Memory} (hle : lo' ≤ lo) (h : Memory.wfFrom lo m = true) :
    Memory.wfFrom lo' m = true := by
  cases m with
  | nil => rfl
  | cons c m =>
    obtain ⟨k, v⟩ := c
    rw [wfFrom_cons] at h ⊢
    exact ⟨by omega, h.2⟩

/-- Below the first address that a canonical memory may list, nothing is listed. -/
theorem listed_below {m : Memory} : ∀ {lo a : Nat}, Memory.wfFrom lo m = true → a < lo → m.listed a = none := by
  induction m with
  | nil => intros; rfl
  | cons c m ih =>
    obtain ⟨k, v⟩ := c
    intro lo a h ha
    rw [wfFrom_cons] at h
    rw [listed_cons, if_neg (by omega)]
    exact ih h.2.2 (by omega)

theorem wfFrom_writeByte {m : Memory} : ∀ {lo a : Nat} {v : Byte}, Memory.wfFrom lo m = true → lo ≤ a →
    a < 2 ^ 32 → Memory.wfFrom lo (m.writeByte a v) = true := by
  induction m with
  | nil => intro lo a v _ hlo ha; exact wfFrom_cons.2 ⟨hlo, ha, rfl⟩
  | cons c m ih =>
    obtain ⟨k, w⟩ := c
    intro lo a v h hlo ha
    have h' := wfFrom_cons.1 h
    simp only [Memory.writeByte]
    split
    · next hak => exact wfFrom_cons.2 ⟨hlo, ha, wfFrom_cons.2 ⟨by omega, h'.2⟩⟩
    · split
      · next _ hak => subst hak; exact wfFrom_cons.2 ⟨hlo, ha, h'.2.2⟩
      · next h1 h2 => exact wfFrom_cons.2 ⟨h'.1, h'.2.1, ih h'.2.2 (by omega) ha⟩

/-- What a byte write does to what is listed at every address. -/
theorem listed_writeByte (m : Memory) (a b : Nat) (v : Byte) :
    (m.writeByte a v).listed b = if a = b then some v else m.listed b := by
  induction m with
  | nil => rfl
  | cons c m ih =>
    obtain ⟨k, w⟩ := c
    simp only [Memory.writeByte]
    split
    · rfl
    · split
      · next _ hak => subst hak; rw [listed_cons, listed_cons]; split <;> rfl
      · next h1 h2 =>
        rw [listed_cons, listed_cons, ih]
        split
        · next hkb => rw [if_neg (by omega)]
        · rfl

/-- What a byte write does to every byte. -/
theorem readByte_writeByte (m : Memory) (a b : Nat) (v : Byte) :
    (m.writeByte a v).readByte b = if a = b then v else m.readByte b := by
  simp only [Memory.readByte, listed_writeByte]
  split <;> rfl

/-- Two canonical memories that list the same bytes are equal data. -/
theorem memory_ext_from {m : Memory} : ∀ {lo : Nat} {m' : Memory}, Memory.wfFrom lo m = true →
    Memory.wfFrom lo m' = true → (∀ a, m.listed a = m'.listed a) → m = m' := by
  induction m with
  | nil =>
    intro lo m' _ _ heq
    cases m' with
    | nil => rfl
    | cons c m' => have := heq c.1; simp [Memory.listed] at this
  | cons c m ih =>
    obtain ⟨k, v⟩ := c
    intro lo m' h h' heq
    have hw := wfFrom_cons.1 h
    cases m' with
    | nil => have := heq k; simp [Memory.listed] at this
    | cons c' m' =>
      obtain ⟨k', v'⟩ := c'
      have hw' := wfFrom_cons.1 h'
      have hk : k = k' := by
        rcases Nat.lt_trichotomy k k' with hlt | heq' | hgt
        · have := heq k
          rw [listed_cons, if_pos rfl, listed_below (lo := k') (wfFrom_cons.2 ⟨le_refl _, hw'.2⟩) hlt] at this
          cases this
        · exact heq'
        · have := heq k'
          rw [listed_below (lo := k) (wfFrom_cons.2 ⟨le_refl _, hw.2⟩) hgt, listed_cons, if_pos rfl] at this
          cases this
      subst hk
      have hv : v = v' := by simpa [listed_cons] using heq k
      subst hv
      have : m = m' := by
        refine ih hw.2.2 hw'.2.2 (fun a => ?_)
        by_cases ha : k = a
        · subst ha
          rw [listed_below hw.2.2 (by omega), listed_below hw'.2.2 (by omega)]
        · simpa [listed_cons, ha] using heq a
      rw [this]

/-! ## The canonical form -/

theorem wf_writeByte {m : Memory} (h : m.wf = true) {a : Nat} (ha : a < 2 ^ 32) (v : Byte) :
    (m.writeByte a v).wf = true := wfFrom_writeByte h (Nat.zero_le a) ha

theorem memory_ext {m m' : Memory} (h : m.wf = true) (h' : m'.wf = true)
    (heq : ∀ a, m.listed a = m'.listed a) : m = m' := memory_ext_from h h' heq

@[simp] theorem wf_nil : Memory.wf [] = true := rfl

/-- Every word write keeps the canonical form. -/
theorem wf_writeWord {m : Memory} (h : m.wf = true) (w : WordAddr) (v : Word) : (m.writeWord w v).wf = true := by
  have hw : w.toNat < 2 ^ 30 := w.isLt
  unfold Memory.writeWord
  exact wf_writeByte (wf_writeByte (wf_writeByte (wf_writeByte h (by omega) _) (by omega) _) (by omega) _)
    (by omega) _

theorem wf_writeWords {m : Memory} (h : m.wf = true) (l : List (WordAddr × Word)) : (m.writeWords l).wf = true := by
  induction l generalizing m with
  | nil => exact h
  | cons c l ih => exact ih (wf_writeWord h c.1 c.2)

/-- What zero bytes list. -/
theorem listed_zeroBytes (n a b : Nat) :
    Memory.listed (zeroBytes n a) b = if a ≤ b ∧ b < a + n then some 0#8 else none := by
  induction n generalizing a with
  | zero => rw [if_neg (by omega)]; rfl
  | succ n ih =>
    rw [zeroBytes, listed_cons, ih]
    by_cases h : a = b
    · rw [if_pos h, if_pos (by omega)]
    · rw [if_neg h]
      by_cases hb : a + 1 ≤ b ∧ b < a + 1 + n
      · rw [if_pos hb, if_pos (by omega)]
      · rw [if_neg hb, if_neg (by omega)]

theorem wfFrom_zeroBytes {n lo a : Nat} (hlo : lo ≤ a) (ha : a + n ≤ 2 ^ 32) :
    Memory.wfFrom lo (zeroBytes n a) = true := by
  induction n generalizing lo a with
  | zero => rfl
  | succ n ih => exact wfFrom_cons.2 ⟨hlo, by omega, ih (by omega) (by omega)⟩

/-- Memory after reset is canonical. -/
theorem wf_reset : State.reset.mem.wf = true := wfFrom_zeroBytes (Nat.zero_le _) (by decide)

/-! ## Words of memory -/

/-- What a word write does to what is listed: its four bytes are, and every other address is left alone. -/
theorem listed_writeWord (m : Memory) (w : WordAddr) (v : Word) (a : Nat) :
    (m.writeWord w v).listed a = if a / 4 = w.toNat then some (byteOfWord v (a % 4)) else m.listed a := by
  unfold Memory.writeWord
  rw [listed_writeByte, listed_writeByte, listed_writeByte, listed_writeByte]
  by_cases hq : a / 4 = w.toNat
  · rw [if_pos hq]
    have hr : a % 4 = 0 ∨ a % 4 = 1 ∨ a % 4 = 2 ∨ a % 4 = 3 := by omega
    rcases hr with hr | hr | hr | hr <;> rw [hr]
    · rw [if_neg (by omega), if_neg (by omega), if_neg (by omega), if_pos (by omega)]
    · rw [if_neg (by omega), if_neg (by omega), if_pos (by omega)]
    · rw [if_neg (by omega), if_pos (by omega)]
    · rw [if_pos (by omega)]
  · rw [if_neg hq, if_neg (by omega), if_neg (by omega), if_neg (by omega), if_neg (by omega)]

/-- What a word write does to every byte: the four bytes of its word take the bytes of the value, and every other
byte is left alone (20_memory.md R62, R64). -/
theorem readByte_writeWord (m : Memory) (w : WordAddr) (v : Word) (a : Nat) :
    (m.writeWord w v).readByte a = if a / 4 = w.toNat then byteOfWord v (a % 4) else m.readByte a := by
  simp only [Memory.readByte, listed_writeWord]
  split <;> rfl

/-- A read after a write to the same word gives the value written (20_memory.md R70). -/
theorem readWord_writeWord_same (m : Memory) (w : WordAddr) (v : Word) :
    (m.writeWord w v).readWord w = v := by
  unfold Memory.readWord
  rw [readByte_writeWord, readByte_writeWord, readByte_writeWord, readByte_writeWord,
    if_pos (by omega), if_pos (by omega), if_pos (by omega), if_pos (by omega)]
  have e0 : 4 * w.toNat % 4 = 0 := by omega
  have e1 : (4 * w.toNat + 1) % 4 = 1 := by omega
  have e2 : (4 * w.toNat + 2) % 4 = 2 := by omega
  have e3 : (4 * w.toNat + 3) % 4 = 3 := by omega
  rw [e0, e1, e2, e3, wordOfBytes_byteOfWord]

/-- A write leaves every other word alone (20_memory.md R70). -/
theorem readWord_writeWord_ne (m : Memory) {w w' : WordAddr} (hne : w' ≠ w) (v : Word) :
    (m.writeWord w v).readWord w' = m.readWord w' := by
  have hn : w'.toNat ≠ w.toNat := fun e => hne (BitVec.eq_of_toNat_eq e)
  unfold Memory.readWord
  rw [readByte_writeWord, readByte_writeWord, readByte_writeWord, readByte_writeWord,
    if_neg (by omega), if_neg (by omega), if_neg (by omega), if_neg (by omega)]

/-- A byte of memory is a byte of its word (20_memory.md R64). -/
theorem byteOfWord_readWord (m : Memory) (w : WordAddr) {k : Nat} (hk : k < 4) :
    byteOfWord (m.readWord w) k = m.readByte (4 * w.toNat + k) := by
  unfold Memory.readWord
  have hr : k = 0 ∨ k = 1 ∨ k = 2 ∨ k = 3 := by omega
  rcases hr with rfl | rfl | rfl | rfl
  · exact byteOfWord_wordOfBytes_0 ..
  · exact byteOfWord_wordOfBytes_1 ..
  · exact byteOfWord_wordOfBytes_2 ..
  · exact byteOfWord_wordOfBytes_3 ..

end Sys2Proof.Machine
end

