-- ==== Sys2Proof/Laws/State.lean ====
section
/-! SUPPORT. The fields of a state after each update, one lemma per field per update, and the register slots and
permissions that the updates of memory and pc leave alone. -/

namespace Sys2Proof.Machine

/-! ## `setPc` -/

@[simp] theorem setPc_pc (s : State) (target : Word) : (s.setPc target).pc = target := rfl
@[simp] theorem setPc_istate (s : State) (target : Word) : (s.setPc target).istate = s.istate := rfl
@[simp] theorem setPc_mode (s : State) (target : Word) : (s.setPc target).mode = s.mode := rfl
@[simp] theorem setPc_mem (s : State) (target : Word) : (s.setPc target).mem = s.mem := rfl
@[simp] theorem setPc_cycle (s : State) (target : Word) : (s.setPc target).cycle = s.cycle := rfl
@[simp] theorem setPc_params (s : State) (target : Word) : (s.setPc target).params = s.params := rfl
@[simp] theorem setPc_control (s : State) (target : Word) : (s.setPc target).control = s.control := rfl

/-! ## `tick` -/

@[simp] theorem tick_pc (s : State) : (s.tick).pc = s.pc := rfl
@[simp] theorem tick_istate (s : State) : (s.tick).istate = s.istate := rfl
@[simp] theorem tick_mode (s : State) : (s.tick).mode = s.mode := rfl
@[simp] theorem tick_mem (s : State) : (s.tick).mem = s.mem := rfl
@[simp] theorem tick_cycle (s : State) : (s.tick).cycle = s.cycle + 1 := rfl
@[simp] theorem tick_params (s : State) : (s.tick).params = s.params := rfl
@[simp] theorem tick_control (s : State) : (s.tick).control = s.control := rfl

/-! ## `writeReg` -/

@[simp] theorem writeReg_pc (s : State) (rd : RegNum) (v : Word) : (s.writeReg rd v).pc = s.pc := rfl
@[simp] theorem writeReg_istate (s : State) (rd : RegNum) (v : Word) :
    (s.writeReg rd v).istate = s.istate := rfl
@[simp] theorem writeReg_mode (s : State) (rd : RegNum) (v : Word) : (s.writeReg rd v).mode = s.mode := rfl
@[simp] theorem writeReg_mem (s : State) (rd : RegNum) (v : Word) :
    (s.writeReg rd v).mem = s.mem.writeWord (s.slot rd) (if rd = 0#5 then 0#32 else v) := rfl
@[simp] theorem writeReg_cycle (s : State) (rd : RegNum) (v : Word) : (s.writeReg rd v).cycle = s.cycle := rfl
@[simp] theorem writeReg_params (s : State) (rd : RegNum) (v : Word) :
    (s.writeReg rd v).params = s.params := rfl
@[simp] theorem writeReg_control (s : State) (rd : RegNum) (v : Word) :
    (s.writeReg rd v).control = s.control := rfl

/-! ## `store` -/

@[simp] theorem store_pc (s : State) (size : AccessSize) (addr data : Word) :
    (s.store size addr data).pc = s.pc := rfl
@[simp] theorem store_istate (s : State) (size : AccessSize) (addr data : Word) :
    (s.store size addr data).istate = s.istate := rfl
@[simp] theorem store_mode (s : State) (size : AccessSize) (addr data : Word) :
    (s.store size addr data).mode = s.mode := rfl
@[simp] theorem store_mem (s : State) (size : AccessSize) (addr data : Word) :
    (s.store size addr data).mem =
      s.mem.writeWord (wordAddrOf addr)
        (merge (s.mem.readWord (wordAddrOf addr)) data (laneOf addr) size) := rfl
@[simp] theorem store_cycle (s : State) (size : AccessSize) (addr data : Word) :
    (s.store size addr data).cycle = s.cycle := rfl
@[simp] theorem store_params (s : State) (size : AccessSize) (addr data : Word) :
    (s.store size addr data).params = s.params := rfl
@[simp] theorem store_control (s : State) (size : AccessSize) (addr data : Word) :
    (s.store size addr data).control = s.control := rfl

/-! ## `placeWord` -/

@[simp] theorem placeWord_pc (s : State) (word : Word) : (s.placeWord word).pc = s.pc := rfl
@[simp] theorem placeWord_istate (s : State) (word : Word) : (s.placeWord word).istate = s.istate := rfl
@[simp] theorem placeWord_mode (s : State) (word : Word) : (s.placeWord word).mode = s.mode := rfl
@[simp] theorem placeWord_mem (s : State) (word : Word) :
    (s.placeWord word).mem = s.mem.writeWord (wordAddrOf s.pc) word := rfl
@[simp] theorem placeWord_cycle (s : State) (word : Word) : (s.placeWord word).cycle = s.cycle := rfl
@[simp] theorem placeWord_params (s : State) (word : Word) : (s.placeWord word).params = s.params := rfl
@[simp] theorem placeWord_control (s : State) (word : Word) : (s.placeWord word).control = s.control := rfl

/-! ## `retire` -/

@[simp] theorem retire_pc (s : State) (rd : RegNum) (v : Word) : (s.retire rd v).pc = s.pcPlus4 := rfl
@[simp] theorem retire_istate (s : State) (rd : RegNum) (v : Word) : (s.retire rd v).istate = s.istate := rfl
@[simp] theorem retire_mode (s : State) (rd : RegNum) (v : Word) : (s.retire rd v).mode = s.mode := rfl
@[simp] theorem retire_mem (s : State) (rd : RegNum) (v : Word) :
    (s.retire rd v).mem = (s.writeReg rd v).mem := rfl
@[simp] theorem retire_cycle (s : State) (rd : RegNum) (v : Word) : (s.retire rd v).cycle = s.cycle := rfl
@[simp] theorem retire_params (s : State) (rd : RegNum) (v : Word) : (s.retire rd v).params = s.params := rfl
@[simp] theorem retire_control (s : State) (rd : RegNum) (v : Word) : (s.retire rd v).control = s.control := rfl

/-! ## `branch` -/

@[simp] theorem branch_pc (s : State) (cond : Bool) (offset : BitVec 13) :
    (s.branch cond offset).pc = if cond then s.relTarget offset else s.pcPlus4 := rfl
@[simp] theorem branch_istate (s : State) (cond : Bool) (offset : BitVec 13) :
    (s.branch cond offset).istate = s.istate := rfl
@[simp] theorem branch_mode (s : State) (cond : Bool) (offset : BitVec 13) :
    (s.branch cond offset).mode = s.mode := rfl
@[simp] theorem branch_mem (s : State) (cond : Bool) (offset : BitVec 13) :
    (s.branch cond offset).mem = s.mem := rfl
@[simp] theorem branch_cycle (s : State) (cond : Bool) (offset : BitVec 13) :
    (s.branch cond offset).cycle = s.cycle := rfl
@[simp] theorem branch_params (s : State) (cond : Bool) (offset : BitVec 13) :
    (s.branch cond offset).params = s.params := rfl
@[simp] theorem branch_control (s : State) (cond : Bool) (offset : BitVec 13) :
    (s.branch cond offset).control = s.control := rfl

/-! ## `jump` -/

@[simp] theorem jump_pc (s : State) (rd : RegNum) (target : Word) : (s.jump rd target).pc = target := rfl
@[simp] theorem jump_istate (s : State) (rd : RegNum) (target : Word) :
    (s.jump rd target).istate = s.istate := rfl
@[simp] theorem jump_mode (s : State) (rd : RegNum) (target : Word) : (s.jump rd target).mode = s.mode := rfl
@[simp] theorem jump_mem (s : State) (rd : RegNum) (target : Word) :
    (s.jump rd target).mem = (s.writeReg rd s.pcPlus4).mem := rfl
@[simp] theorem jump_cycle (s : State) (rd : RegNum) (target : Word) : (s.jump rd target).cycle = s.cycle := rfl
@[simp] theorem jump_params (s : State) (rd : RegNum) (target : Word) :
    (s.jump rd target).params = s.params := rfl
@[simp] theorem jump_control (s : State) (rd : RegNum) (target : Word) :
    (s.jump rd target).control = s.control := rfl

/-! ## `applyControl` -/

@[simp] theorem applyControl_pc (s : State) (r : ControlResult) : (s.applyControl r).pc = r.newPc := rfl
@[simp] theorem applyControl_istate (s : State) (r : ControlResult) :
    (s.applyControl r).istate = r.newState := rfl
@[simp] theorem applyControl_mode (s : State) (r : ControlResult) : (s.applyControl r).mode = r.newMode := rfl
@[simp] theorem applyControl_mem (s : State) (r : ControlResult) :
    (s.applyControl r).mem = s.mem.writeWords r.writes := rfl
@[simp] theorem applyControl_cycle (s : State) (r : ControlResult) : (s.applyControl r).cycle = s.cycle := rfl
@[simp] theorem applyControl_params (s : State) (r : ControlResult) :
    (s.applyControl r).params = s.params := rfl
@[simp] theorem applyControl_control (s : State) (r : ControlResult) :
    (s.applyControl r).control = s.control := rfl

/-! ## Slots, permissions and reads under updates -/

@[simp] theorem setPc_slot (s : State) (target : Word) (r : RegNum) : (s.setPc target).slot r = s.slot r := rfl
@[simp] theorem setPc_addrOk (s : State) (target : Word) (kind : AccessKind) (w : WordAddr) :
    (s.setPc target).addrOk kind w = s.addrOk kind w := rfl
@[simp] theorem tick_slot (s : State) (r : RegNum) : (s.tick).slot r = s.slot r := rfl
@[simp] theorem tick_addrOk (s : State) (kind : AccessKind) (w : WordAddr) :
    (s.tick).addrOk kind w = s.addrOk kind w := rfl
@[simp] theorem writeReg_slot (s : State) (rd : RegNum) (v : Word) (r : RegNum) : (s.writeReg rd v).slot r = s.slot r := rfl
@[simp] theorem writeReg_addrOk (s : State) (rd : RegNum) (v : Word) (kind : AccessKind) (w : WordAddr) :
    (s.writeReg rd v).addrOk kind w = s.addrOk kind w := rfl
@[simp] theorem store_slot (s : State) (size : AccessSize) (addr data : Word) (r : RegNum) : (s.store size addr data).slot r = s.slot r := rfl
@[simp] theorem store_addrOk (s : State) (size : AccessSize) (addr data : Word) (kind : AccessKind) (w : WordAddr) :
    (s.store size addr data).addrOk kind w = s.addrOk kind w := rfl
@[simp] theorem placeWord_slot (s : State) (word : Word) (r : RegNum) : (s.placeWord word).slot r = s.slot r := rfl
@[simp] theorem placeWord_addrOk (s : State) (word : Word) (kind : AccessKind) (w : WordAddr) :
    (s.placeWord word).addrOk kind w = s.addrOk kind w := rfl
@[simp] theorem retire_slot (s : State) (rd : RegNum) (v : Word) (r : RegNum) : (s.retire rd v).slot r = s.slot r := rfl
@[simp] theorem retire_addrOk (s : State) (rd : RegNum) (v : Word) (kind : AccessKind) (w : WordAddr) :
    (s.retire rd v).addrOk kind w = s.addrOk kind w := rfl
@[simp] theorem branch_slot (s : State) (cond : Bool) (offset : BitVec 13) (r : RegNum) : (s.branch cond offset).slot r = s.slot r := rfl
@[simp] theorem branch_addrOk (s : State) (cond : Bool) (offset : BitVec 13) (kind : AccessKind) (w : WordAddr) :
    (s.branch cond offset).addrOk kind w = s.addrOk kind w := rfl
@[simp] theorem jump_slot (s : State) (rd : RegNum) (target : Word) (r : RegNum) : (s.jump rd target).slot r = s.slot r := rfl
@[simp] theorem jump_addrOk (s : State) (rd : RegNum) (target : Word) (kind : AccessKind) (w : WordAddr) :
    (s.jump rd target).addrOk kind w = s.addrOk kind w := rfl
@[simp] theorem setPc_readReg (s : State) (target : Word) (r : RegNum) : (s.setPc target).readReg r = s.readReg r := rfl
@[simp] theorem tick_readReg (s : State) (r : RegNum) : (s.tick).readReg r = s.readReg r := rfl
@[simp] theorem branch_readReg (s : State) (cond : Bool) (offset : BitVec 13) (r : RegNum) : (s.branch cond offset).readReg r = s.readReg r := rfl

end Sys2Proof.Machine
end

