-- ==== Sys2Proof/Laws/Ops.lean ====
section
/-! SUPPORT. What each shared operation can do, said once: registers, stores, the checks of an access, the hand-off
to the control subsystem, an instruction and a step. -/

namespace Sys2Proof.Machine

/-! ## Addresses -/

theorem wordAddrOf_toNat (addr : Word) : (wordAddrOf addr).toNat = addr.toNat / 4 := by
  unfold wordAddrOf
  rw [BitVec.extractLsb'_toNat, Nat.shiftRight_eq_div_pow]
  have := addr.isLt
  omega

theorem laneOf_toNat (addr : Word) : (laneOf addr).toNat = addr.toNat % 4 := by
  unfold laneOf
  rw [BitVec.extractLsb'_toNat]
  simp

/-- A byte address is four times its word address plus its lane (40_primitives.md R150). -/
theorem addr_eq_wordAddr_lane (addr : Word) : addr.toNat = 4 * (wordAddrOf addr).toNat + (laneOf addr).toNat := by
  rw [wordAddrOf_toNat, laneOf_toNat]; omega

theorem laneOf_getLsbD_zero (addr : Word) : (laneOf addr).getLsbD 0 = decide (addr.toNat % 2 = 1) := by
  rw [BitVec.getLsbD, laneOf_toNat, Nat.testBit_zero]
  congr 1; apply propext; omega

theorem aligned_iff (size : AccessSize) (addr : Word) : aligned size addr = true ↔ addr.toNat % size.bytes = 0 := by
  cases size with
  | byte => simp [aligned, AccessSize.bytes, Nat.mod_one]
  | half => rw [aligned, laneOf_getLsbD_zero]; simp [AccessSize.bytes]
  | word =>
    simp only [aligned, AccessSize.bytes, beq_iff_eq]
    constructor
    · intro h
      have := laneOf_toNat addr
      rw [h] at this
      exact this.symm
    · intro h
      refine BitVec.eq_of_toNat_eq ?_
      rw [laneOf_toNat, h]; rfl

/-! ## Registers -/

/-- Register slots differ (10_state.md R36). -/
theorem slot_injective (s : State) {r r' : RegNum} (h : s.slot r = s.slot r') : r = r' := by
  have h1 : r.setWidth 30 = r'.setWidth 30 := by
    have := congrArg (fun w => w - Params.regBase s.params s.mode) h
    simpa [State.slot] using this
  have h2 := congrArg BitVec.toNat h1
  simp only [BitVec.toNat_setWidth] at h2
  have := r.isLt
  have := r'.isLt
  exact BitVec.eq_of_toNat_eq (by omega)

@[simp] theorem readReg_zero (s : State) : s.readReg 0#5 = 0#32 := rfl

theorem readReg_of_ne (s : State) {r : RegNum} (h : r ≠ 0#5) : s.readReg r = s.mem.readWord (s.slot r) := if_neg h

theorem wf_writeReg {s : State} (h : s.mem.wf = true) (rd : RegNum) (v : Word) : (s.writeReg rd v).mem.wf = true :=
  wf_writeWord h _ _

theorem wf_retire {s : State} (h : s.mem.wf = true) (rd : RegNum) (v : Word) : (s.retire rd v).mem.wf = true :=
  wf_writeReg h rd v

theorem wf_jump {s : State} (h : s.mem.wf = true) (rd : RegNum) (target : Word) :
    (s.jump rd target).mem.wf = true := wf_writeReg h rd _

theorem wf_store {s : State} (h : s.mem.wf = true) (size : AccessSize) (addr data : Word) :
    (s.store size addr data).mem.wf = true := wf_writeWord h _ _

theorem wf_placeWord {s : State} (h : s.mem.wf = true) (word : Word) : (s.placeWord word).mem.wf = true :=
  wf_writeWord h _ _

theorem wf_applyControl {s : State} (h : s.mem.wf = true) (r : ControlResult) : (s.applyControl r).mem.wf = true :=
  wf_writeWords h _

/-- The slot a register write leaves. -/
theorem readWord_slot_writeReg (s : State) (rd : RegNum) (v : Word) :
    (s.writeReg rd v).mem.readWord (s.slot rd) = if rd = 0#5 then 0#32 else v := readWord_writeWord_same _ _ _

/-- Every register after a register write: rd takes the value, x0 stays 0, the others keep theirs (10_state.md R36,
R37). -/
theorem readReg_writeReg (s : State) (rd r : RegNum) (v : Word) :
    (s.writeReg rd v).readReg r = if r = 0#5 then 0#32 else if r = rd then v else s.readReg r := by
  unfold State.readReg
  split
  · rfl
  · next hr =>
    split
    · next he =>
      subst he
      rw [writeReg_slot, readWord_slot_writeReg, if_neg hr]
    · next he =>
      rw [writeReg_slot, writeReg_mem]
      exact readWord_writeWord_ne _ (fun e => he (slot_injective s e)) _

/-- Every byte after a register write: only the four bytes of the slot change (10_state.md R36). -/
theorem readByte_writeReg (s : State) (rd : RegNum) (v : Word) (a : Nat) :
    (s.writeReg rd v).mem.readByte a =
      if a / 4 = (s.slot rd).toNat then byteOfWord (if rd = 0#5 then 0#32 else v) (a % 4) else s.mem.readByte a :=
  readByte_writeWord _ _ _ a

/-! ## Stores -/

theorem byteOfWord_replaceHalf (old : Word) (hf : Half) (upper : Bool) {k : Nat} (hk : k < 4) :
    byteOfWord (replaceHalf old hf upper) k =
      if k / 2 = upper.toNat then hf.extractLsb' (8 * (k % 2)) 8 else byteOfWord old k := by
  refine BitVec.eq_of_getLsbD_eq fun i hi => ?_
  cases upper <;> interval_cases k <;>
    simp only [byteOfWord, replaceHalf, BitVec.getLsbD_extractLsb', BitVec.getLsbD_cast, BitVec.getLsbD_append,
      if_true, if_false, Bool.toNat, Bool.false_eq_true] <;>
    interval_cases i <;> simp

theorem extractLsb'_mergeHalf (old : Half) (d : Byte) (upper : Bool) {k : Nat} (hk : k < 2) :
    (mergeHalf old d upper).extractLsb' (8 * k) 8 = if k = upper.toNat then d else old.extractLsb' (8 * k) 8 := by
  refine BitVec.eq_of_getLsbD_eq fun i hi => ?_
  cases upper <;> interval_cases k <;>
    simp only [mergeHalf, BitVec.getLsbD_extractLsb', BitVec.getLsbD_cast, BitVec.getLsbD_append,
      if_true, if_false, Bool.toNat, Bool.false_eq_true] <;>
    interval_cases i <;> simp

theorem extractLsb'_halfSel (word : Word) (lane : BitVec 2) {k : Nat} (hk : k < 2) :
    (halfSel word lane).extractLsb' (8 * k) 8 = byteOfWord word (2 * (lane.getLsbD 1).toNat + k) := by
  refine BitVec.eq_of_getLsbD_eq fun i hi => ?_
  unfold halfSel byteOfWord
  cases lane.getLsbD 1 <;> interval_cases k <;>
    simp only [BitVec.getLsbD_extractLsb', if_true, if_false, Bool.toNat, Bool.false_eq_true] <;>
    interval_cases i <;> simp

theorem lane_cases (lane : BitVec 2) : lane = 0#2 ∨ lane = 1#2 ∨ lane = 2#2 ∨ lane = 3#2 := by
  revert lane; decide

/-- The bytes of a merge: those the access names take the data's low bytes, the others the old word's
(47_load_store.md R322). -/
theorem byteOfWord_merge (old data : Word) (lane : BitVec 2) (size : AccessSize) {k : Nat} (hk : k < 4)
    (ha : lane.toNat % size.bytes = 0) :
    byteOfWord (merge old data lane size) k =
      if lane.toNat ≤ k ∧ k < lane.toNat + size.bytes then byteOfWord data (k - lane.toNat)
      else byteOfWord old k := by
  have hh : (data.extractLsb' 0 16).extractLsb' (8 * (k % 2)) 8 = byteOfWord data (k % 2) := by
    refine BitVec.eq_of_getLsbD_eq fun i hi => ?_
    interval_cases k <;> simp only [byteOfWord, BitVec.getLsbD_extractLsb'] <;> interval_cases i <;> simp
  cases size with
  | word =>
    have h0 : lane.toNat = 0 := by have := lane.isLt; simp only [AccessSize.bytes] at ha; omega
    rw [if_pos ⟨by omega, by simp only [AccessSize.bytes]; omega⟩, h0]
    rfl
  | half =>
    simp only [merge, byteOfWord_replaceHalf _ _ _ hk, hh]
    rcases lane_cases lane with h | h | h | h <;> subst h <;> simp [AccessSize.bytes] at ha ⊢ <;>
      interval_cases k <;> simp
  | byte =>
    simp only [merge, byteOfWord_replaceHalf _ _ _ hk, extractLsb'_mergeHalf _ _ _ (Nat.mod_lt k (by decide : 0 < 2)),
      extractLsb'_halfSel _ _ (Nat.mod_lt k (by decide : 0 < 2))]
    rcases lane_cases lane with h | h | h | h <;> subst h <;> simp [AccessSize.bytes] at ha ⊢ <;>
      interval_cases k <;> simp [byteOfWord]

/-- Every byte after a store: the bytes it names take the data's low bytes, every other byte is left alone
(47_load_store.md R322). -/
theorem readByte_store {s : State} {size : AccessSize} {addr : Word}
    (ha : aligned size addr = true) (data : Word) (a : Nat) :
    (s.store size addr data).mem.readByte a =
      if addr.toNat ≤ a ∧ a < addr.toNat + size.bytes then byteOfWord data (a - addr.toNat)
      else s.mem.readByte a := by
  rw [aligned_iff] at ha
  have hb : size.bytes = 1 ∨ size.bytes = 2 ∨ size.bytes = 4 := by cases size <;> simp [AccessSize.bytes]
  have hl := laneOf_toNat addr
  have hs := addr_eq_wordAddr_lane addr
  have hal : (laneOf addr).toNat % size.bytes = 0 := by
    rw [hl]
    rcases hb with e | e | e <;> rw [e] at ha ⊢ <;> omega
  have hlt : (laneOf addr).toNat + size.bytes ≤ 4 := by
    rcases hb with e | e | e <;> rw [e] at ha hal ⊢ <;> omega
  rw [store_mem, readByte_writeWord]
  by_cases hq : a / 4 = (wordAddrOf addr).toNat
  · rw [if_pos hq, byteOfWord_merge _ _ _ _ (Nat.mod_lt a (by decide)) hal,
      byteOfWord_readWord _ _ (Nat.mod_lt a (by decide))]
    have e1 : 4 * (wordAddrOf addr).toNat + a % 4 = a := by omega
    rw [e1]
    by_cases hr : (laneOf addr).toNat ≤ a % 4 ∧ a % 4 < (laneOf addr).toNat + size.bytes
    · rw [if_pos hr, if_pos (by omega)]
      congr 1; omega
    · rw [if_neg hr, if_neg (by omega)]
  · rw [if_neg hq, if_neg (by omega)]

/-- A store leaves every register alone whose slot is another word (47_load_store.md R323, R327). -/
theorem readReg_store_ne {s : State} (size : AccessSize) (addr data : Word) {r : RegNum}
    (hne : s.slot r ≠ wordAddrOf addr) : (s.store size addr data).readReg r = s.readReg r := by
  unfold State.readReg
  split
  · rfl
  · rw [store_slot, store_mem]
    exact readWord_writeWord_ne _ hne _

/-! ## The checks of an access -/

theorem accessViolation_eq_none {s : State} {kind : AccessKind} {size : AccessSize} {addr : Word} :
    s.accessViolation kind size addr = none ↔
      aligned size addr = true ∧ s.addrOk kind (wordAddrOf addr) = true := by
  unfold State.accessViolation
  split <;> [skip; split] <;> simp_all

theorem accessViolation_eq_some {s : State} {kind : AccessKind} {size : AccessSize} {addr : Word} {c : Fault} :
    s.accessViolation kind size addr = some c ↔
      (aligned size addr = false ∧ c = .vMisaligned) ∨
        (aligned size addr = true ∧ s.addrOk kind (wordAddrOf addr) = false ∧ c = .vMem) := by
  unfold State.accessViolation
  split <;> [skip; split] <;> simp_all <;> exact eq_comm

theorem fetchViolation_eq_none {s : State} :
    s.fetchViolation = none ↔
      s.istate = s.params.stateDecode ∧ s.pc.toNat % 4 = 0 ∧ s.addrOk .fetch (wordAddrOf s.pc) = true := by
  have hl : laneOf s.pc = 0#2 ↔ s.pc.toNat % 4 = 0 := by
    rw [← laneOf_toNat, ← BitVec.toNat_inj]; rfl
  unfold State.fetchViolation
  rw [← hl]
  split <;> [skip; split <;> [skip; split]] <;> simp_all

theorem fetchViolation_eq_some {s : State} {c : Fault} :
    s.fetchViolation = some c ↔
      (s.istate ≠ s.params.stateDecode ∧ c = .vState) ∨
        (s.istate = s.params.stateDecode ∧ s.pc.toNat % 4 ≠ 0 ∧ c = .vFetchAlign) ∨
        (s.istate = s.params.stateDecode ∧ s.pc.toNat % 4 = 0 ∧ s.addrOk .fetch (wordAddrOf s.pc) = false ∧ c = .vMem) := by
  have hl : laneOf s.pc = 0#2 ↔ s.pc.toNat % 4 = 0 := by
    rw [← laneOf_toNat, ← BitVec.toNat_inj]; rfl
  unfold State.fetchViolation
  rw [ne_eq (s.pc.toNat % 4), ← hl]
  split <;> [skip; split <;> [skip; split]] <;> simp_all <;> exact eq_comm

/-! ## Loads, stores and the control hand-off -/

/-- Everything a load can answer (47_load_store.md R311, R312, R316). -/
theorem loadFrom_cases (size : AccessSize) (extend : Word → BitVec 2 → Word) (rd rs1 : RegNum) (imm : BitVec 12)
    (s : State) :
    (∃ c, s.accessViolation .load size (s.effAddr rs1 imm) = some c ∧
        loadFrom size extend rd rs1 imm s = .fault c) ∨
      (s.accessViolation .load size (s.effAddr rs1 imm) = none ∧
        loadFrom size extend rd rs1 imm s =
          .next (s.retire rd (extend (s.mem.readWord (wordAddrOf (s.effAddr rs1 imm)))
            (laneOf (s.effAddr rs1 imm))))) := by
  unfold loadFrom
  split
  · next c hc => exact .inl ⟨c, hc, rfl⟩
  · next hc => exact .inr ⟨hc, rfl⟩

/-- Everything a store can answer (47_load_store.md R311, R312, R323). -/
theorem storeTo_cases (size : AccessSize) (rs1 rs2 : RegNum) (imm : BitVec 12) (s : State) :
    (∃ c, s.accessViolation .store size (s.effAddr rs1 imm) = some c ∧
        storeTo size rs1 rs2 imm s = .fault c) ∨
      (s.accessViolation .store size (s.effAddr rs1 imm) = none ∧
        storeTo size rs1 rs2 imm s =
          .next ((s.store size (s.effAddr rs1 imm) (s.readReg rs2)).setPc s.pcPlus4)) := by
  unfold storeTo
  split
  · next c hc => exact .inl ⟨c, hc, rfl⟩
  · next hc => exact .inr ⟨hc, rfl⟩

/-- Everything the control hand-off can answer (48_system.md R340, R341). -/
theorem controlStep_cases (word : Word) (s : State) :
    (s.control = [] ∧ controlStep word s = .refused (.control word s.pc)) ∨
      (∃ rest, s.control = .violation :: rest ∧ controlStep word s = .fault .vControl) ∨
      (∃ r rest, s.control = .result r :: rest ∧
        controlStep word s = .next ({ s with control := rest }.applyControl r)) := by
  unfold controlStep
  split
  · next h => exact .inl ⟨h, rfl⟩
  · next rest h => exact .inr (.inl ⟨rest, h, rfl⟩)
  · next r rest h => exact .inr (.inr ⟨r, rest, h, rfl⟩)

/-! ## Instructions and steps -/

/-- Every next state an instruction can give: one register written and on in sequence, a branch, a jump, a store,
or a result of the control subsystem. -/
theorem exec_next_cases {i : Instr} {s t : State} (h : exec i s = .next t) :
    (∃ rd v, t = s.retire rd v) ∨
      (∃ cond offset, (i.wf = true → evenOffset offset = true) ∧ t = s.branch cond offset) ∨
      (∃ rd target, (i.wf = true → (∃ offset : BitVec 21, evenOffset offset = true ∧ target = s.relTarget offset) ∨
          ∃ v, target = clearBit0 v) ∧ t = s.jump rd target) ∨
      (∃ size addr data, aligned size addr = true ∧ s.addrOk .store (wordAddrOf addr) = true ∧
        t = (s.store size addr data).setPc s.pcPlus4) ∨
      (∃ r rest, s.control = .result r :: rest ∧ t = { s with control := rest }.applyControl r) := by
  have hload : ∀ size extend rd rs1 imm, loadFrom size extend rd rs1 imm s = .next t → ∃ rd v, t = s.retire rd v := by
    intro size extend rd rs1 imm hl
    rcases loadFrom_cases size extend rd rs1 imm s with ⟨c, -, hc⟩ | ⟨-, hc⟩ <;> rw [hc] at hl <;> cases hl
    exact ⟨_, _, rfl⟩
  have hstore : ∀ size rs1 rs2 imm, storeTo size rs1 rs2 imm s = .next t →
      ∃ size addr data, aligned size addr = true ∧ s.addrOk .store (wordAddrOf addr) = true ∧
        t = (s.store size addr data).setPc s.pcPlus4 := by
    intro size rs1 rs2 imm hl
    rcases storeTo_cases size rs1 rs2 imm s with ⟨c, -, hc⟩ | ⟨hn, hc⟩ <;> rw [hc] at hl <;> cases hl
    exact ⟨_, _, _, (accessViolation_eq_none.1 hn).1, (accessViolation_eq_none.1 hn).2, rfl⟩
  have hctl : ∀ word, controlStep word s = .next t →
      ∃ r rest, s.control = .result r :: rest ∧ t = { s with control := rest }.applyControl r := by
    intro word hl
    rcases controlStep_cases word s with ⟨-, hc⟩ | ⟨rest, -, hc⟩ | ⟨r, rest, he, hc⟩ <;> rw [hc] at hl <;> cases hl
    exact ⟨r, rest, he, rfl⟩
  cases i <;> simp only [exec] at h
  case beq | bne | blt | bge | bltu | bgeu => cases h; exact .inr (.inl ⟨_, _, id, rfl⟩)
  case jal => cases h; exact .inr (.inr (.inl ⟨_, _, fun hw => .inl ⟨_, hw, rfl⟩, rfl⟩))
  case jalr => cases h; exact .inr (.inr (.inl ⟨_, _, fun _ => .inr ⟨_, rfl⟩, rfl⟩))
  case lb | lh | lw | lbu | lhu => exact .inl (hload _ _ _ _ _ h)
  case sb | sh | sw => exact .inr (.inr (.inr (.inl (hstore _ _ _ _ h))))
  case ecall | mret => exact .inr (.inr (.inr (.inr (hctl _ h))))
  all_goals cases h; exact .inl ⟨_, _, rfl⟩

/-- Every fault an instruction can give. -/
theorem exec_fault_cases {i : Instr} {s : State} {c : Fault} (h : exec i s = .fault c) :
    c = .vMisaligned ∨ c = .vMem ∨ (c = .vControl ∧ (i = .ecall ∨ i = .mret) ∧ ∃ rest, s.control = .violation :: rest) := by
  have hacc : ∀ kind size addr, s.accessViolation kind size addr = some c → c = .vMisaligned ∨ c = .vMem := by
    intro kind size addr ha
    rcases accessViolation_eq_some.1 ha with ⟨-, hc⟩ | ⟨-, -, hc⟩
    · exact .inl hc
    · exact .inr hc
  have hload : ∀ size extend rd rs1 imm, loadFrom size extend rd rs1 imm s = .fault c → c = .vMisaligned ∨ c = .vMem := by
    intro size extend rd rs1 imm hl
    rcases loadFrom_cases size extend rd rs1 imm s with ⟨d, hd, hc⟩ | ⟨-, hc⟩ <;> rw [hc] at hl <;> cases hl
    exact hacc _ _ _ hd
  have hstore : ∀ size rs1 rs2 imm, storeTo size rs1 rs2 imm s = .fault c → c = .vMisaligned ∨ c = .vMem := by
    intro size rs1 rs2 imm hl
    rcases storeTo_cases size rs1 rs2 imm s with ⟨d, hd, hc⟩ | ⟨-, hc⟩ <;> rw [hc] at hl <;> cases hl
    exact hacc _ _ _ hd
  have hctl : ∀ word, controlStep word s = .fault c → c = .vControl ∧ ∃ rest, s.control = .violation :: rest := by
    intro word hl
    rcases controlStep_cases word s with ⟨-, hc⟩ | ⟨rest, he, hc⟩ | ⟨r, rest, -, hc⟩ <;> rw [hc] at hl <;> cases hl
    exact ⟨rfl, rest, he⟩
  cases i <;> simp only [exec] at h
  case lb | lh | lw | lbu | lhu => exact (hload _ _ _ _ _ h).elim .inl (fun e => .inr (.inl e))
  case sb | sh | sw => exact (hstore _ _ _ _ h).elim .inl (fun e => .inr (.inl e))
  case ecall => exact .inr (.inr ⟨(hctl _ h).1, .inl rfl, (hctl _ h).2⟩)
  case mret => exact .inr (.inr ⟨(hctl _ h).1, .inr rfl, (hctl _ h).2⟩)
  all_goals cases h

/-- Only ECALL and MRET refuse, with the word and the pc, when no answer is pending (48_system.md R341). -/
theorem exec_refused_cases {i : Instr} {s : State} {q : Refusal} (h : exec i s = .refused q) :
    s.control = [] ∧ ((i = .ecall ∧ q = .control 0x00000073#32 s.pc) ∨ (i = .mret ∧ q = .control 0x30200073#32 s.pc)) := by
  have hctl : ∀ word, controlStep word s = .refused q → s.control = [] ∧ q = .control word s.pc := by
    intro word hl
    rcases controlStep_cases word s with ⟨he, hc⟩ | ⟨rest, -, hc⟩ | ⟨r, rest, -, hc⟩ <;> rw [hc] at hl <;> cases hl
    exact ⟨he, rfl⟩
  have hload : ∀ size extend rd rs1 imm, loadFrom size extend rd rs1 imm s ≠ .refused q := by
    intro size extend rd rs1 imm hl
    rcases loadFrom_cases size extend rd rs1 imm s with ⟨d, -, hc⟩ | ⟨-, hc⟩ <;> rw [hc] at hl <;> cases hl
  have hstore : ∀ size rs1 rs2 imm, storeTo size rs1 rs2 imm s ≠ .refused q := by
    intro size rs1 rs2 imm hl
    rcases storeTo_cases size rs1 rs2 imm s with ⟨d, -, hc⟩ | ⟨-, hc⟩ <;> rw [hc] at hl <;> cases hl
  cases i <;> simp only [exec] at h
  case lb | lh | lw | lbu | lhu => exact absurd h (hload _ _ _ _ _)
  case sb | sh | sw => exact absurd h (hstore _ _ _ _)
  case ecall => exact ⟨(hctl _ h).1, .inl ⟨rfl, (hctl _ h).2⟩⟩
  case mret => exact ⟨(hctl _ h).1, .inr ⟨rfl, (hctl _ h).2⟩⟩
  all_goals cases h

/-- Decoding the bytes of a word is decoding the word. -/
theorem decode_bytesOfWord (w : Word) :
    decode (bytesOfWord w) = (match decodeWord w with | .ok i => .ok (i, []) | .error e => .error e) := by
  simp only [decode, bytesOfWord, wordOfBytes_byteOfWord] <;> (cases decodeWord w <;> rfl)

theorem fetchBytes_eq (s : State) : s.fetchBytes = bytesOfWord s.fetchWord := rfl

/-- Everything a step can do: a check of the cycle fails, the word is illegal, or the instruction's outcome ends the
cycle (10_state.md R45; 60_exceptions.md R362). -/
theorem step_cases (s : State) :
    (∃ c, s.fetchViolation = some c ∧ step s = .fault c) ∨
      (s.fetchViolation = none ∧ (∃ e, decodeWord s.fetchWord = .error e) ∧ step s = .fault .vIllegal) ∨
      (∃ i, s.fetchViolation = none ∧ decodeWord s.fetchWord = .ok i ∧ step s = endCycle (exec i s)) := by
  unfold step
  rw [fetchBytes_eq, decode_bytesOfWord]
  split
  · next c hc => exact .inl ⟨c, hc, rfl⟩
  · next hc =>
    cases hd : decodeWord s.fetchWord with
    | ok i => exact .inr (.inr ⟨i, hc, rfl, rfl⟩)
    | error e => exact .inr (.inl ⟨hc, ⟨e, rfl⟩, rfl⟩)

/-- A step with a next state ran a decoded instruction that has one. -/
theorem step_next_cases {s t : State} (h : step s = .next t) :
    ∃ i u, s.fetchViolation = none ∧ decodeWord s.fetchWord = .ok i ∧ exec i s = .next u ∧ t = u.tick := by
  rcases step_cases s with ⟨c, -, hc⟩ | ⟨-, -, hc⟩ | ⟨i, hf, hd, hc⟩ <;> rw [hc] at h
  · cases h
  · cases h
  · cases he : exec i s with
    | next u => rw [he] at h; cases h; exact ⟨i, u, hf, hd, he, rfl⟩
    | fault f => rw [he] at h; cases h
    | refused q => rw [he] at h; cases h

end Sys2Proof.Machine
end

