-- ==== Sys2Proof/Laws/Words.lean ====
section
/-! SUPPORT. The claims' notation on words against the bit-vector operations of the meanings, and the bytes that the
lane selections read. -/

namespace Sys2Proof.Safety

open Sys2Proof.Machine

/-! ## Readings of words -/

theorem unsigned_nonneg (v : Word) : 0 ≤ unsigned v := Int.natCast_nonneg _

theorem unsigned_lt (v : Word) : unsigned v < 2 ^ 32 := by
  have := v.isLt
  unfold unsigned; omega

theorem sextInt_eq_toInt {n : Nat} (v : BitVec n) : sextInt v = v.toInt := by
  unfold sextInt
  have h := v.toInt_eq_msb_cond
  rw [BitVec.msb_eq_getLsbD_last] at h
  rw [h]
  split <;> push_cast <;> omega

theorem signed_eq_toInt (v : Word) : signed v = v.toInt := sextInt_eq_toInt v

/-- Congruent integers have one u32 (00_scope.md R9). -/
theorem u32_eq_iff (i j : Int) : u32 i = u32 j ↔ i % 2 ^ 32 = j % 2 ^ 32 := by
  unfold u32
  rw [← BitVec.toNat_inj, BitVec.toNat_ofInt, BitVec.toNat_ofInt]
  have h1 := Int.emod_nonneg i (by decide : (2 ^ 32 : Int) ≠ 0)
  have h2 := Int.emod_nonneg j (by decide : (2 ^ 32 : Int) ≠ 0)
  push_cast
  omega

@[simp] theorem u32_unsigned (v : Word) : u32 (unsigned v) = v := by
  unfold u32 unsigned
  rw [BitVec.ofInt_natCast, BitVec.ofNat_toNat, BitVec.setWidth_eq]

theorem toNat_u32 (i : Int) : ((u32 i).toNat : Int) = i % 2 ^ 32 := by
  unfold u32
  rw [BitVec.toNat_ofInt]
  have h1 := Int.emod_nonneg i (by decide : (2 ^ 32 : Int) ≠ 0)
  push_cast
  omega

theorem unsigned_u32 (i : Int) : unsigned (u32 i) = i % 2 ^ 32 := toNat_u32 i

theorem u32_add (i j : Int) : u32 (i + j) = u32 i + u32 j := BitVec.ofInt_add ..

theorem u32_mul (i j : Int) : u32 (i * j) = u32 i * u32 j := BitVec.ofInt_mul ..

theorem u32_sub (i j : Int) : u32 (i - j) = u32 i - u32 j := by
  have h := u32_add (i - j) j
  rw [Int.sub_add_cancel] at h
  rw [h, BitVec.add_sub_cancel]

theorem u32_toInt (v : Word) : u32 v.toInt = v := BitVec.ofInt_toInt ..

/-- Sign extension (00_scope.md R9). -/
theorem u32_sextInt {n : Nat} (v : BitVec n) : u32 (sextInt v) = v.signExtend 32 := by
  rw [sextInt_eq_toInt]; rfl

/-- `u32(pc + 4)` (10_state.md R39). -/
theorem u32_pc_add_four (s : State) : u32 (unsigned s.pc + 4) = s.pcPlus4 := by
  rw [u32_add, u32_unsigned]; rfl

/-- The effective address (47_load_store.md R310). -/
theorem effAddr_eq_u32 (s : State) (rs1 : RegNum) (imm : BitVec 12) :
    s.effAddr rs1 imm = u32 (unsigned (s.readReg rs1) + sextInt imm) := by
  rw [u32_add, u32_unsigned, u32_sextInt]; rfl

/-- A relative target (46_control_transfer.md R291). -/
theorem relTarget_eq_u32 {n : Nat} (s : State) (offset : BitVec n) :
    s.relTarget offset = u32 (unsigned s.pc + sextInt offset) := by
  rw [u32_add, u32_unsigned, u32_sextInt]; rfl

/-- A word with bit 0 cleared (40_primitives.md R151). -/
theorem clearBit0_toNat (v : Word) : (clearBit0 v).toNat = v.toNat - v.toNat % 2 := by
  have h : clearBit0 v = BitVec.cast (by decide : 31 + 1 = 32) (v.extractLsb' 1 31 ++ 0#1) := by
    refine BitVec.eq_of_getLsbD_eq fun i hi => ?_
    simp only [clearBit0, BitVec.getLsbD_and, BitVec.getLsbD_cast, BitVec.getLsbD_append,
      BitVec.getLsbD_extractLsb']
    interval_cases i <;> simp
  rw [h, BitVec.toNat_cast, BitVec.toNat_append, BitVec.extractLsb'_toNat]
  have := v.isLt
  simp only [BitVec.toNat_ofNat, Nat.shiftLeft_eq, Nat.shiftRight_eq_div_pow]
  norm_num
  omega

theorem upperWord_toNat (imm : BitVec 20) : (upperWord imm).toNat = imm.toNat * 2 ^ 12 := by
  unfold upperWord
  rw [BitVec.toNat_cast, BitVec.toNat_append]
  simp [Nat.shiftLeft_eq]

/-! ## Register writes -/

/-- What retiring a computed value does. -/
theorem writesReg_retire (s : State) (rd : RegNum) (v : Word) :
    WritesReg s (s.retire rd v) rd v (u32 (unsigned s.pc + 4)) where
  pc := (u32_pc_add_four s).symm
  rest := ⟨rfl, rfl, rfl, rfl, rfl⟩
  dest := by
    have := readReg_writeReg s rd rd v
    rw [if_pos rfl] at this
    exact this
  slot := readWord_slot_writeReg s rd v
  others := fun r hr => by
    have := readReg_writeReg s rd r v
    rw [if_neg hr] at this
    exact this.trans (by split <;> simp_all [State.readReg])
  bytes := fun a ha => by
    have := readByte_writeReg s rd v a
    rw [if_neg ha] at this
    exact this

/-- What a jump does. -/
theorem writesReg_jump (s : State) (rd : RegNum) (target : Word) :
    WritesReg s (s.jump rd target) rd s.pcPlus4 target :=
  let r := writesReg_retire s rd s.pcPlus4
  { pc := rfl, rest := ⟨rfl, rfl, rfl, rfl, rfl⟩, dest := r.dest, slot := r.slot, others := r.others,
    bytes := r.bytes }

/-- What an aligned store does. -/
theorem storesBytes_store {s : State} {size : AccessSize} {addr : Word}
    (ha : aligned size addr = true) (data : Word) :
    StoresBytes s ((s.store size addr data).setPc s.pcPlus4) size addr data where
  pc := (u32_pc_add_four s).symm
  rest := ⟨rfl, rfl, rfl, rfl, rfl⟩
  stored := fun k hk => by
    have := readByte_store (s := s) ha data (addr.toNat + k)
    rw [if_pos (by omega)] at this
    exact this.trans (by congr 1; omega)
  bytes := fun a hb => by
    have := readByte_store (s := s) ha data a
    rw [if_neg (by omega)] at this
    exact this
  regs := fun _ hr => readReg_store_ne size addr data hr

/-! ## Bytes that a load reads -/

/-- The byte at a lane of a word of memory (47_load_store.md R314). -/
theorem byteSel_readWord (m : Memory) (addr : Word) :
    byteSel (m.readWord (wordAddrOf addr)) (laneOf addr) = m.readByte addr.toNat := by
  unfold byteSel
  rw [byteOfWord_readWord _ _ (laneOf addr).isLt, ← addr_eq_wordAddr_lane]

theorem toNat_of_bytes (w : Word) :
    w.toNat = (byteOfWord w 0).toNat + 256 * (byteOfWord w 1).toNat + 65536 * (byteOfWord w 2).toNat
      + 16777216 * (byteOfWord w 3).toNat := by
  simp only [byteOfWord, BitVec.extractLsb'_toNat, Nat.shiftRight_eq_div_pow]
  have := w.isLt
  norm_num
  omega

theorem toNat_of_halfBytes (h : Half) :
    h.toNat = (h.extractLsb' (8 * 0) 8).toNat + 256 * (h.extractLsb' (8 * 1) 8).toNat := by
  simp only [BitVec.extractLsb'_toNat, Nat.shiftRight_eq_div_pow]
  have := h.isLt
  norm_num
  omega

/-- The halfword at an even address (47_load_store.md R313). -/
theorem halfSel_readWord (m : Memory) {addr : Word} (ha : addr.toNat % 2 = 0) :
    (halfSel (m.readWord (wordAddrOf addr)) (laneOf addr)).toNat = memRead m addr.toNat 2 := by
  have hb : 2 * ((laneOf addr).getLsbD 1).toNat = (laneOf addr).toNat := by
    have h0 : (laneOf addr).toNat % 2 = 0 := by rw [laneOf_toNat]; omega
    rcases lane_cases (laneOf addr) with h | h | h | h <;> rw [h] at h0 ⊢ <;> simp at h0 ⊢
  have hs := addr_eq_wordAddr_lane addr
  have hl : (laneOf addr).toNat + 1 < 4 := by rw [laneOf_toNat]; omega
  rw [toNat_of_halfBytes, extractLsb'_halfSel _ _ (by decide), extractLsb'_halfSel _ _ (by decide), hb,
    byteOfWord_readWord _ _ (by omega), byteOfWord_readWord _ _ (by omega)]
  simp only [memRead, Nat.mul_zero, Nat.add_zero]
  have e1 : 4 * (wordAddrOf addr).toNat + (laneOf addr).toNat = addr.toNat := hs.symm
  have e2 : 4 * (wordAddrOf addr).toNat + ((laneOf addr).toNat + 1) = addr.toNat + 1 := by omega
  rw [e1, e2]

/-- The word at an aligned address (20_memory.md R64). -/
theorem readWord_aligned (m : Memory) {addr : Word} (ha : addr.toNat % 4 = 0) :
    (m.readWord (wordAddrOf addr)).toNat = memRead m addr.toNat 4 := by
  have hs : 4 * (wordAddrOf addr).toNat = addr.toNat := by
    rw [wordAddrOf_toNat]; omega
  rw [toNat_of_bytes, byteOfWord_readWord _ _ (by decide), byteOfWord_readWord _ _ (by decide),
    byteOfWord_readWord _ _ (by decide), byteOfWord_readWord _ _ (by decide), hs]
  simp only [memRead, Nat.add_assoc, Nat.reduceAdd, Nat.add_zero]
  omega

end Sys2Proof.Safety
end

