-- ==== Sys2Proof/Laws/Circuit.lean ====
section
/-! SUPPORT. Rules for reasoning about a row of the constraint layer: one pair of rules per cell, constraint and
sequence, of which the first collects what every satisfying witness must meet and the second runs the honest
witness. -/

namespace Sys2Proof.Safety

open Sys2Proof.Machine Sys2Proof.Circuit

variable {α β : Type}

/-! ## Sequences -/

theorem bind_eq_ok {m : RowM α} {f : α → RowM β} {st st' : RowState} {b : β} :
    (m >>= f) st = .ok (b, st') ↔ ∃ a st1, m st = .ok (a, st1) ∧ f a st1 = .ok (b, st') := by
  show (m st >>= fun x => f x.1 x.2) = .ok (b, st') ↔ _
  cases m st with
  | error e => simp [bind, Except.bind]
  | ok x => obtain ⟨a, st1⟩ := x; simp [bind, Except.bind]

theorem bind_ok {m : RowM α} {f : α → RowM β} {st st1 : RowState} {a : α} (h : m st = .ok (a, st1)) :
    (m >>= f) st = f a st1 := by
  show (m st >>= fun x => f x.1 x.2) = _
  rw [h]; rfl

theorem bind_error {m : RowM α} {f : α → RowM β} {st : RowState} {c : Fault} (h : m st = .error c) :
    (m >>= f) st = .error c := by
  show (m st >>= fun x => f x.1 x.2) = _
  rw [h]; rfl

theorem everySatisfying_bind {m : RowM α} {f : α → RowM β} {P : β → Prop}
    (h : EverySatisfying m (fun a => EverySatisfying (f a) P)) : EverySatisfying (m >>= f) P := by
  intro st r st' hr
  obtain ⟨a, st1, h1, h2⟩ := bind_eq_ok.1 hr
  exact h st a st1 h1 st1 r st' h2

theorem everySatisfying_mono {m : RowM α} {P Q : α → Prop} (h : EverySatisfying m P) (hpq : ∀ a, P a → Q a) :
    EverySatisfying m Q := fun st r st' hr => hpq r (h st r st' hr)

theorem everySatisfying_pure {a : α} {P : α → Prop} (h : P a) : EverySatisfying (pure a) P := by
  intro st r st' hr
  cases hr
  exact h

theorem everySatisfying_violation {code : Fault} {P : α → Prop} : EverySatisfying (violation code) P :=
  fun _ _ _ hr => by cases hr

theorem honestGives_bind {m : RowM α} {f : α → RowM β} {a : α} {b : β} (h : HonestGives m a)
    (hf : HonestGives (f a) b) : HonestGives (m >>= f) b := by
  intro st hst
  obtain ⟨st1, h1, ht1⟩ := h st hst
  obtain ⟨st2, h2, ht2⟩ := hf st1 ht1
  exact ⟨st2, (bind_ok h1).trans h2, ht2⟩

theorem honestGives_pure (a : α) : HonestGives (pure a) a := fun st hst => ⟨st, rfl, hst⟩

theorem determined_pure (a : α) : Determined (pure a) a :=
  ⟨honestGives_pure a, everySatisfying_pure rfl⟩

/-- A sequence of determined parts is determined. -/
theorem determined_bind {m : RowM α} {f : α → RowM β} {a : α} {b : β} (h : Determined m a)
    (hf : Determined (f a) b) : Determined (m >>= f) b :=
  ⟨honestGives_bind h.1 hf.1,
    everySatisfying_bind (everySatisfying_mono h.2 (fun _ e => e ▸ hf.2))⟩

/-! ## Cells -/

theorem everySatisfying_cell {p : Nat} {e : Int} {k : Int → RowM β} {P : β → Prop} (hp : 0 < p)
    (h : ∀ c, 0 ≤ c → c < (p : Int) → EverySatisfying (k c) P) : EverySatisfying (cell p e >>= k) P := by
  refine everySatisfying_bind fun st r st' hr => ?_
  have hp' : (0 : Int) < p := by exact_mod_cast hp
  have hmod : ∀ i : Int, 0 ≤ i % (p : Int) ∧ i % (p : Int) < p :=
    fun i => ⟨Int.emod_nonneg _ hp'.ne', Int.emod_lt_of_pos _ hp'⟩
  unfold cell at hr
  split at hr <;> cases hr
  · next v _ _ =>
    refine h _ (Int.natCast_nonneg _) ?_
    exact_mod_cast Nat.mod_lt v hp
  · exact h _ (hmod e).1 (hmod e).2
  · exact h _ (hmod e).1 (hmod e).2

theorem cell_honest {p : Nat} {e : Int} (h0 : 0 ≤ e) (h1 : e < (p : Int)) : HonestGives (cell p e) e := by
  intro st hst
  refine ⟨st, ?_, hst⟩
  unfold cell
  rw [hst, Int.emod_eq_of_lt h0 h1]

theorem honestGives_cell {p : Nat} {e : Int} {k : Int → RowM β} {b : β} (h0 : 0 ≤ e) (h1 : e < (p : Int))
    (h : HonestGives (k e) b) : HonestGives (cell p e >>= k) b := honestGives_bind (cell_honest h0 h1) h

/-- The answer an oracle gives for the next cell (00_scope.md R15; log 16). -/
theorem cell_some {p v : Nat} {e : Int} {st : RowState} {rest : List (Option Nat)} (h : st.tape = some v :: rest) :
    cell p e st = .ok (((v % p : Nat) : Int), { st with tape := rest }) := by
  unfold cell
  rw [h]

/-! ## Constraints -/

theorem everySatisfying_assertEq {p : Nat} {a b : Int} {code : Fault} {k : Unit → RowM β} {P : β → Prop}
    (h : (a - b) % (p : Int) = 0 → EverySatisfying (k ()) P) :
    EverySatisfying (assertEq p a b code >>= k) P := by
  refine everySatisfying_bind fun st r st' hr => ?_
  unfold assertEq at hr
  split at hr
  · exact h ‹_›
  · cases hr

theorem everySatisfying_assertEq_last {p : Nat} {a b : Int} {code : Fault} {P : Unit → Prop}
    (h : (a - b) % (p : Int) = 0 → P ()) : EverySatisfying (assertEq p a b code) P := by
  intro st r st' hr
  unfold assertEq at hr
  split at hr
  · exact h ‹_›
  · cases hr

theorem assertEq_honest {p : Nat} {a b : Int} {code : Fault} (h : (a - b) % (p : Int) = 0) :
    HonestGives (assertEq p a b code) () := by
  unfold assertEq
  rw [if_pos h]
  exact honestGives_pure ()

theorem honestGives_assertEq {p : Nat} {a b : Int} {code : Fault} {k : Unit → RowM β} {r : β}
    (h : (a - b) % (p : Int) = 0) (hk : HonestGives (k ()) r) : HonestGives (assertEq p a b code >>= k) r :=
  honestGives_bind (assertEq_honest h) hk

theorem everySatisfying_rangeCheck {p width : Nat} {c : Int} {code : Fault} {k : Unit → RowM β} {P : β → Prop}
    (h : c % (p : Int) < 2 ^ width → EverySatisfying (k ()) P) :
    EverySatisfying (rangeCheck p width c code >>= k) P := by
  refine everySatisfying_bind fun st r st' hr => ?_
  unfold rangeCheck at hr
  split at hr
  · exact h ‹_›
  · cases hr

theorem everySatisfying_rangeCheck_last {p width : Nat} {c : Int} {code : Fault} {P : Unit → Prop}
    (h : c % (p : Int) < 2 ^ width → P ()) : EverySatisfying (rangeCheck p width c code) P := by
  intro st r st' hr
  unfold rangeCheck at hr
  split at hr
  · exact h ‹_›
  · cases hr

theorem rangeCheck_honest {p width : Nat} {c : Int} {code : Fault} (h : c % (p : Int) < 2 ^ width) :
    HonestGives (rangeCheck p width c code) () := by
  intro st hst
  refine ⟨{ st with events := st.events ++ [⟨width, c % p⟩] }, ?_, hst⟩
  unfold rangeCheck
  rw [if_pos h]

theorem honestGives_rangeCheck {p width : Nat} {c : Int} {code : Fault} {k : Unit → RowM β} {r : β}
    (h : c % (p : Int) < 2 ^ width) (hk : HonestGives (k ()) r) : HonestGives (rangeCheck p width c code >>= k) r :=
  honestGives_bind (rangeCheck_honest h) hk

theorem everySatisfying_require {cond : Bool} {code : Fault} {k : Unit → RowM β} {P : β → Prop}
    (h : cond = true → EverySatisfying (k ()) P) : EverySatisfying (require cond code >>= k) P := by
  refine everySatisfying_bind fun st r st' hr => ?_
  unfold require at hr
  split at hr
  · exact h ‹_›
  · cases hr

theorem honestGives_require {cond : Bool} {code : Fault} {k : Unit → RowM β} {r : β} (h : cond = true)
    (hk : HonestGives (k ()) r) : HonestGives (require cond code >>= k) r := by
  refine honestGives_bind (a := ()) ?_ hk
  unfold require
  rw [if_pos h]
  exact honestGives_pure ()

theorem determined_emitTxn {t : Txn} {k : Unit → RowM β} {r : β} (hk : Determined (k ()) r) :
    Determined (emitTxn t >>= k) r := by
  refine determined_bind (a := ()) ⟨?_, ?_⟩ hk
  · exact fun st hst => ⟨{ st with txns := st.txns ++ [t] }, rfl, hst⟩
  · exact fun _ _ _ _ => rfl

/-! ## Field facts -/

/-- Field identities between integers that lie in [0, FIELD_P) are integer identities (00_scope.md R15). -/
theorem eq_of_sub_emod_eq_zero {p : Nat} {a b : Int} (h : (a - b) % (p : Int) = 0) (ha0 : 0 ≤ a) (ha : a < (p : Int))
    (hb0 : 0 ≤ b) (hb : b < (p : Int)) : a = b := by
  obtain ⟨k, hk⟩ := Int.dvd_of_emod_eq_zero h
  have h1 : (p : Int) * k < p * 1 := by omega
  have h2 : (p : Int) * (-1) < p * k := by omega
  have hp : (0 : Int) < p := by omega
  have := Int.lt_of_mul_lt_mul_left h1 hp.le
  have := Int.lt_of_mul_lt_mul_left h2 hp.le
  have : k = 0 := by omega
  subst this
  omega

/-- A product is 0 in the field exactly when a factor is. -/
theorem mul_emod_eq_zero {p : Nat} (hp : p.Prime) {a b : Int} :
    (a * b) % (p : Int) = 0 ↔ a % (p : Int) = 0 ∨ b % (p : Int) = 0 := by
  rw [← Int.dvd_iff_emod_eq_zero, ← Int.dvd_iff_emod_eq_zero, ← Int.dvd_iff_emod_eq_zero]
  exact (Nat.prime_iff_prime_int.1 hp).dvd_mul

/-- A field element that meets the constraint of Bit (40_primitives.md R130). -/
theorem bit_of_constraint {p : Nat} (hp : p.Prime) (h1 : 1 < p) {c : Int} (hc0 : 0 ≤ c) (hc : c < (p : Int))
    (h : (c * (c - 1) - 0) % (p : Int) = 0) : c = 0 ∨ c = 1 := by
  rw [sub_zero, mul_emod_eq_zero hp] at h
  have h1' : (1 : Int) < p := by exact_mod_cast h1
  rcases h with h | h
  · exact .inl (by rwa [Int.emod_eq_of_lt hc0 hc] at h)
  · exact .inr (eq_of_sub_emod_eq_zero h hc0 hc (by decide) h1')

theorem everySatisfying_bit {p : Nat} (hp : p.Prime) {c : Int} {k : Unit → RowM β} {P : β → Prop} (hc0 : 0 ≤ c)
    (hc : c < (p : Int)) (h : c = 0 ∨ c = 1 → EverySatisfying (k ()) P) : EverySatisfying (bit p c >>= k) P :=
  everySatisfying_assertEq fun e => h (bit_of_constraint hp hp.one_lt hc0 hc e)

theorem honestGives_bit {p : Nat} {c : Int} {k : Unit → RowM β} {r : β} (hc : c = 0 ∨ c = 1)
    (hk : HonestGives (k ()) r) : HonestGives (bit p c >>= k) r := by
  refine honestGives_assertEq ?_ hk
  rcases hc with rfl | rfl <;> simp

/-- A cell that passes a range check of a table smaller than the field is in the table (40_primitives.md R132). -/
theorem everySatisfying_u16 {p : Nat} {c : Int} {k : Unit → RowM β} {P : β → Prop} (hc0 : 0 ≤ c)
    (hc : c < (p : Int)) (h : c < 65536 → EverySatisfying (k ()) P) : EverySatisfying (u16 p c >>= k) P :=
  everySatisfying_rangeCheck fun e => h (by rw [Int.emod_eq_of_lt hc0 hc] at e; exact e)

theorem everySatisfying_u8 {p : Nat} {c : Int} {k : Unit → RowM β} {P : β → Prop} (hc0 : 0 ≤ c)
    (hc : c < (p : Int)) (h : c < 256 → EverySatisfying (k ()) P) : EverySatisfying (u8 p c >>= k) P :=
  everySatisfying_rangeCheck fun e => h (by rw [Int.emod_eq_of_lt hc0 hc] at e; exact e)

theorem honestGives_u16 {p : Nat} {c : Int} {k : Unit → RowM β} {r : β} (hp : 65536 < p) (hc0 : 0 ≤ c)
    (hc : c < 65536) (hk : HonestGives (k ()) r) : HonestGives (u16 p c >>= k) r := by
  have hp' : (65536 : Int) < p := by exact_mod_cast hp
  refine honestGives_rangeCheck ?_ hk
  rw [Int.emod_eq_of_lt hc0 (by omega)]
  exact hc

theorem honestGives_u8 {p : Nat} {c : Int} {k : Unit → RowM β} {r : β} (hp : 256 < p) (hc0 : 0 ≤ c)
    (hc : c < 256) (hk : HonestGives (k ()) r) : HonestGives (u8 p c >>= k) r := by
  have hp' : (256 : Int) < p := by exact_mod_cast hp
  refine honestGives_rangeCheck ?_ hk
  rw [Int.emod_eq_of_lt hc0 (by omega)]
  exact hc

/-! ## Words as halves -/

@[simp] theorem ofWord_low (v : Word) : (ValU32.ofWord v).low = (v.toNat % 65536 : Nat) := rfl

@[simp] theorem ofWord_high (v : Word) : (ValU32.ofWord v).high = (v.toNat / 65536 : Nat) := rfl

/-- The halves of a word are canonical (40_primitives.md R134). -/
theorem ofWord_canonical (v : Word) : (ValU32.ofWord v).Canonical := by
  have := v.isLt
  simp only [ValU32.Canonical, ofWord_low, ofWord_high]
  omega

theorem ofWord_value (v : Word) : (ValU32.ofWord v).value = unsigned v := by
  simp only [ValU32.value, ofWord_low, ofWord_high, unsigned]
  omega

/-- Canonical halves are those of the word of their value. -/
theorem eq_ofWord_of_canonical {v : ValU32} (h : v.Canonical) : v = ValU32.ofWord (u32 v.value) := by
  have hv := toNat_u32 v.value
  obtain ⟨low, high⟩ := v
  simp only [ValU32.Canonical, ValU32.value] at h hv
  simp only [ValU32.ofWord, ValU32.value, ValU32.mk.injEq]
  omega

@[simp] theorem toWord_ofWord (v : Word) : (ValU32.ofWord v).toWord = v := by
  have h := ofWord_value v
  unfold ValU32.toWord
  rw [h]
  exact u32_unsigned v

end Sys2Proof.Safety
end

