-- ==== Sys2Proof/Laws/CircuitUnits.lean ====
section
/-! SUPPORT. What the smaller units of the constraint layer compute: lists of cells and checks, the sign bit, binary
digits, the bytes of a word, the split of a column total and the bytes of a half. -/

namespace Sys2Proof.Safety

open Sys2Proof.Machine Sys2Proof.Circuit

variable {β : Type}

/-! ## Lists of cells and checks -/

theorem cells_satisfying {p : Nat} (hp : 0 < p) : ∀ {es : List Int},
    EverySatisfying (cells p es) (fun cs => cs.length = es.length ∧ ∀ c ∈ cs, 0 ≤ c ∧ c < (p : Int))
  | [] => everySatisfying_pure ⟨rfl, by simp⟩
  | e :: es => by
    unfold cells
    refine everySatisfying_cell hp fun c h0 h1 => ?_
    refine everySatisfying_bind (everySatisfying_mono (cells_satisfying hp) fun cs hcs => ?_)
    refine everySatisfying_pure ⟨by simp [hcs.1], fun d hd => ?_⟩
    rcases List.mem_cons.1 hd with rfl | hd
    · exact ⟨h0, h1⟩
    · exact hcs.2 d hd

theorem everySatisfying_cells {p : Nat} (hp : 0 < p) {k : List Int → RowM β} {P : β → Prop} {es : List Int}
    (h : ∀ cs, cs.length = es.length → (∀ c ∈ cs, 0 ≤ c ∧ c < (p : Int)) → EverySatisfying (k cs) P) :
    EverySatisfying (cells p es >>= k) P :=
  everySatisfying_bind (everySatisfying_mono (cells_satisfying hp) fun cs hcs => h cs hcs.1 hcs.2)

theorem cells_honest {p : Nat} : ∀ {es : List Int}, (∀ e ∈ es, 0 ≤ e ∧ e < (p : Int)) → HonestGives (cells p es) es
  | [], _ => honestGives_pure []
  | e :: es, h => by
    unfold cells
    refine honestGives_cell (h e (by simp)).1 (h e (by simp)).2 ?_
    exact honestGives_bind (cells_honest fun d hd => h d (by simp [hd])) (honestGives_pure _)

theorem checkAll_satisfying {check : Int → RowM Unit} {R : Int → Prop} : ∀ {cs : List Int},
    (∀ c ∈ cs, EverySatisfying (check c) (fun _ => R c)) → EverySatisfying (checkAll check cs) (fun _ => ∀ c ∈ cs, R c)
  | [], _ => everySatisfying_pure (by simp)
  | c :: cs, h => by
    unfold checkAll
    refine everySatisfying_bind (everySatisfying_mono (h c (by simp)) fun _ hr => ?_)
    refine everySatisfying_mono (checkAll_satisfying fun d hd => h d (by simp [hd])) fun _ hall d hd => ?_
    rcases List.mem_cons.1 hd with rfl | hd
    · exact hr
    · exact hall d hd

theorem everySatisfying_checkAll {check : Int → RowM Unit} {R : Int → Prop} {k : Unit → RowM β} {P : β → Prop}
    {cs : List Int} (hc : ∀ c ∈ cs, EverySatisfying (check c) (fun _ => R c))
    (h : (∀ c ∈ cs, R c) → EverySatisfying (k ()) P) : EverySatisfying (checkAll check cs >>= k) P :=
  everySatisfying_bind (everySatisfying_mono (checkAll_satisfying hc) fun _ hall => h hall)

theorem checkAll_honest {check : Int → RowM Unit} : ∀ {cs : List Int}, (∀ c ∈ cs, HonestGives (check c) ()) →
    HonestGives (checkAll check cs) ()
  | [], _ => honestGives_pure ()
  | c :: cs, h => by
    unfold checkAll
    exact honestGives_bind (h c (by simp)) (checkAll_honest fun d hd => h d (by simp [hd]))

/-- A list of cells that all pass Bit holds bits. -/
theorem everySatisfying_bits {p : Nat} (hp : p.Prime) {k : Unit → RowM β} {P : β → Prop} {cs : List Int}
    (hc : ∀ c ∈ cs, 0 ≤ c ∧ c < (p : Int)) (h : (∀ c ∈ cs, c = 0 ∨ c = 1) → EverySatisfying (k ()) P) :
    EverySatisfying (checkAll (bit p) cs >>= k) P :=
  everySatisfying_checkAll (fun c hm => everySatisfying_assertEq_last
    (bit_of_constraint hp hp.one_lt (hc c hm).1 (hc c hm).2)) h

theorem bits_honest {p : Nat} {cs : List Int} (h : ∀ c ∈ cs, c = 0 ∨ c = 1) : HonestGives (checkAll (bit p) cs) () :=
  checkAll_honest fun c hm => assertEq_honest (by rcases h c hm with rfl | rfl <;> simp)

/-! ## Binary digits -/

theorem weighted_bounds : ∀ {cs : List Int}, (∀ c ∈ cs, c = 0 ∨ c = 1) → 0 ≤ weighted cs ∧ weighted cs < 2 ^ cs.length
  | [], _ => by simp [weighted]
  | c :: cs, h => by
    have ih := weighted_bounds (cs := cs) fun d hd => h d (by simp [hd])
    have hc := h c (by simp)
    simp only [weighted, List.length_cons, pow_succ]
    constructor <;> rcases hc with rfl | rfl <;> omega

/-- Binary digits are unique. -/
theorem weighted_unique : ∀ {cs ds : List Int}, cs.length = ds.length → (∀ c ∈ cs, c = 0 ∨ c = 1) →
    (∀ c ∈ ds, c = 0 ∨ c = 1) → weighted cs = weighted ds → cs = ds
  | [], [], _, _, _, _ => rfl
  | [], _ :: _, hl, _, _, _ => by cases hl
  | _ :: _, [], hl, _, _, _ => by cases hl
  | c :: cs, d :: ds, hl, hc, hd, hw => by
    have h1 := hc c (by simp)
    have h2 := hd d (by simp)
    simp only [weighted] at hw
    have he : c = d := by rcases h1 with rfl | rfl <;> rcases h2 with rfl | rfl <;> omega
    subst he
    have := weighted_unique (cs := cs) (ds := ds) (by simpa using hl) (fun e he => hc e (by simp [he]))
      (fun e he => hd e (by simp [he])) (by omega)
    rw [this]

theorem binaryDigits_bits : ∀ (n : Nat) (h : Int), ∀ c ∈ binaryDigits n h, c = 0 ∨ c = 1
  | 0, _ => by simp [binaryDigits]
  | n + 1, h => by
    intro c hc
    rcases List.mem_cons.1 hc with rfl | hc
    · omega
    · exact binaryDigits_bits n _ c hc

theorem binaryDigits_length : ∀ (n : Nat) (h : Int), (binaryDigits n h).length = n
  | 0, _ => rfl
  | n + 1, h => by simp [binaryDigits, binaryDigits_length n]

theorem weighted_binaryDigits : ∀ (n : Nat) {h : Int}, 0 ≤ h → h < 2 ^ n → weighted (binaryDigits n h) = h
  | 0, h, h0, h1 => by simp [binaryDigits, weighted]; simp at h1; omega
  | n + 1, h, h0, h1 => by
    rw [pow_succ] at h1
    have ih := weighted_binaryDigits n (h := h / 2) (by omega) (by omega)
    rw [binaryDigits, weighted, ih]
    omega

/-- Bits16 (43_bitwise.md R210). -/
theorem determined_bits16 {p : Nat} (hp : p.Prime) (hb : 2 ^ 28 < p) {h : Int} (h0 : 0 ≤ h) (h1 : h < 65536) :
    Determined (bits16 p h) (binaryDigits 16 h) := by
  have hb' : (268435456 : Int) < p := by exact_mod_cast hb
  have hd := binaryDigits_bits 16 h
  have hw : weighted (binaryDigits 16 h) = h := weighted_binaryDigits 16 h0 (by norm_num; exact h1)
  constructor
  · unfold bits16
    refine honestGives_bind (cells_honest fun e he => ?_) ?_
    · rcases hd e he with rfl | rfl <;> omega
    · refine honestGives_bind (bits_honest hd) ?_
      exact honestGives_assertEq (by rw [hw, sub_self]; rfl) (honestGives_pure _)
  · unfold bits16
    refine everySatisfying_cells (by omega) fun cs hl hc => ?_
    refine everySatisfying_bits hp hc fun hbits => ?_
    refine everySatisfying_assertEq fun he => ?_
    refine everySatisfying_pure (weighted_unique hl hbits hd ?_)
    have hlen : cs.length = 16 := by rw [hl, binaryDigits_length]
    have hwb := weighted_bounds hbits
    rw [hlen] at hwb
    norm_num at hwb
    rw [hw]
    exact (eq_of_sub_emod_eq_zero he h0 (by omega) hwb.1 (by omega)).symm

/-! ## Signs, bytes and column totals -/

/-- TopBit (40_primitives.md R144). -/
theorem determined_topBit {p : Nat} (hp : p.Prime) (hb : 2 ^ 28 < p) {h : Int} (h0 : 0 ≤ h) (h1 : h < 65536) :
    Determined (topBit p h) (h / 32768) := by
  have hb' : (268435456 : Int) < p := by exact_mod_cast hb
  constructor
  · unfold topBit
    refine honestGives_cell (by omega) (by omega) ?_
    refine honestGives_bit (by omega) ?_
    exact honestGives_u16 (by omega) (by omega) (by omega) (honestGives_pure _)
  · unfold topBit
    refine everySatisfying_cell (by omega) fun s h2 h3 => ?_
    refine everySatisfying_bit hp h2 h3 fun h4 => ?_
    refine everySatisfying_rangeCheck fun h5 => everySatisfying_pure ?_
    rcases h4 with rfl | rfl
    · rw [Int.emod_eq_of_lt (by omega) (by omega)] at h5; omega
    · by_contra hc
      have : (2 * (h - 32768 * 1)) % (p : Int) = 2 * (h - 32768 * 1) + p := by
        rw [← Int.add_emod_right, Int.emod_eq_of_lt (by omega) (by omega)]
      omega

/-- ByteSplit (47_load_store.md R314). -/
theorem determined_byteSplit {p : Nat} (hb : 2 ^ 28 < p) {h : Int} (h0 : 0 ≤ h) (h1 : h < 65536) :
    Determined (byteSplit p h) (h % 256, h / 256) := by
  have hb' : (268435456 : Int) < p := by exact_mod_cast hb
  constructor
  · unfold byteSplit
    refine honestGives_cell (by omega) (by omega) ?_
    refine honestGives_u8 (by omega) (by omega) (by omega) ?_
    refine honestGives_cell (by omega) (by omega) ?_
    refine honestGives_u8 (by omega) (by omega) (by omega) ?_
    exact honestGives_assertEq (by rw [Int.emod_eq_zero_of_dvd]; exact ⟨0, by omega⟩) (honestGives_pure _)
  · unfold byteSplit
    refine everySatisfying_cell (by omega) fun y0 a0 a1 => ?_
    refine everySatisfying_u8 a0 a1 fun a2 => ?_
    refine everySatisfying_cell (by omega) fun y1 b0 b1 => ?_
    refine everySatisfying_u8 b0 b1 fun b2 => ?_
    refine everySatisfying_assertEq fun he => everySatisfying_pure ?_
    have := eq_of_sub_emod_eq_zero he h0 (by omega) (by omega) (by omega)
    rw [Prod.mk.injEq]
    omega

/-- SplitTotal (44_multiply.md R232). -/
theorem determined_splitTotal {p : Nat} (hb : 2 ^ 28 < p) {t : Int} (h0 : 0 ≤ t) (h1 : t < 2 ^ 27) :
    Determined (splitTotal p t) (t % 65536, t / 65536) := by
  have hb' : (268435456 : Int) < p := by exact_mod_cast hb
  constructor
  · unfold splitTotal
    refine honestGives_cell (by omega) (by omega) ?_
    refine honestGives_u16 (by omega) (by omega) (by omega) ?_
    refine honestGives_cell (by omega) (by omega) ?_
    refine honestGives_u16 (by omega) (by omega) (by omega) ?_
    refine honestGives_u16 (by omega) (by omega) (by omega) ?_
    exact honestGives_assertEq (by rw [Int.emod_eq_zero_of_dvd]; exact ⟨0, by omega⟩) (honestGives_pure _)
  · unfold splitTotal
    refine everySatisfying_cell (by omega) fun o a0 a1 => ?_
    refine everySatisfying_u16 a0 a1 fun a2 => ?_
    refine everySatisfying_cell (by omega) fun c b0 b1 => ?_
    refine everySatisfying_u16 b0 b1 fun b2 => ?_
    refine everySatisfying_u16 (by omega) (by omega) fun b3 => ?_
    refine everySatisfying_assertEq fun he => everySatisfying_pure ?_
    have := eq_of_sub_emod_eq_zero he h0 (by omega) (by omega) (by omega)
    rw [Prod.mk.injEq]
    omega

/-- ExpandU32 (44_multiply.md R230): the four bytes, lowest first, and the sign where the operand is signed. -/
theorem determined_expandU32 {p : Nat} (hp : p.Prime) (hb : 2 ^ 28 < p) {x : ValU32} (hx : x.Canonical)
    (signed : Bool) :
    Determined (expandU32 p x signed)
      ([x.low % 256, x.low / 256, x.high % 256, x.high / 256], if signed then x.high / 32768 else 0) := by
  have hb' : (268435456 : Int) < p := by exact_mod_cast hb
  obtain ⟨l0, l1, g0, g1⟩ := hx
  have hneg : x.high / 256 / 128 = x.high / 32768 := by omega
  constructor
  · unfold expandU32
    refine honestGives_cell (by omega) (by omega) ?_
    refine honestGives_u8 (by omega) (by omega) (by omega) ?_
    refine honestGives_cell (by omega) (by omega) ?_
    refine honestGives_u8 (by omega) (by omega) (by omega) ?_
    refine honestGives_cell (by omega) (by omega) ?_
    refine honestGives_u8 (by omega) (by omega) (by omega) ?_
    refine honestGives_cell (by omega) (by omega) ?_
    refine honestGives_u8 (by omega) (by omega) (by omega) ?_
    refine honestGives_assertEq (by rw [Int.emod_eq_zero_of_dvd]; exact ⟨0, by omega⟩) ?_
    refine honestGives_assertEq (by rw [Int.emod_eq_zero_of_dvd]; exact ⟨0, by omega⟩) ?_
    cases signed
    · exact honestGives_pure _
    · refine honestGives_cell (by omega) (by omega) ?_
      refine honestGives_bit (by omega) ?_
      refine honestGives_u8 (by omega) (by omega) (by omega) ?_
      rw [hneg]
      exact honestGives_pure _
  · unfold expandU32
    refine everySatisfying_cell (by omega) fun x0 a0 a1 => ?_
    refine everySatisfying_u8 a0 a1 fun a2 => ?_
    refine everySatisfying_cell (by omega) fun x1 b0 b1 => ?_
    refine everySatisfying_u8 b0 b1 fun b2 => ?_
    refine everySatisfying_cell (by omega) fun x2 c0 c1 => ?_
    refine everySatisfying_u8 c0 c1 fun c2 => ?_
    refine everySatisfying_cell (by omega) fun x3 d0 d1 => ?_
    refine everySatisfying_u8 d0 d1 fun d2 => ?_
    refine everySatisfying_assertEq fun e1 => ?_
    refine everySatisfying_assertEq fun e2 => ?_
    have f1 := eq_of_sub_emod_eq_zero e1 l0 (by omega) (by omega) (by omega)
    have f2 := eq_of_sub_emod_eq_zero e2 g0 (by omega) (by omega) (by omega)
    have g : [x0, x1, x2, x3] = [x.low % 256, x.low / 256, x.high % 256, x.high / 256] := by
      simp only [List.cons.injEq, and_true]
      omega
    cases signed
    · exact everySatisfying_pure (by rw [g]; rfl)
    · refine everySatisfying_cell (by omega) fun s i0 i1 => ?_
      refine everySatisfying_bit hp i0 i1 fun i2 => ?_
      refine everySatisfying_rangeCheck fun i3 => everySatisfying_pure ?_
      rw [g, Prod.mk.injEq]
      refine ⟨rfl, ?_⟩
      simp only [if_true]
      rcases i2 with rfl | rfl
      · rw [Int.emod_eq_of_lt (by omega) (by omega)] at i3; omega
      · by_contra hc
        have : (2 * (x3 - 128 * 1)) % (p : Int) = 2 * (x3 - 128 * 1) + p := by
          rw [← Int.add_emod_right, Int.emod_eq_of_lt (by omega) (by omega)]
        omega

/-- Squaring computes the power modulo p. -/
theorem powMod_eq (p : Nat) : ∀ (fuel b e : Nat), e < 2 ^ fuel → powMod p fuel b e = b ^ e % p
  | 0, b, e, h => by
    have : e = 0 := by simp at h; exact h
    subst this
    rfl
  | fuel + 1, b, e, h => by
    rw [pow_succ] at h
    have ih := powMod_eq p fuel (b * b % p) (e / 2) (by omega)
    have hb : (b * b % p) ^ (e / 2) % p = b ^ (2 * (e / 2)) % p := by
      rw [← Nat.pow_mod, pow_mul, pow_two]
    unfold powMod
    split
    · next h0 => subst h0; rfl
    · split
      · next h1 =>
        rw [ih, hb, Nat.mod_mul_mod, ← pow_succ]
        congr 2; omega
      · rw [ih, hb]
        congr 2; omega

/-- The inverse that an honest oracle gives (40_primitives.md R142). -/
theorem mul_fieldInv {p : Nat} (hp : p.Prime) {x : Int} (hx : x % (p : Int) ≠ 0) :
    (x * fieldInv p x) % (p : Int) = 1 % p := by
  have hp2 : 2 ≤ p := hp.two_le
  have hp' : (p : Int) ≠ 0 := by omega
  obtain ⟨n, hn⟩ : ∃ n : Nat, x % (p : Int) = n := ⟨(x % p).toNat, by
    rw [Int.toNat_of_nonneg (Int.emod_nonneg _ hp')]⟩
  have hlt : p - 2 < 2 ^ (Nat.log2 p + 1) := by
    have := Nat.lt_log2_self (n := p)
    omega
  unfold fieldInv
  rw [hn, Int.toNat_natCast, powMod_eq _ _ _ _ hlt, Int.mul_emod, hn]
  have hcop : Nat.Coprime n p := by
    rw [Nat.coprime_comm, hp.coprime_iff_not_dvd]
    intro hd
    apply hx
    rw [hn]
    have hl : (n : Int) < p := by rw [← hn]; exact Int.emod_lt_of_pos _ (by omega)
    have : n = 0 := Nat.eq_zero_of_dvd_of_lt hd (by omega)
    simp [this]
  have hf : n ^ (p - 1) ≡ 1 [MOD p] := by
    rw [← Nat.totient_prime hp]
    exact Nat.ModEq.pow_totient hcop
  have he : n * (n ^ (p - 2) % p) % p = 1 % p := by
    rw [Nat.mul_mod, Nat.mod_mod, ← Nat.mul_mod, ← pow_succ']
    have : p - 2 + 1 = p - 1 := by omega
    rw [this]
    exact hf
  have he' : n * (n ^ (p - 2) % p % p) % p = 1 % p := by rw [Nat.mod_mod]; exact he
  exact_mod_cast he'

end Sys2Proof.Safety
end

