-- ==== Sys2Proof/Laws/Encoding.lean ====
section
/-! SUPPORT. The fields and immediates of an encoded word, the word that its own fields encode, and the evenness of
branch and jump offsets. -/

namespace Sys2Proof

/-! ## Format R -/

@[simp] theorem opcodeOf_encR (func7 : BitVec 7) (rs2 rs1 : RegNum) (func3 : BitVec 3) (rd : RegNum) (opcode : BitVec 7) :
    opcodeOf (encR func7 rs2 rs1 func3 rd opcode) = opcode := by
  refine BitVec.eq_of_getLsbD_eq fun i hi => ?_
  simp only [opcodeOf, encR, BitVec.getLsbD_extractLsb', BitVec.getLsbD_cast, BitVec.getLsbD_append]
  interval_cases i <;> simp

@[simp] theorem rdOf_encR (func7 : BitVec 7) (rs2 rs1 : RegNum) (func3 : BitVec 3) (rd : RegNum) (opcode : BitVec 7) :
    rdOf (encR func7 rs2 rs1 func3 rd opcode) = rd := by
  refine BitVec.eq_of_getLsbD_eq fun i hi => ?_
  simp only [rdOf, encR, BitVec.getLsbD_extractLsb', BitVec.getLsbD_cast, BitVec.getLsbD_append]
  interval_cases i <;> simp

@[simp] theorem func3Of_encR (func7 : BitVec 7) (rs2 rs1 : RegNum) (func3 : BitVec 3) (rd : RegNum) (opcode : BitVec 7) :
    func3Of (encR func7 rs2 rs1 func3 rd opcode) = func3 := by
  refine BitVec.eq_of_getLsbD_eq fun i hi => ?_
  simp only [func3Of, encR, BitVec.getLsbD_extractLsb', BitVec.getLsbD_cast, BitVec.getLsbD_append]
  interval_cases i <;> simp

@[simp] theorem rs1Of_encR (func7 : BitVec 7) (rs2 rs1 : RegNum) (func3 : BitVec 3) (rd : RegNum) (opcode : BitVec 7) :
    rs1Of (encR func7 rs2 rs1 func3 rd opcode) = rs1 := by
  refine BitVec.eq_of_getLsbD_eq fun i hi => ?_
  simp only [rs1Of, encR, BitVec.getLsbD_extractLsb', BitVec.getLsbD_cast, BitVec.getLsbD_append]
  interval_cases i <;> simp

@[simp] theorem rs2Of_encR (func7 : BitVec 7) (rs2 rs1 : RegNum) (func3 : BitVec 3) (rd : RegNum) (opcode : BitVec 7) :
    rs2Of (encR func7 rs2 rs1 func3 rd opcode) = rs2 := by
  refine BitVec.eq_of_getLsbD_eq fun i hi => ?_
  simp only [rs2Of, encR, BitVec.getLsbD_extractLsb', BitVec.getLsbD_cast, BitVec.getLsbD_append]
  interval_cases i <;> simp

@[simp] theorem func7Of_encR (func7 : BitVec 7) (rs2 rs1 : RegNum) (func3 : BitVec 3) (rd : RegNum) (opcode : BitVec 7) :
    func7Of (encR func7 rs2 rs1 func3 rd opcode) = func7 := by
  refine BitVec.eq_of_getLsbD_eq fun i hi => ?_
  simp only [func7Of, encR, BitVec.getLsbD_extractLsb', BitVec.getLsbD_cast, BitVec.getLsbD_append]
  interval_cases i <;> simp

/-! ## Format I -/

@[simp] theorem opcodeOf_encI (imm : BitVec 12) (rs1 : RegNum) (func3 : BitVec 3) (rd : RegNum) (opcode : BitVec 7) :
    opcodeOf (encI imm rs1 func3 rd opcode) = opcode := by
  refine BitVec.eq_of_getLsbD_eq fun i hi => ?_
  simp only [opcodeOf, encI, BitVec.getLsbD_extractLsb', BitVec.getLsbD_cast, BitVec.getLsbD_append]
  interval_cases i <;> simp

@[simp] theorem rdOf_encI (imm : BitVec 12) (rs1 : RegNum) (func3 : BitVec 3) (rd : RegNum) (opcode : BitVec 7) :
    rdOf (encI imm rs1 func3 rd opcode) = rd := by
  refine BitVec.eq_of_getLsbD_eq fun i hi => ?_
  simp only [rdOf, encI, BitVec.getLsbD_extractLsb', BitVec.getLsbD_cast, BitVec.getLsbD_append]
  interval_cases i <;> simp

@[simp] theorem func3Of_encI (imm : BitVec 12) (rs1 : RegNum) (func3 : BitVec 3) (rd : RegNum) (opcode : BitVec 7) :
    func3Of (encI imm rs1 func3 rd opcode) = func3 := by
  refine BitVec.eq_of_getLsbD_eq fun i hi => ?_
  simp only [func3Of, encI, BitVec.getLsbD_extractLsb', BitVec.getLsbD_cast, BitVec.getLsbD_append]
  interval_cases i <;> simp

@[simp] theorem rs1Of_encI (imm : BitVec 12) (rs1 : RegNum) (func3 : BitVec 3) (rd : RegNum) (opcode : BitVec 7) :
    rs1Of (encI imm rs1 func3 rd opcode) = rs1 := by
  refine BitVec.eq_of_getLsbD_eq fun i hi => ?_
  simp only [rs1Of, encI, BitVec.getLsbD_extractLsb', BitVec.getLsbD_cast, BitVec.getLsbD_append]
  interval_cases i <;> simp

@[simp] theorem imm12I_encI (imm : BitVec 12) (rs1 : RegNum) (func3 : BitVec 3) (rd : RegNum) (opcode : BitVec 7) :
    imm12I (encI imm rs1 func3 rd opcode) = imm := by
  refine BitVec.eq_of_getLsbD_eq fun i hi => ?_
  simp only [imm12I, encI, BitVec.getLsbD_extractLsb', BitVec.getLsbD_cast, BitVec.getLsbD_append]
  interval_cases i <;> simp

/-! ## Format S -/

@[simp] theorem opcodeOf_encS (imm : BitVec 12) (rs2 rs1 : RegNum) (func3 : BitVec 3) (opcode : BitVec 7) :
    opcodeOf (encS imm rs2 rs1 func3 opcode) = opcode := by
  refine BitVec.eq_of_getLsbD_eq fun i hi => ?_
  simp only [opcodeOf, encS, BitVec.getLsbD_extractLsb', BitVec.getLsbD_cast, BitVec.getLsbD_append]
  interval_cases i <;> simp

@[simp] theorem func3Of_encS (imm : BitVec 12) (rs2 rs1 : RegNum) (func3 : BitVec 3) (opcode : BitVec 7) :
    func3Of (encS imm rs2 rs1 func3 opcode) = func3 := by
  refine BitVec.eq_of_getLsbD_eq fun i hi => ?_
  simp only [func3Of, encS, BitVec.getLsbD_extractLsb', BitVec.getLsbD_cast, BitVec.getLsbD_append]
  interval_cases i <;> simp

@[simp] theorem rs1Of_encS (imm : BitVec 12) (rs2 rs1 : RegNum) (func3 : BitVec 3) (opcode : BitVec 7) :
    rs1Of (encS imm rs2 rs1 func3 opcode) = rs1 := by
  refine BitVec.eq_of_getLsbD_eq fun i hi => ?_
  simp only [rs1Of, encS, BitVec.getLsbD_extractLsb', BitVec.getLsbD_cast, BitVec.getLsbD_append]
  interval_cases i <;> simp

@[simp] theorem rs2Of_encS (imm : BitVec 12) (rs2 rs1 : RegNum) (func3 : BitVec 3) (opcode : BitVec 7) :
    rs2Of (encS imm rs2 rs1 func3 opcode) = rs2 := by
  refine BitVec.eq_of_getLsbD_eq fun i hi => ?_
  simp only [rs2Of, encS, BitVec.getLsbD_extractLsb', BitVec.getLsbD_cast, BitVec.getLsbD_append]
  interval_cases i <;> simp

@[simp] theorem imm12S_encS (imm : BitVec 12) (rs2 rs1 : RegNum) (func3 : BitVec 3) (opcode : BitVec 7) :
    imm12S (encS imm rs2 rs1 func3 opcode) = imm := by
  refine BitVec.eq_of_getLsbD_eq fun i hi => ?_
  simp only [imm12S, encS, BitVec.getLsbD_extractLsb', BitVec.getLsbD_cast, BitVec.getLsbD_append]
  interval_cases i <;> simp

/-! ## Format B -/

@[simp] theorem opcodeOf_encB (offset : BitVec 13) (rs2 rs1 : RegNum) (func3 : BitVec 3) (opcode : BitVec 7) :
    opcodeOf (encB offset rs2 rs1 func3 opcode) = opcode := by
  refine BitVec.eq_of_getLsbD_eq fun i hi => ?_
  simp only [opcodeOf, encB, BitVec.getLsbD_extractLsb', BitVec.getLsbD_cast, BitVec.getLsbD_append]
  interval_cases i <;> simp

@[simp] theorem func3Of_encB (offset : BitVec 13) (rs2 rs1 : RegNum) (func3 : BitVec 3) (opcode : BitVec 7) :
    func3Of (encB offset rs2 rs1 func3 opcode) = func3 := by
  refine BitVec.eq_of_getLsbD_eq fun i hi => ?_
  simp only [func3Of, encB, BitVec.getLsbD_extractLsb', BitVec.getLsbD_cast, BitVec.getLsbD_append]
  interval_cases i <;> simp

@[simp] theorem rs1Of_encB (offset : BitVec 13) (rs2 rs1 : RegNum) (func3 : BitVec 3) (opcode : BitVec 7) :
    rs1Of (encB offset rs2 rs1 func3 opcode) = rs1 := by
  refine BitVec.eq_of_getLsbD_eq fun i hi => ?_
  simp only [rs1Of, encB, BitVec.getLsbD_extractLsb', BitVec.getLsbD_cast, BitVec.getLsbD_append]
  interval_cases i <;> simp

@[simp] theorem rs2Of_encB (offset : BitVec 13) (rs2 rs1 : RegNum) (func3 : BitVec 3) (opcode : BitVec 7) :
    rs2Of (encB offset rs2 rs1 func3 opcode) = rs2 := by
  refine BitVec.eq_of_getLsbD_eq fun i hi => ?_
  simp only [rs2Of, encB, BitVec.getLsbD_extractLsb', BitVec.getLsbD_cast, BitVec.getLsbD_append]
  interval_cases i <;> simp

theorem offsetB_encB (offset : BitVec 13) (rs2 rs1 : RegNum) (func3 : BitVec 3) (opcode : BitVec 7)
    (h : evenOffset offset = true) : offsetB (encB offset rs2 rs1 func3 opcode) = offset := by
  have h0 : offset.getLsbD 0 = false := by simpa [evenOffset] using h
  refine BitVec.eq_of_getLsbD_eq fun i hi => ?_
  simp only [offsetB, encB, BitVec.getLsbD_extractLsb', BitVec.getLsbD_cast, BitVec.getLsbD_append]
  interval_cases i <;> simp
  simpa using h0

/-! ## Format U -/

@[simp] theorem opcodeOf_encU (imm : BitVec 20) (rd : RegNum) (opcode : BitVec 7) :
    opcodeOf (encU imm rd opcode) = opcode := by
  refine BitVec.eq_of_getLsbD_eq fun i hi => ?_
  simp only [opcodeOf, encU, BitVec.getLsbD_extractLsb', BitVec.getLsbD_cast, BitVec.getLsbD_append]
  interval_cases i <;> simp

@[simp] theorem rdOf_encU (imm : BitVec 20) (rd : RegNum) (opcode : BitVec 7) :
    rdOf (encU imm rd opcode) = rd := by
  refine BitVec.eq_of_getLsbD_eq fun i hi => ?_
  simp only [rdOf, encU, BitVec.getLsbD_extractLsb', BitVec.getLsbD_cast, BitVec.getLsbD_append]
  interval_cases i <;> simp

@[simp] theorem imm20U_encU (imm : BitVec 20) (rd : RegNum) (opcode : BitVec 7) :
    imm20U (encU imm rd opcode) = imm := by
  refine BitVec.eq_of_getLsbD_eq fun i hi => ?_
  simp only [imm20U, encU, BitVec.getLsbD_extractLsb', BitVec.getLsbD_cast, BitVec.getLsbD_append]
  interval_cases i <;> simp

/-! ## Format J -/

@[simp] theorem opcodeOf_encJ (offset : BitVec 21) (rd : RegNum) (opcode : BitVec 7) :
    opcodeOf (encJ offset rd opcode) = opcode := by
  refine BitVec.eq_of_getLsbD_eq fun i hi => ?_
  simp only [opcodeOf, encJ, BitVec.getLsbD_extractLsb', BitVec.getLsbD_cast, BitVec.getLsbD_append]
  interval_cases i <;> simp

@[simp] theorem rdOf_encJ (offset : BitVec 21) (rd : RegNum) (opcode : BitVec 7) :
    rdOf (encJ offset rd opcode) = rd := by
  refine BitVec.eq_of_getLsbD_eq fun i hi => ?_
  simp only [rdOf, encJ, BitVec.getLsbD_extractLsb', BitVec.getLsbD_cast, BitVec.getLsbD_append]
  interval_cases i <;> simp

theorem offsetJ_encJ (offset : BitVec 21) (rd : RegNum) (opcode : BitVec 7)
    (h : evenOffset offset = true) : offsetJ (encJ offset rd opcode) = offset := by
  have h0 : offset.getLsbD 0 = false := by simpa [evenOffset] using h
  refine BitVec.eq_of_getLsbD_eq fun i hi => ?_
  simp only [offsetJ, encJ, BitVec.getLsbD_extractLsb', BitVec.getLsbD_cast, BitVec.getLsbD_append]
  interval_cases i <;> simp
  simpa using h0

/-! ## The word that its own fields encode -/

theorem encR_fields (w : Word) : encR (func7Of w) (rs2Of w) (rs1Of w) (func3Of w) (rdOf w) (opcodeOf w) = w := by
  refine BitVec.eq_of_getLsbD_eq fun i hi => ?_
  simp only [encR, func7Of, rs2Of, rs1Of, func3Of, rdOf, opcodeOf,
    BitVec.getLsbD_extractLsb', BitVec.getLsbD_cast, BitVec.getLsbD_append]
  interval_cases i <;> simp

theorem encI_fields (w : Word) : encI (imm12I w) (rs1Of w) (func3Of w) (rdOf w) (opcodeOf w) = w := by
  refine BitVec.eq_of_getLsbD_eq fun i hi => ?_
  simp only [encI, imm12I, rs1Of, func3Of, rdOf, opcodeOf,
    BitVec.getLsbD_extractLsb', BitVec.getLsbD_cast, BitVec.getLsbD_append]
  interval_cases i <;> simp

theorem encS_fields (w : Word) : encS (imm12S w) (rs2Of w) (rs1Of w) (func3Of w) (opcodeOf w) = w := by
  refine BitVec.eq_of_getLsbD_eq fun i hi => ?_
  simp only [encS, imm12S, rs2Of, rs1Of, func3Of, opcodeOf,
    BitVec.getLsbD_extractLsb', BitVec.getLsbD_cast, BitVec.getLsbD_append]
  interval_cases i <;> simp

theorem encB_fields (w : Word) : encB (offsetB w) (rs2Of w) (rs1Of w) (func3Of w) (opcodeOf w) = w := by
  refine BitVec.eq_of_getLsbD_eq fun i hi => ?_
  simp only [encB, offsetB, rs2Of, rs1Of, func3Of, opcodeOf,
    BitVec.getLsbD_extractLsb', BitVec.getLsbD_cast, BitVec.getLsbD_append]
  interval_cases i <;> simp

theorem encU_fields (w : Word) : encU (imm20U w) (rdOf w) (opcodeOf w) = w := by
  refine BitVec.eq_of_getLsbD_eq fun i hi => ?_
  simp only [encU, imm20U, rdOf, opcodeOf,
    BitVec.getLsbD_extractLsb', BitVec.getLsbD_cast, BitVec.getLsbD_append]
  interval_cases i <;> simp

theorem encJ_fields (w : Word) : encJ (offsetJ w) (rdOf w) (opcodeOf w) = w := by
  refine BitVec.eq_of_getLsbD_eq fun i hi => ?_
  simp only [encJ, offsetJ, rdOf, opcodeOf,
    BitVec.getLsbD_extractLsb', BitVec.getLsbD_cast, BitVec.getLsbD_append]
  interval_cases i <;> simp

theorem evenOffset_offsetB (w : Word) : evenOffset (offsetB w) = true := by
  simp only [evenOffset, offsetB, BitVec.getLsbD_cast, BitVec.getLsbD_append]
  simp

theorem evenOffset_offsetJ (w : Word) : evenOffset (offsetJ w) = true := by
  simp only [evenOffset, offsetJ, BitVec.getLsbD_cast, BitVec.getLsbD_append]
  simp

end Sys2Proof
end

