-- ==== Sys2Proof/Laws/PerInstr.lean ====
section
/-! SUPPORT. The family EncodingFits: the word of every instruction is a word of the instruction's own row of the
opcode table (30_encoding.md R103, R116). One lemma per constructor. -/

namespace Sys2Proof.Laws

/-- Looking up the instruction's word gives the instruction's row. -/
def EncodingFits.Statement (i : Instr) : Prop := lookup (encode i) = some i.op

/-- Formats R and I-shift: the three fields decide. -/
theorem lookup_encR (func7 : BitVec 7) (rs2 rs1 : RegNum) (func3 : BitVec 3) (rd : RegNum) (opcode : BitVec 7) :
    lookup (encR func7 rs2 rs1 func3 rd opcode) =
      lookupFields opcode.toNat func3.toNat func7.toNat (encR func7 rs2 rs1 func3 rd opcode).toNat := by
  simp only [lookup, opcodeOf_encR, func3Of_encR, func7Of_encR]

/-- Format I: opcode and func3 decide. -/
theorem lookup_encI (imm : BitVec 12) (rs1 : RegNum) (func3 : BitVec 3) (rd : RegNum) (opcode : BitVec 7) :
    lookup (encI imm rs1 func3 rd opcode) =
      lookupFields opcode.toNat func3.toNat (func7Of (encI imm rs1 func3 rd opcode)).toNat
        (encI imm rs1 func3 rd opcode).toNat := by
  simp only [lookup, opcodeOf_encI, func3Of_encI]

/-- Format S: opcode and func3 decide. -/
theorem lookup_encS (imm : BitVec 12) (rs2 rs1 : RegNum) (func3 : BitVec 3) (opcode : BitVec 7) :
    lookup (encS imm rs2 rs1 func3 opcode) =
      lookupFields opcode.toNat func3.toNat (func7Of (encS imm rs2 rs1 func3 opcode)).toNat
        (encS imm rs2 rs1 func3 opcode).toNat := by
  simp only [lookup, opcodeOf_encS, func3Of_encS]

/-- Format B: opcode and func3 decide. -/
theorem lookup_encB (offset : BitVec 13) (rs2 rs1 : RegNum) (func3 : BitVec 3) (opcode : BitVec 7) :
    lookup (encB offset rs2 rs1 func3 opcode) =
      lookupFields opcode.toNat func3.toNat (func7Of (encB offset rs2 rs1 func3 opcode)).toNat
        (encB offset rs2 rs1 func3 opcode).toNat := by
  simp only [lookup, opcodeOf_encB, func3Of_encB]

/-- Format U: the opcode decides. -/
theorem lookup_encU (imm : BitVec 20) (rd : RegNum) (opcode : BitVec 7) :
    lookup (encU imm rd opcode) =
      lookupFields opcode.toNat (func3Of (encU imm rd opcode)).toNat (func7Of (encU imm rd opcode)).toNat
        (encU imm rd opcode).toNat := by
  simp only [lookup, opcodeOf_encU]

/-- Format J: the opcode decides. -/
theorem lookup_encJ (offset : BitVec 21) (rd : RegNum) (opcode : BitVec 7) :
    lookup (encJ offset rd opcode) =
      lookupFields opcode.toNat (func3Of (encJ offset rd opcode)).toNat (func7Of (encJ offset rd opcode)).toNat
        (encJ offset rd opcode).toNat := by
  simp only [lookup, opcodeOf_encJ]

theorem EncodingFits.add (rd rs1 rs2 : RegNum) : EncodingFits.Statement (.add rd rs1 rs2) :=
  (lookup_encR ..).trans rfl

theorem EncodingFits.sub (rd rs1 rs2 : RegNum) : EncodingFits.Statement (.sub rd rs1 rs2) :=
  (lookup_encR ..).trans rfl

theorem EncodingFits.xor (rd rs1 rs2 : RegNum) : EncodingFits.Statement (.xor rd rs1 rs2) :=
  (lookup_encR ..).trans rfl

theorem EncodingFits.or (rd rs1 rs2 : RegNum) : EncodingFits.Statement (.or rd rs1 rs2) :=
  (lookup_encR ..).trans rfl

theorem EncodingFits.and (rd rs1 rs2 : RegNum) : EncodingFits.Statement (.and rd rs1 rs2) :=
  (lookup_encR ..).trans rfl

theorem EncodingFits.slt (rd rs1 rs2 : RegNum) : EncodingFits.Statement (.slt rd rs1 rs2) :=
  (lookup_encR ..).trans rfl

theorem EncodingFits.sltu (rd rs1 rs2 : RegNum) : EncodingFits.Statement (.sltu rd rs1 rs2) :=
  (lookup_encR ..).trans rfl

theorem EncodingFits.addi (rd rs1 : RegNum) (imm : BitVec 12) : EncodingFits.Statement (.addi rd rs1 imm) :=
  (lookup_encI ..).trans rfl

theorem EncodingFits.xori (rd rs1 : RegNum) (imm : BitVec 12) : EncodingFits.Statement (.xori rd rs1 imm) :=
  (lookup_encI ..).trans rfl

theorem EncodingFits.ori (rd rs1 : RegNum) (imm : BitVec 12) : EncodingFits.Statement (.ori rd rs1 imm) :=
  (lookup_encI ..).trans rfl

theorem EncodingFits.andi (rd rs1 : RegNum) (imm : BitVec 12) : EncodingFits.Statement (.andi rd rs1 imm) :=
  (lookup_encI ..).trans rfl

theorem EncodingFits.slti (rd rs1 : RegNum) (imm : BitVec 12) : EncodingFits.Statement (.slti rd rs1 imm) :=
  (lookup_encI ..).trans rfl

theorem EncodingFits.sltiu (rd rs1 : RegNum) (imm : BitVec 12) : EncodingFits.Statement (.sltiu rd rs1 imm) :=
  (lookup_encI ..).trans rfl

theorem EncodingFits.beq (rs1 rs2 : RegNum) (offset : BitVec 13) :
    EncodingFits.Statement (.beq rs1 rs2 offset) :=
  (lookup_encB ..).trans rfl

theorem EncodingFits.bne (rs1 rs2 : RegNum) (offset : BitVec 13) :
    EncodingFits.Statement (.bne rs1 rs2 offset) :=
  (lookup_encB ..).trans rfl

theorem EncodingFits.blt (rs1 rs2 : RegNum) (offset : BitVec 13) :
    EncodingFits.Statement (.blt rs1 rs2 offset) :=
  (lookup_encB ..).trans rfl

theorem EncodingFits.bge (rs1 rs2 : RegNum) (offset : BitVec 13) :
    EncodingFits.Statement (.bge rs1 rs2 offset) :=
  (lookup_encB ..).trans rfl

theorem EncodingFits.bltu (rs1 rs2 : RegNum) (offset : BitVec 13) :
    EncodingFits.Statement (.bltu rs1 rs2 offset) :=
  (lookup_encB ..).trans rfl

theorem EncodingFits.bgeu (rs1 rs2 : RegNum) (offset : BitVec 13) :
    EncodingFits.Statement (.bgeu rs1 rs2 offset) :=
  (lookup_encB ..).trans rfl

theorem EncodingFits.jal (rd : RegNum) (offset : BitVec 21) : EncodingFits.Statement (.jal rd offset) :=
  (lookup_encJ ..).trans rfl

theorem EncodingFits.jalr (rd rs1 : RegNum) (imm : BitVec 12) : EncodingFits.Statement (.jalr rd rs1 imm) :=
  (lookup_encI ..).trans rfl

theorem EncodingFits.lui (rd : RegNum) (imm : BitVec 20) : EncodingFits.Statement (.lui rd imm) :=
  (lookup_encU ..).trans rfl

theorem EncodingFits.auipc (rd : RegNum) (imm : BitVec 20) : EncodingFits.Statement (.auipc rd imm) :=
  (lookup_encU ..).trans rfl

theorem EncodingFits.sll (rd rs1 rs2 : RegNum) : EncodingFits.Statement (.sll rd rs1 rs2) :=
  (lookup_encR ..).trans rfl

theorem EncodingFits.slli (rd rs1 : RegNum) (shamt : BitVec 5) : EncodingFits.Statement (.slli rd rs1 shamt) :=
  (lookup_encR ..).trans rfl

theorem EncodingFits.mul (rd rs1 rs2 : RegNum) : EncodingFits.Statement (.mul rd rs1 rs2) :=
  (lookup_encR ..).trans rfl

theorem EncodingFits.mulh (rd rs1 rs2 : RegNum) : EncodingFits.Statement (.mulh rd rs1 rs2) :=
  (lookup_encR ..).trans rfl

theorem EncodingFits.mulhsu (rd rs1 rs2 : RegNum) : EncodingFits.Statement (.mulhsu rd rs1 rs2) :=
  (lookup_encR ..).trans rfl

theorem EncodingFits.mulhu (rd rs1 rs2 : RegNum) : EncodingFits.Statement (.mulhu rd rs1 rs2) :=
  (lookup_encR ..).trans rfl

theorem EncodingFits.srl (rd rs1 rs2 : RegNum) : EncodingFits.Statement (.srl rd rs1 rs2) :=
  (lookup_encR ..).trans rfl

theorem EncodingFits.sra (rd rs1 rs2 : RegNum) : EncodingFits.Statement (.sra rd rs1 rs2) :=
  (lookup_encR ..).trans rfl

theorem EncodingFits.srli (rd rs1 : RegNum) (shamt : BitVec 5) : EncodingFits.Statement (.srli rd rs1 shamt) :=
  (lookup_encR ..).trans rfl

theorem EncodingFits.srai (rd rs1 : RegNum) (shamt : BitVec 5) : EncodingFits.Statement (.srai rd rs1 shamt) :=
  (lookup_encR ..).trans rfl

theorem EncodingFits.div (rd rs1 rs2 : RegNum) : EncodingFits.Statement (.div rd rs1 rs2) :=
  (lookup_encR ..).trans rfl

theorem EncodingFits.divu (rd rs1 rs2 : RegNum) : EncodingFits.Statement (.divu rd rs1 rs2) :=
  (lookup_encR ..).trans rfl

theorem EncodingFits.rem (rd rs1 rs2 : RegNum) : EncodingFits.Statement (.rem rd rs1 rs2) :=
  (lookup_encR ..).trans rfl

theorem EncodingFits.remu (rd rs1 rs2 : RegNum) : EncodingFits.Statement (.remu rd rs1 rs2) :=
  (lookup_encR ..).trans rfl

theorem EncodingFits.lb (rd rs1 : RegNum) (imm : BitVec 12) : EncodingFits.Statement (.lb rd rs1 imm) :=
  (lookup_encI ..).trans rfl

theorem EncodingFits.lh (rd rs1 : RegNum) (imm : BitVec 12) : EncodingFits.Statement (.lh rd rs1 imm) :=
  (lookup_encI ..).trans rfl

theorem EncodingFits.lw (rd rs1 : RegNum) (imm : BitVec 12) : EncodingFits.Statement (.lw rd rs1 imm) :=
  (lookup_encI ..).trans rfl

theorem EncodingFits.lbu (rd rs1 : RegNum) (imm : BitVec 12) : EncodingFits.Statement (.lbu rd rs1 imm) :=
  (lookup_encI ..).trans rfl

theorem EncodingFits.lhu (rd rs1 : RegNum) (imm : BitVec 12) : EncodingFits.Statement (.lhu rd rs1 imm) :=
  (lookup_encI ..).trans rfl

theorem EncodingFits.sb (rs1 rs2 : RegNum) (imm : BitVec 12) : EncodingFits.Statement (.sb rs1 rs2 imm) :=
  (lookup_encS ..).trans rfl

theorem EncodingFits.sh (rs1 rs2 : RegNum) (imm : BitVec 12) : EncodingFits.Statement (.sh rs1 rs2 imm) :=
  (lookup_encS ..).trans rfl

theorem EncodingFits.sw (rs1 rs2 : RegNum) (imm : BitVec 12) : EncodingFits.Statement (.sw rs1 rs2 imm) :=
  (lookup_encS ..).trans rfl

theorem EncodingFits.ecall : EncodingFits.Statement .ecall :=
  rfl

theorem EncodingFits.mret : EncodingFits.Statement .mret :=
  rfl

end Sys2Proof.Laws
end

