-- ==== Sys2Proof/Tests/Slice0.lean ====
section
/-! SUPPORT. The model's own tests, each on values written out from the spec (95_test_vectors.md, levels L1 and L2),
and for every statement with hypotheses a state and operands that meet them. -/

namespace Sys2Proof.Tests

open Sys2Proof.Machine Sys2Proof.Safety Sys2Proof.Circuit

/-! ## Helpers -/

/-- A state with registers written one after the other. -/
def withRegs (s : State) : List (RegNum × Word) → State
  | [] => s
  | (r, v) :: rest => withRegs (s.writeReg r v) rest

/-- The state of a single-instruction vector: reset, then the pc, registers, memory words and the instruction. -/
def prepared (pc : Word) (regs : List (RegNum × Word)) (words : List (WordAddr × Word)) (word : Word) : State :=
  let s := withRegs { State.reset with pc := pc } regs
  State.placeWord { s with mem := s.mem.writeWords words } word

/-- The next state of a result. -/
def nextOf : Result → Option State
  | .next t => some t
  | .fault _ => none
  | .refused _ => none

theorem exists_next {r : Result} (h : (nextOf r).isSome = true) : ∃ t, r = .next t := by
  cases r with
  | next t => exact ⟨t, rfl⟩
  | fault c => simp [nextOf] at h
  | refused q => simp [nextOf] at h

/-- The violation or refusal of a result. -/
def stopOf : Result → Option (Fault ⊕ Refusal)
  | .next _ => none
  | .fault c => some (.inl c)
  | .refused q => some (.inr q)

theorem eq_fault {r : Result} {c : Fault} (h : stopOf r = some (.inl c)) : r = .fault c := by
  cases r <;> simp_all [stopOf]

theorem eq_refused {r : Result} {q : Refusal} (h : stopOf r = some (.inr q)) : r = .refused q := by
  cases r <;> simp_all [stopOf]

/-- A register and the pc after one step. -/
def regAfter (s : State) (r : RegNum) : Option (Word × Word) := (nextOf (step s)).map (fun t => (t.readReg r, t.pc))

/-- A word of memory and the pc after one step. -/
def wordAfter (s : State) (w : WordAddr) : Option (Word × Word) :=
  (nextOf (step s)).map (fun t => (t.mem.readWord w, t.pc))

/-- A tape with n honest answers and then one answer of the oracle's own. -/
def tapeAt (n v : Nat) : List (Option Nat) := List.replicate n none ++ [some v]

/-- What a unit answers under a tape: its result or the violation. -/
def answer {α : Type} (m : RowM α) (tape : List (Option Nat)) : α ⊕ Fault :=
  match m (RowState.start tape) with
  | .ok (a, _) => .inl a
  | .error c => .inr c

theorem exists_ok {α : Type} {m : RowM α} {tape : List (Option Nat)} (h : (answer m tape).isLeft = true) :
    ∃ a st, m (RowState.start tape) = .ok (a, st) := by
  unfold answer at h
  cases hm : m (RowState.start tape) with
  | ok x => exact ⟨x.1, x.2, rfl⟩
  | error c => simp [hm] at h

/-! ## The parameters of the constraint layer -/

/-- Major codes, one per group. -/
def testMajorCode : MajorGroup → Nat
  | .alu0 => 1 | .alu1 => 2 | .alu2 => 3 | .mul0 => 4 | .div0 => 5 | .mem0 => 6 | .mem1 => 7 | .ecall => 8 | .control => 9

/-- The spec's default prime with codes of the test's own. -/
def testConfig : FieldConfig := { p := Config.defaultFieldP, majorCode := testMajorCode, sysMinor := fun _ => 3 }

/-- The default FIELD_P is a prime (Lucas, with 31 as a primitive root). -/
theorem test_defaultFieldP_prime : Nat.Prime 2013265921 := by
  have hpow : ∀ n, n < 2 ^ 31 → ((31 : ZMod 2013265921) ^ n = ((powMod 2013265921 31 31 n : Nat) : ZMod 2013265921)) := by
    intro n hn
    rw [powMod_eq _ _ _ _ hn, ZMod.natCast_mod]
    push_cast
    rfl
  have hne : ∀ a : Nat, a < 2013265921 → a ≠ 1 → (a : ZMod 2013265921) ≠ 1 := by
    intro a ha hne e
    have h : ((a : Nat) : ZMod 2013265921) = ((1 : Nat) : ZMod 2013265921) := by rw [e]; norm_cast
    rw [ZMod.natCast_eq_natCast_iff, Nat.ModEq, Nat.mod_eq_of_lt ha] at h
    exact hne h
  refine lucas_primality _ (31 : ZMod 2013265921) ?_ ?_
  · rw [hpow _ (by decide)]
    have : powMod 2013265921 31 31 (2013265921 - 1) = 1 := by decide +kernel
    rw [this]; norm_cast
  · intro q hq hd
    have hf : (2013265921 - 1 : Nat) = 2 ^ 27 * 3 * 5 := by norm_num
    have hcases : q = 2 ∨ q = 3 ∨ q = 5 := by
      rw [hf] at hd
      rcases (Nat.Prime.dvd_mul hq).1 hd with hd | hd
      · rcases (Nat.Prime.dvd_mul hq).1 hd with hd | hd
        · exact .inl ((Nat.prime_dvd_prime_iff_eq hq Nat.prime_two).1 (hq.dvd_of_dvd_pow hd))
        · exact .inr (.inl ((Nat.prime_dvd_prime_iff_eq hq Nat.prime_three).1 hd))
      · exact .inr (.inr ((Nat.prime_dvd_prime_iff_eq hq Nat.prime_five).1 hd))
    rcases hcases with rfl | rfl | rfl <;> rw [hpow _ (by decide)] <;>
      exact hne _ (by decide +kernel) (by decide +kernel)

/-- The hypothesis on the parameters that every statement about the constraint layer has. -/
theorem witness_testConfig_ok : testConfig.Ok := by
  refine ⟨test_defaultFieldP_prime, by decide, ?_, ?_⟩
  · intro g; cases g <;> decide
  · intro op; show 3 < 8; decide

/-! ## WellFormed: each check refuses an ill-formed term -/

theorem test_wf_beq_odd : Instr.wf (.beq 1#5 2#5 3#13) = false := by decide
theorem test_wf_bne_odd : Instr.wf (.bne 1#5 2#5 0x1FFF#13) = false := by decide
theorem test_wf_blt_odd : Instr.wf (.blt 1#5 2#5 5#13) = false := by decide
theorem test_wf_bge_odd : Instr.wf (.bge 1#5 2#5 7#13) = false := by decide
theorem test_wf_bltu_odd : Instr.wf (.bltu 1#5 2#5 9#13) = false := by decide
theorem test_wf_bgeu_odd : Instr.wf (.bgeu 1#5 2#5 11#13) = false := by decide
theorem test_wf_jal_odd : Instr.wf (.jal 1#5 1#21) = false := by decide
theorem test_wf_even_offsets : Instr.wf (.beq 1#5 2#5 0x1FFE#13) = true ∧ Instr.wf (.jal 1#5 0#21) = true := by decide

/-! ## Decode: a word of every row (95_test_vectors.md L2.1, L2.4 to L2.11) -/

theorem test_decode_add : decodeWord 0x002081B3#32 = .ok (.add 3#5 1#5 2#5) := by decide
theorem test_decode_sub : decodeWord 0x402081B3#32 = .ok (.sub 3#5 1#5 2#5) := by decide
theorem test_decode_xor : decodeWord 0x0020C1B3#32 = .ok (.xor 3#5 1#5 2#5) := by decide
theorem test_decode_or : decodeWord 0x0020E1B3#32 = .ok (.or 3#5 1#5 2#5) := by decide
theorem test_decode_and : decodeWord 0x0020F1B3#32 = .ok (.and 3#5 1#5 2#5) := by decide
theorem test_decode_slt : decodeWord 0x0020A1B3#32 = .ok (.slt 3#5 1#5 2#5) := by decide
theorem test_decode_sltu : decodeWord 0x0020B1B3#32 = .ok (.sltu 3#5 1#5 2#5) := by decide
theorem test_decode_addi : decodeWord 0x80008113#32 = .ok (.addi 2#5 1#5 0x800#12) := by decide
theorem test_decode_xori : decodeWord 0x5550C113#32 = .ok (.xori 2#5 1#5 0x555#12) := by decide
theorem test_decode_ori : decodeWord 0x8000E113#32 = .ok (.ori 2#5 1#5 0x800#12) := by decide
theorem test_decode_andi : decodeWord 0x0FF0F113#32 = .ok (.andi 2#5 1#5 0xFF#12) := by decide
theorem test_decode_slti : decodeWord 0x8010A113#32 = .ok (.slti 2#5 1#5 0x801#12) := by decide
theorem test_decode_sltiu : decodeWord 0x0010B113#32 = .ok (.sltiu 2#5 1#5 1#12) := by decide
theorem test_decode_beq : decodeWord 0x00208463#32 = .ok (.beq 1#5 2#5 8#13) := by decide
theorem test_decode_bne : decodeWord 0xFE209EE3#32 = .ok (.bne 1#5 2#5 0x1FFC#13) := by decide
theorem test_decode_blt : decodeWord 0x0020C663#32 = .ok (.blt 1#5 2#5 12#13) := by decide
theorem test_decode_bge : decodeWord 0x0020D663#32 = .ok (.bge 1#5 2#5 12#13) := by decide
theorem test_decode_bltu : decodeWord 0x0020E863#32 = .ok (.bltu 1#5 2#5 16#13) := by decide
theorem test_decode_bgeu : decodeWord 0x0020F863#32 = .ok (.bgeu 1#5 2#5 16#13) := by decide
theorem test_decode_jal : decodeWord 0xFF9FF06F#32 = .ok (.jal 0#5 0x1FFFF8#21) := by decide
theorem test_decode_jalr : decodeWord 0x003280E7#32 = .ok (.jalr 1#5 5#5 3#12) := by decide
theorem test_decode_lui : decodeWord 0x123450B7#32 = .ok (.lui 1#5 0x12345#20) := by decide
theorem test_decode_auipc : decodeWord 0x00001297#32 = .ok (.auipc 5#5 1#20) := by decide
theorem test_decode_sll : decodeWord 0x002091B3#32 = .ok (.sll 3#5 1#5 2#5) := by decide
theorem test_decode_slli : decodeWord 0x01F09113#32 = .ok (.slli 2#5 1#5 31#5) := by decide
theorem test_decode_mul : decodeWord 0x022081B3#32 = .ok (.mul 3#5 1#5 2#5) := by decide
theorem test_decode_mulh : decodeWord 0x022091B3#32 = .ok (.mulh 3#5 1#5 2#5) := by decide
theorem test_decode_mulhsu : decodeWord 0x0220A1B3#32 = .ok (.mulhsu 3#5 1#5 2#5) := by decide
theorem test_decode_mulhu : decodeWord 0x0220B1B3#32 = .ok (.mulhu 3#5 1#5 2#5) := by decide
theorem test_decode_srl : decodeWord 0x0020D1B3#32 = .ok (.srl 3#5 1#5 2#5) := by decide
theorem test_decode_sra : decodeWord 0x4020D1B3#32 = .ok (.sra 3#5 1#5 2#5) := by decide
theorem test_decode_srli : decodeWord 0x0080D113#32 = .ok (.srli 2#5 1#5 8#5) := by decide
theorem test_decode_srai : decodeWord 0x41F0D113#32 = .ok (.srai 2#5 1#5 31#5) := by decide
theorem test_decode_div : decodeWord 0x0220C1B3#32 = .ok (.div 3#5 1#5 2#5) := by decide
theorem test_decode_divu : decodeWord 0x0220D1B3#32 = .ok (.divu 3#5 1#5 2#5) := by decide
theorem test_decode_rem : decodeWord 0x0220E1B3#32 = .ok (.rem 3#5 1#5 2#5) := by decide
theorem test_decode_remu : decodeWord 0x02B572B3#32 = .ok (.remu 5#5 10#5 11#5) := by decide
theorem test_decode_lb : decodeWord 0x00308103#32 = .ok (.lb 2#5 1#5 3#12) := by decide
theorem test_decode_lh : decodeWord 0x00209103#32 = .ok (.lh 2#5 1#5 2#12) := by decide
theorem test_decode_lw : decodeWord 0x0000A103#32 = .ok (.lw 2#5 1#5 0#12) := by decide
theorem test_decode_lbu : decodeWord 0x0030C103#32 = .ok (.lbu 2#5 1#5 3#12) := by decide
theorem test_decode_lhu : decodeWord 0x0020D103#32 = .ok (.lhu 2#5 1#5 2#12) := by decide
theorem test_decode_sb : decodeWord 0x002080A3#32 = .ok (.sb 1#5 2#5 1#12) := by decide
theorem test_decode_sh : decodeWord 0x00209123#32 = .ok (.sh 1#5 2#5 2#12) := by decide
theorem test_decode_sw : decodeWord 0xFE20AE23#32 = .ok (.sw 1#5 2#5 0xFFC#12) := by decide
theorem test_decode_ecall : decodeWord 0x00000073#32 = .ok .ecall := by decide
theorem test_decode_mret : decodeWord 0x30200073#32 = .ok .mret := by decide

/-- The illegal words of 95_test_vectors.md L2.2. -/
theorem test_illegal_words :
    ([0x00000000#32, 0xFFFFFFFF#32, 0x0000000F#32, 0x0000100F#32, 0x00100073#32, 0x10500073#32,
      0x10200073#32, 0xC0002573#32, 0x30002573#32, 0x0000102F#32, 0x0000000B#32, 0x00000007#32,
      0x00000053#32, 0x00000032#32, 0x00001067#32, 0x00002063#32, 0x00003063#32, 0x00003003#32,
      0x00006003#32, 0x00007003#32, 0x00003023#32, 0x00004023#32, 0x40001013#32, 0x02001013#32,
      0x02005013#32, 0x60005013#32, 0x40001033#32, 0x40002033#32, 0x40004033#32, 0x04000033#32] :
      List Word).map lookup = List.replicate 30 none := by decide +kernel

theorem test_ebreak_faults : step (prepared 0x1000#32 [] [] 0x00100073#32) = .fault .vIllegal := eq_fault (by decide)

/-- A short byte list is refused by name. -/
theorem test_decode_truncated : decode [0x13#8, 0#8] = .error .truncated := by decide

/-! ## One step of each instruction (95_test_vectors.md L2.4 to L2.10) -/

theorem test_add_x0_discarded :
    regAfter (prepared 0x1000#32 [(1#5, 0x5#32), (2#5, 0x6#32)] [] 0x208033#32) 0#5 = some (0x0#32, 0x1004#32) := by decide
theorem test_sub_signed_overflow :
    regAfter (prepared 0x1000#32 [(1#5, 0x80000000#32), (2#5, 0x1#32)] [] 0x402081B3#32) 3#5 = some (0x7FFFFFFF#32, 0x1004#32) := by decide
theorem test_xor_patterns :
    regAfter (prepared 0x1000#32 [(1#5, 0xF0F0F0F0#32), (2#5, 0xFF00FF00#32)] [] 0x20C1B3#32) 3#5 = some (0xFF00FF0#32, 0x1004#32) := by decide
theorem test_or_patterns :
    regAfter (prepared 0x1000#32 [(1#5, 0xF0F0F0F0#32), (2#5, 0xFF00FF00#32)] [] 0x20E1B3#32) 3#5 = some (0xFFF0FFF0#32, 0x1004#32) := by decide
theorem test_and_patterns :
    regAfter (prepared 0x1000#32 [(1#5, 0xF0F0F0F0#32), (2#5, 0xFF00FF00#32)] [] 0x20F1B3#32) 3#5 = some (0xF000F000#32, 0x1004#32) := by decide
theorem test_slt_overflowing_difference_reversed :
    regAfter (prepared 0x1000#32 [(1#5, 0x7FFFFFFF#32), (2#5, 0x80000000#32)] [] 0x20A1B3#32) 3#5 = some (0x0#32, 0x1004#32) := by decide
theorem test_sltu_high_bit :
    regAfter (prepared 0x1000#32 [(1#5, 0x80000000#32), (2#5, 0x7FFFFFFF#32)] [] 0x20B1B3#32) 3#5 = some (0x0#32, 0x1004#32) := by decide
theorem test_addi_negative :
    regAfter (prepared 0x1000#32 [(1#5, 0x0#32)] [] 0x80008113#32) 2#5 = some (0xFFFFF800#32, 0x1004#32) := by decide
theorem test_xori_all_ones :
    regAfter (prepared 0x1000#32 [(1#5, 0x12345678#32)] [] 0xFFF0C113#32) 2#5 = some (0xEDCBA987#32, 0x1004#32) := by decide
theorem test_ori_sign_extended :
    regAfter (prepared 0x1000#32 [(1#5, 0x12345678#32)] [] 0x8000E113#32) 2#5 = some (0xFFFFFE78#32, 0x1004#32) := by decide
theorem test_andi_sign_extended :
    regAfter (prepared 0x1000#32 [(1#5, 0x12345678#32)] [] 0x8000F113#32) 2#5 = some (0x12345000#32, 0x1004#32) := by decide
theorem test_slti_not_less :
    regAfter (prepared 0x1000#32 [(1#5, 0x0#32)] [] 0xFFF0A113#32) 2#5 = some (0x0#32, 0x1004#32) := by decide
theorem test_sltiu_equal :
    regAfter (prepared 0x1000#32 [(1#5, 0xFFFFFFFF#32)] [] 0xFFF0B113#32) 2#5 = some (0x0#32, 0x1004#32) := by decide
theorem test_beq_not_taken :
    regAfter (prepared 0x1000#32 [(1#5, 0x7#32), (2#5, 0x8#32)] [] 0x208463#32) 1#5 = some (0x7#32, 0x1004#32) := by decide
theorem test_bne_not_taken :
    regAfter (prepared 0x1000#32 [(1#5, 0x1#32), (2#5, 0x1#32)] [] 0xFE209EE3#32) 1#5 = some (0x1#32, 0x1004#32) := by decide
theorem test_blt_not_taken :
    regAfter (prepared 0x1000#32 [(1#5, 0x0#32), (2#5, 0xFFFFFFFF#32)] [] 0x20C663#32) 1#5 = some (0x0#32, 0x1004#32) := by decide
theorem test_bge_taken_equal :
    regAfter (prepared 0x1000#32 [(1#5, 0x5#32), (2#5, 0x5#32)] [] 0x20D663#32) 1#5 = some (0x5#32, 0x100C#32) := by decide
theorem test_bltu_taken :
    regAfter (prepared 0x1000#32 [(1#5, 0x0#32), (2#5, 0xFFFFFFFF#32)] [] 0x20E863#32) 1#5 = some (0x0#32, 0x1010#32) := by decide
theorem test_bgeu_not_taken :
    regAfter (prepared 0x1000#32 [(1#5, 0x0#32), (2#5, 0xFFFFFFFF#32)] [] 0x20F863#32) 1#5 = some (0x0#32, 0x1004#32) := by decide
theorem test_jal_backwards :
    regAfter (prepared 0x100#32 [] [] 0xFF9FF06F#32) 0#5 = some (0x0#32, 0xF8#32) := by decide
theorem test_jalr_rd_is_rs1 :
    regAfter (prepared 0x100#32 [(1#5, 0x2000#32)] [] 0x4080E7#32) 1#5 = some (0x104#32, 0x2004#32) := by decide
theorem test_lui_upper :
    regAfter (prepared 0x1000#32 [] [] 0x123450B7#32) 1#5 = some (0x12345000#32, 0x1004#32) := by decide
theorem test_auipc_wraps :
    regAfter (prepared 0xFFFFF000#32 [] [] 0x1297#32) 5#5 = some (0x0#32, 0xFFFFF004#32) := by decide
theorem test_sll_amount_modulo_32 :
    regAfter (prepared 0x1000#32 [(1#5, 0x12345678#32), (2#5, 0x24#32)] [] 0x2091B3#32) 3#5 = some (0x23456780#32, 0x1004#32) := by decide
theorem test_slli_thirty_one :
    regAfter (prepared 0x1000#32 [(1#5, 0x1#32)] [] 0x1F09113#32) 2#5 = some (0x80000000#32, 0x1004#32) := by decide
theorem test_mul_wraps :
    regAfter (prepared 0x1000#32 [(1#5, 0x80000000#32), (2#5, 0xFFFFFFFF#32)] [] 0x22081B3#32) 3#5 = some (0x80000000#32, 0x1004#32) := by decide
theorem test_mulh_negative :
    regAfter (prepared 0x1000#32 [(1#5, 0xFFFFFFFF#32), (2#5, 0x1#32)] [] 0x22091B3#32) 3#5 = some (0xFFFFFFFF#32, 0x1004#32) := by decide
theorem test_mulhsu_all_ones :
    regAfter (prepared 0x1000#32 [(1#5, 0xFFFFFFFF#32), (2#5, 0xFFFFFFFF#32)] [] 0x220A1B3#32) 3#5 = some (0xFFFFFFFF#32, 0x1004#32) := by decide
theorem test_mulhu_high_bit :
    regAfter (prepared 0x1000#32 [(1#5, 0x80000000#32), (2#5, 0xFFFFFFFF#32)] [] 0x220B1B3#32) 3#5 = some (0x7FFFFFFF#32, 0x1004#32) := by decide
theorem test_srl_zero_fill :
    regAfter (prepared 0x1000#32 [(1#5, 0xFFFFFFF9#32), (2#5, 0x1#32)] [] 0x20D1B3#32) 3#5 = some (0x7FFFFFFC#32, 0x1004#32) := by decide
theorem test_sra_sign_fill :
    regAfter (prepared 0x1000#32 [(1#5, 0xFFFFFFFF#32), (2#5, 0x11#32)] [] 0x4020D1B3#32) 3#5 = some (0xFFFFFFFF#32, 0x1004#32) := by decide
theorem test_srli_thirty_one :
    regAfter (prepared 0x1000#32 [(1#5, 0x80000000#32)] [] 0x1F0D113#32) 2#5 = some (0x1#32, 0x1004#32) := by decide
theorem test_srai_sign_fill :
    regAfter (prepared 0x1000#32 [(1#5, 0x80000000#32)] [] 0x4040D113#32) 2#5 = some (0xF8000000#32, 0x1004#32) := by decide
theorem test_div_overflow :
    regAfter (prepared 0x1000#32 [(1#5, 0x80000000#32), (2#5, 0xFFFFFFFF#32)] [] 0x220C1B3#32) 3#5 = some (0x80000000#32, 0x1004#32) := by decide
theorem test_divu_unsigned :
    regAfter (prepared 0x1000#32 [(1#5, 0xFFFFFFF9#32), (2#5, 0x2#32)] [] 0x220D1B3#32) 3#5 = some (0x7FFFFFFC#32, 0x1004#32) := by decide
theorem test_rem_by_zero :
    regAfter (prepared 0x1000#32 [(1#5, 0x14#32), (2#5, 0x0#32)] [] 0x220E1B3#32) 3#5 = some (0x14#32, 0x1004#32) := by decide
theorem test_remu_large_divisor :
    regAfter (prepared 0x1000#32 [(1#5, 0x80000000#32), (2#5, 0xFFFFFFFF#32)] [] 0x220F1B3#32) 3#5 = some (0x80000000#32, 0x1004#32) := by decide
theorem test_lb_lane_1 :
    regAfter (prepared 0x4000#32 [(1#5, 0x1000#32)] [(0x400#30, 0x80FF7F01#32)] 0x108103#32) 2#5 = some (0x7F#32, 0x4004#32) := by decide
theorem test_lh_misaligned :
    step (prepared 0x4000#32 [(1#5, 0x1000#32)] [(0x400#30, 0x80FF7F01#32)] 0x109103#32) = .fault .vMisaligned := eq_fault (by decide)
theorem test_lw_misaligned :
    step (prepared 0x4000#32 [(1#5, 0x1000#32)] [(0x400#30, 0x80FF7F01#32)] 0x20A103#32) = .fault .vMisaligned := eq_fault (by decide)
theorem test_lbu_lane_3 :
    regAfter (prepared 0x4000#32 [(1#5, 0x1000#32)] [(0x400#30, 0x80FF7F01#32)] 0x30C103#32) 2#5 = some (0x80#32, 0x4004#32) := by decide
theorem test_lhu_misaligned :
    step (prepared 0x4000#32 [(1#5, 0x1000#32)] [(0x400#30, 0x80FF7F01#32)] 0x30D103#32) = .fault .vMisaligned := eq_fault (by decide)
theorem test_sb_lane_3 :
    wordAfter (prepared 0x4000#32 [(1#5, 0x1000#32), (2#5, 0xABCDEF99#32)] [(0x400#30, 0x11223344#32)] 0x2081A3#32) 0x400#30 = some (0x99223344#32, 0x4004#32) := by decide
theorem test_sh_misaligned :
    step (prepared 0x4000#32 [(1#5, 0x1000#32), (2#5, 0xABCDEF99#32)] [(0x400#30, 0x11223344#32)] 0x2090A3#32) = .fault .vMisaligned := eq_fault (by decide)
theorem test_sw_misaligned :
    step (prepared 0x4000#32 [(1#5, 0x1000#32), (2#5, 0xABCDEF99#32)] [(0x400#30, 0x11223344#32)] 0x20A123#32) = .fault .vMisaligned := eq_fault (by decide)

/-! ## System instructions and the common checks (95_test_vectors.md L2.11, L2.12) -/

theorem test_ecall_default : step (prepared 0x1000#32 [] [] 0x73#32) = .refused (.control 0x73#32 0x1000#32) := eq_refused (by decide)
theorem test_mret_default :
    step (prepared 0x1000#32 [] [] 0x30200073#32) = .refused (.control 0x30200073#32 0x1000#32) := eq_refused (by decide)

/-- A permission that refuses one kind of access to the words around 0x1000. -/
def denies (kind : AccessKind) (s : State) : State :=
  { s with params := { s.params with denied := [⟨none, kind, 0x400#30, 0x400#30⟩] } }

theorem test_vState : step { prepared 0x1002#32 [] [] 0#32 with istate := 1 } = .fault .vState := eq_fault (by decide)
theorem test_vFetchAlign : step (prepared 0x1002#32 [] [] 0x00000013#32) = .fault .vFetchAlign := eq_fault (by decide)
theorem test_vMem_fetch : step (denies .fetch (prepared 0x1000#32 [] [] 0x00000013#32)) = .fault .vMem := eq_fault (by decide)
theorem test_vMem_load :
    step (denies .load (prepared 0x4000#32 [(1#5, 0x1000#32)] [] 0x0000A103#32)) = .fault .vMem := eq_fault (by decide)
theorem test_vMem_store :
    step (denies .store (prepared 0x4000#32 [(1#5, 0x1000#32)] [] 0x0020A023#32)) = .fault .vMem := eq_fault (by decide)
theorem test_vMisaligned_before_vMem :
    step (denies .load (prepared 0x4000#32 [(1#5, 0x1000#32)] [] 0x0020A103#32)) = .fault .vMisaligned := eq_fault (by decide)
theorem test_vControl :
    step { prepared 0x1000#32 [] [] 0x73#32 with control := [.violation] } = .fault .vControl := eq_fault (by decide)

/-! ## The constraint layer (95_test_vectors.md L2.1, L2.3, L2.12) -/

/-- The word of `add x3, x1, x2` with x1 and x2 set. -/
def addState : State := prepared 0x1000#32 [(1#5, 0xFFFFFFFF#32), (2#5, 1#32)] [] 0x002081B3#32

theorem test_circuit_add : nextOf (circuitStep testConfig [] addState) = nextOf (step addState) := by decide +kernel
theorem test_circuit_div :
    (nextOf (circuitStep testConfig [] (prepared 0x1000#32 [(1#5, 0xFFFFFFF9#32), (2#5, 2#32)] [] 0x0220C1B3#32))).map
      (fun t => t.readReg 3#5) = some 0xFFFFFFFD#32 := by decide +kernel

/-- The cells of rd0, rd12 and op of the word 0x002081B3 tampered with. -/
theorem test_decoder_tampered :
    answer (decodeRow testConfig.p (ValU32.ofWord 0x002081B3#32)) (tapeAt 2 5) = .inr .vTwit ∧
    answer (decodeRow testConfig.p (ValU32.ofWord 0x002081B3#32)) [none, some 3, some 0] = .inr .vBit ∧
    answer (decodeRow testConfig.p (ValU32.ofWord 0x002081B3#32)) [some 0xB3, some 0] = .inr .vU8 ∧
    answer (decodeRow testConfig.p (ValU32.ofWord 0x002081B3#32)) (tapeAt 6 0) = .inr .vReassemble ∧
    answer (decodeRow testConfig.p ⟨65536, 0⟩) [] = .inr .vReassemble := by decide +kernel

theorem test_normalize_carries :
    answer (normalize testConfig.p 0x1FFFF 0x1FFFE) [] = .inl (⟨0xFFFF, 0xFFFF⟩, 1) ∧
    answer (normalize testConfig.p 0x10000 0xFFFF) [] = .inl (⟨0, 0⟩, 1) ∧
    answer (normalize testConfig.p 0x1FFFE 0) [some 0xFFFE, some 0] = .inr .vNorm ∧
    answer (normalize testConfig.p 0x1FFFE 0) [some 0x1FFFE, some 0] = .inr .vU16 := by decide +kernel

/-- DoDiv under a given oracle answer. -/
def divAnswer (n d : Word) (signed : Bool) (q r : Word) : Option Fault :=
  match answer (doDiv testConfig.p (ValU32.ofWord n) (ValU32.ofWord d) signed)
      [some (q.toNat % 65536), some (q.toNat / 65536), some (r.toNat % 65536), some (r.toNat / 65536)] with
  | .inl _ => none
  | .inr c => some c

theorem test_doDiv_accepts :
    divAnswer 0x14#32 0#32 true 0xFFFFFFFF#32 0x14#32 = none ∧
    divAnswer 0x80000000#32 0xFFFFFFFF#32 true 0x80000000#32 0#32 = none ∧
    divAnswer 0xFFFFFFF9#32 2#32 true 0xFFFFFFFD#32 0xFFFFFFFF#32 = none ∧
    divAnswer 0x80000000#32 0xFFFFFFFF#32 false 0#32 0x80000000#32 = none := by decide +kernel

theorem test_doDiv_rejects :
    divAnswer 0x14#32 0#32 true 0#32 0x14#32 = some .vDiv ∧
    divAnswer 0x80000000#32 0xFFFFFFFF#32 true 0x80000000#32 1#32 = some .vDiv ∧
    divAnswer 0xFFFFFFF9#32 2#32 true 0xFFFFFFFC#32 1#32 = some .vDiv ∧
    divAnswer 0x64#32 7#32 false 0xD#32 9#32 = some .vDiv ∧
    divAnswer 0x64#32 7#32 false 0xF#32 0xFFFFFFFB#32 = some .vDiv := by decide +kernel

theorem test_multiplyAccumulate :
    answer (multiplyAccumulate testConfig.p (ValU32.ofWord 0xFFFFFFFD#32) (ValU32.ofWord 2#32)
      (ValU32.ofWord 0xFFFFFFFF#32) true true true) [] =
      .inl (ValU32.ofWord 0xFFFFFFF9#32, ValU32.ofWord 0xFFFFFFFF#32) := by decide +kernel

/-- The oracle names MUL0 for an ADD; its minor one-hot has two ones. -/
theorem test_dispatch_bound :
    circuitStep testConfig [some 4] addState = .fault .vDispatch ∧
    circuitStep testConfig (tapeAt 3 1) addState = .fault .vOnehot :=
  ⟨eq_fault (by decide +kernel), eq_fault (by decide +kernel)⟩

/-! ## Witnesses: the hypotheses of each statement can be met -/

/-- The output record of a control subsystem that writes one word twice. -/
def sampleResult : ControlResult :=
  { newPc := 0x2000#32, newState := 5, newMode := 1
    writes := [(0x500#30, 1#32), (0x600#30, 3#32), (0x500#30, 2#32)] }

/-- An ECALL that the control subsystem will answer. -/
def answeredState : State := { prepared 0x1000#32 [] [] 0x73#32 with control := [.result sampleResult] }

/-- The add of `addState` with stores to the slot of x0 refused. -/
def guardedState : State :=
  { addState with params := { addState.params with denied := [⟨none, .store, Config.initRegBase, Config.initRegBase⟩] } }

/-- `sw x2, -4(x1)` that reaches the slot of x1, next to that of x0. -/
def slotStore : State := prepared 0x4000#32 [(1#5, 0xFFFFFF88#32), (2#5, 7#32)] [] 0xFE20AE23#32

/-- `sw x2, 4(x1)` at 0x1000 with x1 = 0x1000: it stores `addi x5, x0, 42` over the next instruction. -/
def selfModifying : State := prepared 0x1000#32 [(1#5, 0x1000#32), (2#5, 0x02A00293#32)] [] 0x0020A223#32

/-- `jalr x1, 10(x1)` with x1 = 0x1000, whose target is not a multiple of 4 (95_test_vectors.md P6). -/
def misalignedJump : State := prepared 0x1004#32 [(1#5, 0x1000#32)] [] 0x00A080E7#32

theorem witness_StepKeepsInvariant :
    (KeptInv addState ∧ ∃ t, step addState = .next t) ∧ KeptInv answeredState ∧ ∃ t, step answeredState = .next t := by
  refine ⟨⟨⟨by decide, by decide, ?_⟩, exists_next (by decide)⟩, ⟨by decide, by decide, ?_⟩, exists_next (by decide)⟩
  · intro r h; exact absurd h (by simp [addState, prepared, withRegs, State.placeWord, State.writeReg, State.reset])
  · intro r h
    have : r = sampleResult := by simpa [answeredState] using h
    subst this; decide

theorem witness_X0SlotKeptByInstructions :
    handsOver (.sw 1#5 2#5 0xFFC#12) = false ∧
      storedWord (.sw 1#5 2#5 0xFFC#12) slotStore ≠ some (slotStore.slot 0#5) ∧
      slotStore.mem.readWord (slotStore.slot 0#5) = 0#32 ∧ ∃ t, exec (.sw 1#5 2#5 0xFFC#12) slotStore = .next t :=
  ⟨by decide, by decide, by decide, exists_next (by decide)⟩

theorem witness_X0InvariantKeptBySteps : X0Inv guardedState ∧ ∃ t, step guardedState = .next t :=
  ⟨⟨by decide, by decide, by decide, by decide⟩, exists_next (by decide)⟩

theorem witness_HandoffFieldsKept :
    { addState with istate := 1 }.istate ≠ addState.params.stateDecode ∧
      decodeWord addState.fetchWord = .ok (.add 3#5 1#5 2#5) ∧ handsOver (.add 3#5 1#5 2#5) = false ∧
      ∃ t, step addState = .next t :=
  ⟨by decide, by decide, by decide, exists_next (by decide)⟩

theorem fetchOk_addState : FetchOk addState := ⟨by decide, by decide, by decide⟩

theorem witness_StepRunsDecoded :
    FetchOk addState ∧ (Instr.add 3#5 1#5 2#5).wf = true ∧
      decode [addState.mem.readByte addState.pc.toNat, addState.mem.readByte (addState.pc.toNat + 1),
        addState.mem.readByte (addState.pc.toNat + 2), addState.mem.readByte (addState.pc.toNat + 3)] =
        .ok (.add 3#5 1#5 2#5, []) :=
  ⟨fetchOk_addState, by decide, by decide⟩

/-- Each clause, the pc at every remainder of 4. -/
theorem witness_CommonChecksInOrder :
    { addState with istate := 2 }.istate ≠ addState.params.stateDecode ∧
      (prepared 0x1001#32 [] [] 0#32).pc.toNat % 4 ≠ 0 ∧ (prepared 0x1002#32 [] [] 0#32).pc.toNat % 4 ≠ 0 ∧
      (prepared 0xFFFFFFFF#32 [] [] 0#32).pc.toNat % 4 ≠ 0 ∧
      (denies .fetch addState).addrOk .fetch (wordAddrOf (denies .fetch addState).pc) = false ∧
      (denies .fetch addState).istate = (denies .fetch addState).params.stateDecode ∧ (denies .fetch addState).pc.toNat % 4 = 0 ∧
      lookupByMask ((prepared 0x1000#32 [] [] 0xF#32).mem.readWord
        (wordAddrOf (prepared 0x1000#32 [] [] 0xF#32).pc)) = none := by decide

theorem fetchOk_illegal : FetchOk (prepared 0x1000#32 [] [] 0x0000000F#32) := ⟨by decide, by decide, by decide⟩

/-- A fetch in order of an illegal and of a legal word. -/
theorem witness_IllegalWordsFault :
    (FetchOk (prepared 0x1000#32 [] [] 0x0000000F#32) ∧
      step (prepared 0x1000#32 [] [] 0x0000000F#32) = .fault .vIllegal) ∧
    FetchOk addState ∧ step addState ≠ .fault .vIllegal :=
  ⟨⟨fetchOk_illegal, eq_fault (by decide)⟩, fetchOk_addState, fun h => by
    obtain ⟨t, ht⟩ := exists_next (r := step addState) (by decide)
    rw [ht] at h; cases h⟩

theorem witness_LookupMatchesTable :
    lookup 0x002081B3#32 = some .add ∧ ∃ r ∈ opcodeTable, r.op = .add ∧ 0x002081B3#32 &&& r.mask = r.mtch := by decide

theorem witness_DecodeEncode :
    Instr.wf (.beq 31#5 0#5 0x1FFE#13) = true ∧ Instr.wf (.jal 31#5 0x1FFFFE#21) = true ∧
      Instr.wf (.addi 0#5 31#5 0x800#12) = true := by decide

theorem witness_EncodeDecode : decodeWord 0xFE209EE3#32 = .ok (.bne 1#5 2#5 0x1FFC#13) := by decide

/-- A state whose x1 and x2 hold a dividend and a divisor. -/
def divState (n d : Word) : State := withRegs State.reset [(1#5, n), (2#5, d)]

/-- Each clause, the general one beside the overflow at 0x80000000 / 1 and at 0x80000001 / -1. -/
theorem witness_SignedDivisionComputes :
    (divState 5#32 0#32).readReg 2#5 = 0#32 ∧
    (divState 0x80000000#32 0xFFFFFFFF#32).readReg 1#5 = 0x80000000#32 ∧
    (divState 0x80000000#32 0xFFFFFFFF#32).readReg 2#5 = 0xFFFFFFFF#32 ∧
    (divState 0x80000000#32 1#32).readReg 2#5 ≠ 0#32 ∧
    ¬ ((divState 0x80000000#32 1#32).readReg 1#5 = 0x80000000#32 ∧
      (divState 0x80000000#32 1#32).readReg 2#5 = 0xFFFFFFFF#32) ∧
    ¬ ((divState 0x80000001#32 0xFFFFFFFF#32).readReg 1#5 = 0x80000000#32 ∧
      (divState 0x80000001#32 0xFFFFFFFF#32).readReg 2#5 = 0xFFFFFFFF#32) := by decide

theorem witness_UnsignedDivisionComputes :
    (divState 5#32 0#32).readReg 2#5 = 0#32 ∧
    (divState 0xFFFFFFFF#32 1#32).readReg 2#5 ≠ 0#32 := by decide

theorem witness_JumpsLink :
    unsigned (u32 (unsigned (misalignedJump.readReg 1#5) + sextInt 10#12)) = 0x100A := by
  decide

/-- A state whose x1 holds an address and whose x2 holds data. -/
def accessState (a : Word) : State := withRegs State.reset [(1#5, a), (2#5, 0xABCDEF99#32)]

/-- Each load at the top of the address space. -/
theorem witness_ByteAndHalfLoadsCompute :
    (accessState 0xFFFFFFFE#32).addrOk .load (wordAddrOf ((accessState 0xFFFFFFFE#32).effAddr 1#5 1#12)) = true ∧
    (accessState 0xFFFFFFFE#32).addrOk .load (wordAddrOf ((accessState 0xFFFFFFFE#32).effAddr 1#5 0#12)) = true ∧
    ((accessState 0xFFFFFFFE#32).effAddr 1#5 0#12).toNat % 2 = 0 := by decide

theorem witness_WordLoadComputes :
    (accessState 0#32).addrOk .load (wordAddrOf ((accessState 0#32).effAddr 1#5 0xFFC#12)) = true ∧
    ((accessState 0#32).effAddr 1#5 0xFFC#12).toNat % 4 = 0 := by decide

theorem witness_StoresWriteTheirBytes :
    (accessState 0x1000#32).addrOk .store (wordAddrOf ((accessState 0x1000#32).effAddr 1#5 3#12)) = true ∧
    ((accessState 0x1000#32).effAddr 1#5 2#12).toNat % 2 = 0 ∧
    ((accessState 0x1000#32).effAddr 1#5 0xFFC#12).toNat % 4 = 0 := by decide

/-- Addresses on both sides of each alignment rule. -/
theorem witness_MisalignedAccessFaults :
    ((accessState 0x1000#32).effAddr 1#5 2#12).toNat % 4 ≠ 0 ∧ ((accessState 0x1000#32).effAddr 1#5 2#12).toNat % 2 = 0 ∧
    ((accessState 0x1000#32).effAddr 1#5 3#12).toNat % 2 ≠ 0 := by decide

theorem witness_RefusedAccessFaults :
    (denies .load (accessState 0x1000#32)).addrOk .load
      (wordAddrOf ((denies .load (accessState 0x1000#32)).effAddr 1#5 0#12)) = false ∧
    (denies .store (accessState 0x1000#32)).addrOk .store
      (wordAddrOf ((denies .store (accessState 0x1000#32)).effAddr 1#5 3#12)) = false := by decide

theorem fetchOk_ecall : FetchOk (prepared 0x1000#32 [] [] 0x73#32) := ⟨by decide, by decide, by decide⟩
theorem fetchOk_mret : FetchOk (prepared 0x1000#32 [] [] 0x30200073#32) := ⟨by decide, by decide, by decide⟩

theorem witness_DefaultControlEndsTheRun :
    (FetchOk (prepared 0x1000#32 [] [] 0x73#32) ∧ (none : Option Word) ≠ some (prepared 0x1000#32 [] [] 0x73#32).pc ∧
      (prepared 0x1000#32 [] [] 0x73#32).control = [] ∧ (prepared 0x1000#32 [] [] 0x73#32).fetchWord = 0x73#32) ∧
    (FetchOk (prepared 0x1000#32 [] [] 0x30200073#32) ∧ (prepared 0x1000#32 [] [] 0x30200073#32).control = [] ∧
      (prepared 0x1000#32 [] [] 0x30200073#32).fetchWord = 0x30200073#32) ∧
    { addState with control := [.violation] }.control = ControlAnswer.violation :: [] :=
  ⟨⟨fetchOk_ecall, by decide, by decide, by decide⟩, ⟨fetchOk_mret, by decide, by decide⟩, by decide⟩

/-- A word written twice takes the later value, and one not written keeps its own. -/
theorem witness_ControlResultApplies :
    answeredState.control = .result sampleResult :: [] ∧
    sampleResult.writes = [(0x500#30, 1#32), (0x600#30, 3#32)] ++ (0x500#30, 2#32) :: [] ∧
    ((nextOf (exec .ecall answeredState)).map (fun t => (t.mem.readWord 0x500#30, t.mem.readWord 0x400#30, t.mode)) =
      some (2#32, 0x73#32, 1)) := by decide

theorem witness_HintsChangeOnlyThePc :
    computedReg (.addi 0#5 0#5 0#12) = some 0#5 ∧ addState.mem.readWord (addState.slot 0#5) = 0#32 ∧
      addState.mem.wf = true ∧ ∀ k < 4, (addState.mem.listed (4 * (addState.slot 0#5).toNat + k)).isSome := by decide

/-- The state after the store of `selfModifying`. -/
def modified : State := (nextOf (step selfModifying)).getD selfModifying

theorem step_selfModifying : step selfModifying = .next modified := by
  obtain ⟨t, h⟩ := exists_next (r := step selfModifying) (by decide)
  rw [modified, h]; rfl

theorem fetchOk_modified : FetchOk modified := ⟨by decide, by decide, by decide⟩

theorem witness_StoredWordIsNextFetched :
    decodeWord selfModifying.fetchWord = .ok (.sw 1#5 2#5 4#12) ∧
      selfModifying.effAddr 1#5 4#12 = u32 (unsigned selfModifying.pc + 4) ∧ step selfModifying = .next modified ∧
      FetchOk modified ∧ decodeWord (selfModifying.readReg 2#5) = .ok (.addi 5#5 0#5 42#12) :=
  ⟨by decide, by decide, step_selfModifying, fetchOk_modified, by decide⟩

theorem witness_SlotAccessIsRegisterAccess :
    (1#5 : RegNum) ≠ 0#5 ∧
      (slotStore.effAddr 1#5 0xFFC#12).toNat = 4 * (slotStore.slot 1#5).toNat ∧
      slotStore.addrOk .store (slotStore.slot 1#5) = true ∧ slotStore.addrOk .load (slotStore.slot 1#5) = true := by
  decide

theorem witness_MisalignedTargetFaultsAtFetch :
    decodeWord misalignedJump.fetchWord = .ok (.jalr 1#5 1#5 10#12) ∧ transfersControl (.jalr 1#5 1#5 10#12) = true ∧
      (nextOf (step misalignedJump)).map (fun t => t.pc.toNat % 4) = some 2 := by decide

/-- Both cases: an instruction of files 41 to 47, and an ECALL that uses an answer up. -/
theorem witness_StepUsesOneCycle : (∃ t, step addState = .next t) ∧ ∃ t, step answeredState = .next t :=
  ⟨exists_next (by decide), exists_next (by decide)⟩

/-- A run that halts, one that stops, one that is invalid and one that is cut. -/
theorem witness_BlockRunEndings :
    blockRun (some 0x1000#32) 0 addState = .halted addState ∧
    blockRun none 1 (prepared 0x1000#32 [] [] 0x73#32) =
      .stopped (.control 0x73#32 0x1000#32) (prepared 0x1000#32 [] [] 0x73#32) ∧
    blockRun none 2 misalignedJump = .invalid .vFetchAlign ∧ blockRun none 0 addState = .cut addState := by decide

/-- The corners of the bounds of Normalize. -/
theorem witness_NormalizeUnit :
    (0 : Int) ≤ 131071 ∧ (131071 : Int) ≤ 131071 ∧ (0 : Int) ≤ 131070 ∧ (131070 : Int) ≤ 131070 := by decide

/-- Both clauses of the address split: a multiple of 4, and an address that suits only a byte access. -/
theorem witness_AddressSplitUnit :
    (0xFFFFFFFC#32 : Word).toNat % AccessSize.bytes .word = 0 ∧ (0x1003#32 : Word).toNat % AccessSize.bytes .half ≠ 0 := by
  decide

/-- Pairs of halves that are not canonical, one per half. -/
theorem witness_DecoderUnit :
    65536 ≤ (⟨65536, 0⟩ : ValU32).low % (testConfig.p : Int) ∧ 65536 ≤ (⟨0, -1⟩ : ValU32).high % (testConfig.p : Int) := by
  decide

/-- The decoder has a satisfying witness. -/
theorem witness_ImmediateSums :
    (answer (decodeRow testConfig.p (ValU32.ofWord 0xFE20AE23#32)) []).getLeft?.map Decoded.immS =
      some (ValU32.ofWord 0xFFFFFFFC#32) := by decide +kernel

theorem witness_PowerTableUnit : 31 < 32 ∧ 32 ≤ (32 : Int) % (testConfig.p : Int) ∧ 32 ≤ (-1 : Int) % (testConfig.p : Int) := by
  decide

/-- DoDiv has a satisfying witness in each row of its table. -/
theorem witness_DivisionSoundness :
    (answer (doDiv testConfig.p (ValU32.ofWord 5#32) ⟨0, 0⟩ true) []).isLeft = true ∧
    (answer (doDiv testConfig.p (ValU32.ofWord 0x80000000#32) (ValU32.ofWord 0xFFFFFFFF#32) true) []).isLeft = true ∧
    (answer (doDiv testConfig.p (ValU32.ofWord 5#32) (ValU32.ofWord 3#32) true) []).isLeft = true ∧
    (answer (doDiv testConfig.p (ValU32.ofWord 5#32) (ValU32.ofWord 3#32) false) []).isLeft = true := by decide +kernel

theorem witness_DivisionCompleteness :
    answer (doDiv testConfig.p (ValU32.ofWord 0xFFFFFFF9#32) (ValU32.ofWord 2#32) true) [] =
      .inl (ValU32.ofWord 0xFFFFFFFD#32, ValU32.ofWord 0xFFFFFFFF#32) := by decide +kernel

theorem witness_ArithmeticShiftUnit :
    0 < 32 ∧ 31 < 32 ∧ (answer (shiftArithRow testConfig.p (ValU32.ofWord 0x80000000#32) (ValU32.ofWord (u32 (2 ^ 31)))) [])
      = .inl (ValU32.ofWord 0xFFFFFFFF#32) := by decide +kernel

/-- The last lane of each access size. -/
theorem witness_LaneUnits :
    (3#2 : BitVec 2).toNat % AccessSize.bytes .byte = 0 ∧ (2#2 : BitVec 2).toNat % AccessSize.bytes .half = 0 ∧
      (0#2 : BitVec 2).toNat % AccessSize.bytes .word = 0 := by decide

/-- The dispatch pair of ADD, and that of ECALL, given by the oracle. -/
theorem witness_DispatchIsBound :
    (decodeWord addState.fetchWord = .ok (.add 3#5 1#5 2#5) ∧ handsOver (.add 3#5 1#5 2#5) = false ∧
      ∃ rowEnd st, rowCycle testConfig addState (RowState.start (some 1 :: some 0 :: [])) = .ok (rowEnd, st)) ∧
    decodeWord answeredState.fetchWord = .ok .ecall ∧
      ∃ rowEnd st, rowCycle testConfig answeredState (RowState.start (some 8 :: some 3 :: [])) = .ok (rowEnd, st) :=
  ⟨⟨by decide +kernel, by decide +kernel, exists_ok (by decide +kernel)⟩, by decide +kernel, exists_ok (by decide +kernel)⟩

/-- The major of ECALL is bound though its minor is not. -/
theorem test_dispatch_ecall_major : circuitStep testConfig [some 9] answeredState = .fault .vDispatch :=
  eq_fault (by decide +kernel)

theorem witness_TransactionOrder :
    decodeWord slotStore.fetchWord = .ok (.sw 1#5 2#5 0xFFC#12) ∧ (∃ t, step slotStore = .next t) ∧
      (cycleTxns testConfig [] slotStore).map Txn.kind = [.fetch, .regRead, .regRead, .store] :=
  ⟨by decide +kernel, exists_next (by decide +kernel), by decide +kernel⟩

/-- The three clauses: a tape of the oracle's own that satisfies the row, an unanswered ECALL, a violation. -/
theorem witness_CircuitIsSound :
    (∃ t, circuitStep testConfig [some 1, some 0, some 1] addState = .next t) ∧
    circuitStep testConfig [] (prepared 0x1000#32 [] [] 0x73#32) = .refused (.control 0x73#32 0x1000#32) ∧
    step (prepared 0x1000#32 [] [] 0xF#32) = .fault .vIllegal :=
  ⟨exists_next (by decide +kernel), eq_refused (by decide +kernel), eq_fault (by decide +kernel)⟩

end Sys2Proof.Tests
end

section
/-! SUPPORT. Loads and stores that pass their checks (47_load_store.md), and what every step does to the model's
own fields (10_state.md R34). -/

namespace Sys2Proof.Safety

open Sys2Proof.Machine

/-! ## Accesses that pass their checks -/

/-- An instruction that is a load, its access aligned and permitted, computes the extended word (47_load_store.md
R316). -/
theorem computes_of_loadFrom {i : Instr} {size : AccessSize} {extend : Word → BitVec 2 → Word} {s : State}
    {rd rs1 : RegNum} {imm : BitVec 12} {v : Word} {n : Nat} (hi : exec i s = loadFrom size extend rd rs1 imm s)
    (hb : size.bytes = n) (ha : (s.effAddr rs1 imm).toNat % n = 0)
    (hok : s.addrOk .load (wordAddrOf (s.effAddr rs1 imm)) = true)
    (hv : extend (s.mem.readWord (wordAddrOf (s.effAddr rs1 imm))) (laneOf (s.effAddr rs1 imm)) = v) :
    Computes i s rd v (u32 (unsigned s.pc + 4)) := by
  have hn := accessViolation_eq_none.2 ⟨(aligned_iff size _).2 (hb ▸ ha), hok⟩
  rcases loadFrom_cases size extend rd rs1 imm s with ⟨c, hc, -⟩ | ⟨-, hnext⟩
  · rw [hn] at hc; cases hc
  · exact ⟨_, hi.trans hnext, hv ▸ writesReg_retire s rd _⟩

/-- An instruction that is a store, its access aligned and permitted, writes the bytes it names (47_load_store.md
R322, R323). -/
theorem storesBytes_of_storeTo {i : Instr} {size : AccessSize} {s : State} {rs1 rs2 : RegNum} {imm : BitVec 12} {n : Nat}
    (hi : exec i s = storeTo size rs1 rs2 imm s) (hb : size.bytes = n) (ha : (s.effAddr rs1 imm).toNat % n = 0)
    (hok : s.addrOk .store (wordAddrOf (s.effAddr rs1 imm)) = true) :
    ∃ t, exec i s = .next t ∧ StoresBytes s t size (s.effAddr rs1 imm) (s.readReg rs2) := by
  have hal := (aligned_iff size _).2 (hb ▸ ha)
  rcases storeTo_cases size rs1 rs2 imm s with ⟨c, hc, -⟩ | ⟨-, hnext⟩
  · rw [accessViolation_eq_none.2 ⟨hal, hok⟩] at hc; cases hc
  · exact ⟨_, hi.trans hnext, storesBytes_store hal _⟩

/-! ## What the loads read -/

/-- The byte at an address as `MemRead` of one byte (00_scope.md R12). -/
theorem ofNat_memRead_one (m : Memory) (a : Nat) : BitVec.ofNat 8 (memRead m a 1) = m.readByte a := by
  simp [memRead]

/-- A zero-extended value is the u32 of its unsigned reading (00_scope.md R9). -/
theorem u32_toNat {n : Nat} (v : BitVec n) : u32 (v.toNat : Int) = v.setWidth 32 := by
  unfold u32
  rw [BitVec.ofInt_natCast, BitVec.ofNat_toNat]

/-- LB's value (47_load_store.md R317). -/
theorem signExtend_byteSel (m : Memory) (addr : Word) :
    (byteSel (m.readWord (wordAddrOf addr)) (laneOf addr)).signExtend 32 =
      u32 (sextInt (BitVec.ofNat 8 (memRead m addr.toNat 1))) := by
  rw [ofNat_memRead_one, u32_sextInt, byteSel_readWord]

/-- LBU's value (47_load_store.md R320). -/
theorem setWidth_byteSel (m : Memory) (addr : Word) :
    (byteSel (m.readWord (wordAddrOf addr)) (laneOf addr)).setWidth 32 = u32 (memRead m addr.toNat 1 : Nat) := by
  rw [byteSel_readWord, ← u32_toNat]
  rfl

/-- LH's value (47_load_store.md R318). -/
theorem signExtend_halfSel (m : Memory) {addr : Word} (ha : addr.toNat % 2 = 0) :
    (halfSel (m.readWord (wordAddrOf addr)) (laneOf addr)).signExtend 32 =
      u32 (sextInt (BitVec.ofNat 16 (memRead m addr.toNat 2))) := by
  rw [← halfSel_readWord m ha, BitVec.ofNat_toNat, BitVec.setWidth_eq, u32_sextInt]

/-- LHU's value (47_load_store.md R321). -/
theorem setWidth_halfSel (m : Memory) {addr : Word} (ha : addr.toNat % 2 = 0) :
    (halfSel (m.readWord (wordAddrOf addr)) (laneOf addr)).setWidth 32 = u32 (memRead m addr.toNat 2 : Nat) := by
  rw [← halfSel_readWord m ha, u32_toNat]

/-- LW's value (47_load_store.md R319). -/
theorem readWord_eq_u32 (m : Memory) {addr : Word} (ha : addr.toNat % 4 = 0) :
    m.readWord (wordAddrOf addr) = u32 (memRead m addr.toNat 4 : Nat) := by
  rw [← readWord_aligned m ha, u32_toNat, BitVec.setWidth_eq]

/-! ## The loads as one operation -/

theorem exec_lb (rd rs1 : RegNum) (imm : BitVec 12) (s : State) : exec (.lb rd rs1 imm) s =
    loadFrom .byte (fun word lane => (byteSel word lane).signExtend 32) rd rs1 imm s := rfl

theorem exec_lh (rd rs1 : RegNum) (imm : BitVec 12) (s : State) : exec (.lh rd rs1 imm) s =
    loadFrom .half (fun word lane => (halfSel word lane).signExtend 32) rd rs1 imm s := rfl

theorem exec_lw (rd rs1 : RegNum) (imm : BitVec 12) (s : State) : exec (.lw rd rs1 imm) s =
    loadFrom .word (fun word _ => word) rd rs1 imm s := rfl

theorem exec_lbu (rd rs1 : RegNum) (imm : BitVec 12) (s : State) : exec (.lbu rd rs1 imm) s =
    loadFrom .byte (fun word lane => (byteSel word lane).setWidth 32) rd rs1 imm s := rfl

theorem exec_lhu (rd rs1 : RegNum) (imm : BitVec 12) (s : State) : exec (.lhu rd rs1 imm) s =
    loadFrom .half (fun word lane => (halfSel word lane).setWidth 32) rd rs1 imm s := rfl

/-! ## The statements on loads and stores -/

/-- Settles O25: each load passes its checks, and its value is the extension of what `MemRead` reads. -/
theorem byteAndHalfLoadsCompute : Obligations.ByteAndHalfLoadsCompute := by
  intro s rd rs1 imm hok
  refine ⟨effAddr_eq_u32 s rs1 imm, ?lb, ?lbu, fun heven => ?lh, fun heven => ?lhu⟩
  case lb => exact computes_of_loadFrom (exec_lb ..) rfl (Nat.mod_one _) hok (signExtend_byteSel s.mem _)
  case lbu => exact computes_of_loadFrom (exec_lbu ..) rfl (Nat.mod_one _) hok (setWidth_byteSel s.mem _)
  case lh => exact computes_of_loadFrom (exec_lh ..) rfl heven hok (signExtend_halfSel s.mem heven)
  case lhu => exact computes_of_loadFrom (exec_lhu ..) rfl heven hok (setWidth_halfSel s.mem heven)

/-- Settles O26: the aligned word is the four bytes that `MemRead` reads. -/
theorem wordLoadComputes : Obligations.WordLoadComputes := fun s _ rs1 imm hok ha =>
  ⟨effAddr_eq_u32 s rs1 imm, computes_of_loadFrom (exec_lw ..) rfl ha hok (readWord_eq_u32 s.mem ha)⟩

/-- Settles O27: the three sizes are one store that passes its checks. -/
theorem storesWriteTheirBytes : Obligations.StoresWriteTheirBytes := fun s rs1 _ imm hok =>
  ⟨effAddr_eq_u32 s rs1 imm, storesBytes_of_storeTo rfl rfl (Nat.mod_one _) hok,
    fun ha => storesBytes_of_storeTo rfl rfl ha hok,
    fun ha => storesBytes_of_storeTo rfl rfl ha hok⟩

/-! ## The bookkeeping of a step -/

/-- Every instruction keeps the cycle counter and the OPEN parameters (10_state.md R34). -/
theorem exec_keeps_cycle_params {i : Instr} {s t : State} (h : exec i s = .next t) :
    t.cycle = s.cycle ∧ t.params = s.params := by
  rcases exec_next_cases h with ⟨_, _, rfl⟩ | ⟨_, _, -, rfl⟩ | ⟨_, _, -, rfl⟩ | ⟨_, _, _, -, -, rfl⟩ |
    ⟨_, _, -, rfl⟩ <;> exact ⟨rfl, rfl⟩

/-- A load takes no control answer. -/
theorem loadFrom_control {size : AccessSize} {extend : Word → BitVec 2 → Word} {rd rs1 : RegNum} {imm : BitVec 12}
    {s t : State} (h : loadFrom size extend rd rs1 imm s = .next t) : t.control = s.control := by
  rcases loadFrom_cases size extend rd rs1 imm s with ⟨c, -, hc⟩ | ⟨-, hc⟩ <;> rw [hc] at h <;> cases h
  rfl

/-- A store takes no control answer. -/
theorem storeTo_control {size : AccessSize} {rs1 rs2 : RegNum} {imm : BitVec 12} {s t : State}
    (h : storeTo size rs1 rs2 imm s = .next t) : t.control = s.control := by
  rcases storeTo_cases size rs1 rs2 imm s with ⟨c, -, hc⟩ | ⟨-, hc⟩ <;> rw [hc] at h <;> cases h
  rfl

/-- A hand-off that completes takes the first answer, a result (48_system.md R340). -/
theorem controlStep_control {word : Word} {s t : State} (h : controlStep word s = .next t) :
    ∃ r, s.control = .result r :: t.control := by
  rcases controlStep_cases word s with ⟨-, hc⟩ | ⟨rest, -, hc⟩ | ⟨r, rest, he, hc⟩ <;> rw [hc] at h <;> cases h
  exact ⟨r, he⟩

/-- An instruction of files 41 to 47 takes no control answer. -/
theorem exec_control_of_not_handsOver {i : Instr} {s t : State} (hi : handsOver i = false)
    (h : exec i s = .next t) : t.control = s.control := by
  cases i <;> simp only [exec] at h
  case lb | lh | lw | lbu | lhu => exact loadFrom_control h
  case sb | sh | sw => exact storeTo_control h
  case ecall | mret => cases hi
  all_goals cases h; rfl

/-- ECALL and MRET take the first control answer (48_system.md R342, R343). -/
theorem exec_control_of_handsOver {i : Instr} {s t : State} (hi : handsOver i = true)
    (h : exec i s = .next t) : ∃ r, s.control = .result r :: t.control := by
  cases i <;> cases hi <;> exact controlStep_control h

/-- Settles O36: `tick` adds the cycle; the instruction keeps the rest or takes one control answer. -/
theorem stepUsesOneCycle : Obligations.StepUsesOneCycle := by
  intro s t h
  obtain ⟨i, u, -, hd, he, rfl⟩ := step_next_cases h
  obtain ⟨hcycle, hparams⟩ := exec_keeps_cycle_params he
  refine ⟨congrArg (· + 1) hcycle, hparams, ?_⟩
  cases hi : handsOver i with
  | false =>
    have hcontrol : u.control = s.control := exec_control_of_not_handsOver hi he
    exact .inl ⟨hcontrol, i, hd, hi⟩
  | true =>
    have hcontrol : ∃ r, s.control = .result r :: u.control := exec_control_of_handsOver hi he
    exact .inr ⟨hcontrol, i, hd, hi⟩

end Sys2Proof.Safety
end

section
/-! SUPPORT. What the value layer, the comparators and the bitwise unit of the constraint layer compute
(40_primitives.md, 42_compare.md, 43_bitwise.md), and what it means for a part of a row to have one outcome, a
violation among them. -/

namespace Sys2Proof.Safety

open Sys2Proof.Machine Sys2Proof.Circuit

variable {α β : Type}

/-! ## One outcome -/

/-- The honest witness raises this violation, and no witness satisfies the constraints. -/
def Violates (m : RowM α) (code : Fault) : Prop :=
  (∀ st, st.tape = [] → m st = .error code) ∧ EverySatisfying m (fun _ => False)

/-- A part of a row with one outcome: a result that it determines, or a violation. -/
def Answers (m : RowM α) : Except Fault α → Prop
  | .ok a => Determined m a
  | .error code => Violates m code

theorem violates_violation (code : Fault) : Violates (violation code : RowM α) code :=
  ⟨fun _ _ => rfl, everySatisfying_violation⟩

theorem violates_bind_left {m : RowM α} {f : α → RowM β} {code : Fault} (h : Violates m code) :
    Violates (m >>= f) code :=
  ⟨fun st hst => bind_error (h.1 st hst), everySatisfying_bind (everySatisfying_mono h.2 fun _ e => e.elim)⟩

theorem violates_bind_right {m : RowM α} {f : α → RowM β} {a : α} {code : Fault} (h : Determined m a)
    (hf : Violates (f a) code) : Violates (m >>= f) code := by
  refine ⟨fun st hst => ?_, everySatisfying_bind (everySatisfying_mono h.2 fun _ e => e ▸ hf.2)⟩
  obtain ⟨st1, h1, ht⟩ := h.1 st hst
  exact (bind_ok h1).trans (hf.1 st1 ht)

theorem answers_bind {m : RowM α} {f : α → RowM β} {a : α} {r : Except Fault β} (h : Determined m a)
    (hf : Answers (f a) r) : Answers (m >>= f) r := by
  cases r with
  | ok b => exact determined_bind h hf
  | error code => exact violates_bind_right h hf

theorem determined_of_eq {m : RowM α} {a b : α} (h : Determined m a) (e : a = b) : Determined m b := e ▸ h

/-- A condition of the environment (00_scope.md R13). -/
theorem answers_require (cond : Bool) (code : Fault) :
    Answers (require cond code) (if cond = true then .ok () else .error code) := by
  unfold require
  split
  · exact determined_pure ()
  · exact violates_violation code

/-- An equality between integers of the field, checked. -/
theorem determined_assertEq {p : Nat} {a b : Int} (code : Fault) (h : (a - b) % (p : Int) = 0) :
    Determined (assertEq p a b code) () := ⟨assertEq_honest h, fun _ _ _ _ => rfl⟩

theorem violates_assertEq {p : Nat} {a b : Int} (code : Fault) (h : (a - b) % (p : Int) ≠ 0) :
    Violates (assertEq p a b code) code := by
  unfold assertEq
  rw [if_neg h]
  exact violates_violation code

/-- The first component of a determined pair. -/
theorem determined_firstOf {m : RowM (α × β)} {a : α} {b : β} (h : Determined m (a, b)) :
    Determined (firstOf m) a := determined_bind h (determined_pure a)

/-- The second component of a determined pair. -/
theorem determined_secondOf {m : RowM (α × β)} {a : α} {b : β} (h : Determined m (a, b)) :
    Determined (secondOf m) b := determined_bind h (determined_pure b)

/-! ## Sums and differences -/

section

variable {p : Nat}

/-- Normalize within the bounds of 40_primitives.md R137. -/
theorem determined_normalize (hp : p.Prime) (hb : 2 ^ 28 < p) {l h : Int} (l0 : 0 ≤ l) (l1 : l ≤ 131071)
    (h0 : 0 ≤ h) (h1 : h ≤ 131070) :
    Determined (Circuit.normalize p l h) (⟨l % 65536, (h + l / 65536) % 65536⟩, (h + l / 65536) / 65536) := by
  have hb' : (268435456 : Int) < p := by exact_mod_cast hb
  constructor
  · unfold Circuit.normalize
    refine honestGives_cell (by omega) (by omega) ?_
    refine honestGives_u16 (by omega) (by omega) (by omega) ?_
    refine honestGives_cell (by omega) (by omega) ?_
    refine honestGives_bit (by omega) ?_
    refine honestGives_assertEq (by rw [Int.emod_eq_zero_of_dvd]; exact ⟨0, by omega⟩) ?_
    refine honestGives_cell (by omega) (by omega) ?_
    refine honestGives_u16 (by omega) (by omega) (by omega) ?_
    refine honestGives_cell (by omega) (by omega) ?_
    refine honestGives_bit (by omega) ?_
    exact honestGives_assertEq (by rw [Int.emod_eq_zero_of_dvd]; exact ⟨0, by omega⟩) (honestGives_pure _)
  · unfold Circuit.normalize
    refine everySatisfying_cell (by omega) fun lo a0 a1 => ?_
    refine everySatisfying_u16 a0 a1 fun a2 => ?_
    refine everySatisfying_cell (by omega) fun c0 b0 b1 => ?_
    refine everySatisfying_bit hp b0 b1 fun b2 => ?_
    refine everySatisfying_assertEq fun e0 => ?_
    refine everySatisfying_cell (by omega) fun hi d0 d1 => ?_
    refine everySatisfying_u16 d0 d1 fun d2 => ?_
    refine everySatisfying_cell (by omega) fun c1 f0 f1 => ?_
    refine everySatisfying_bit hp f0 f1 fun f2 => ?_
    refine everySatisfying_assertEq fun e1 => everySatisfying_pure ?_
    have g0 := eq_of_sub_emod_eq_zero e0 l0 (by omega) (by omega) (by omega)
    have g1 := eq_of_sub_emod_eq_zero e1 (by omega) (by omega) (by omega) (by omega)
    rw [Prod.mk.injEq, ValU32.mk.injEq]
    omega

/-- The halves of a word, and the word of its halves. -/
theorem eq_ofWord_iff {low high : Int} {v : Word} :
    (⟨low, high⟩ : ValU32) = ValU32.ofWord v ↔ low = (v.toNat % 65536 : Nat) ∧ high = (v.toNat / 65536 : Nat) := by
  rw [ValU32.ofWord, ValU32.mk.injEq]

/-- Add32 (40_primitives.md R140): the sum and its carry. -/
theorem determined_add32 (hp : p.Prime) (hb : 2 ^ 28 < p) (a b : Word) :
    Determined (add32 p (ValU32.ofWord a) (ValU32.ofWord b))
      (ValU32.ofWord (a + b), (unsigned a + unsigned b) / 2 ^ 32) := by
  have ha := a.isLt
  have hb' := b.isLt
  have hs := BitVec.toNat_add a b
  have hn := determined_normalize hp hb (l := (a.toNat % 65536 : Nat) + (b.toNat % 65536 : Nat))
    (h := (a.toNat / 65536 : Nat) + (b.toNat / 65536 : Nat)) (by omega) (by omega) (by omega) (by omega)
  refine determined_of_eq hn ?_
  rw [Prod.mk.injEq, eq_ofWord_iff, hs]
  unfold unsigned
  omega

/-- Sub32 (40_primitives.md R140): the difference, and 1 where there is no borrow. -/
theorem determined_sub32 (hp : p.Prime) (hb : 2 ^ 28 < p) (a b : Word) :
    Determined (sub32 p (ValU32.ofWord a) (ValU32.ofWord b))
      (ValU32.ofWord (a - b), if unsigned b ≤ unsigned a then 1 else 0) := by
  have ha := a.isLt
  have hb' := b.isLt
  have hs := BitVec.toNat_sub a b
  have hn := determined_normalize hp hb (l := (a.toNat % 65536 : Nat) + 65536 - (b.toNat % 65536 : Nat))
    (h := (a.toNat / 65536 : Nat) + 65535 - (b.toNat / 65536 : Nat)) (by omega) (by omega) (by omega) (by omega)
  refine determined_of_eq hn ?_
  rw [Prod.mk.injEq, eq_ofWord_iff, hs]
  unfold unsigned
  split <;> omega

/-! ## Zero, equality and the address split -/

theorem fieldInv_bounds (hp : p.Prime) (x : Int) : 0 ≤ fieldInv p x ∧ fieldInv p x < p := by
  have hlt : p - 2 < 2 ^ (Nat.log2 p + 1) := lt_of_le_of_lt (Nat.sub_le _ _) Nat.lt_log2_self
  unfold fieldInv
  rw [powMod_eq _ _ _ _ hlt]
  have := Nat.mod_lt ((x % (p : Int)).toNat ^ (p - 2)) hp.pos
  omega

/-- IsZero (40_primitives.md R142). -/
theorem determined_isZero (hp : p.Prime) (x : Int) : Determined (isZero p x) (if x % (p : Int) = 0 then 1 else 0) := by
  have h1 : (1 : Int) < p := by exact_mod_cast hp.one_lt
  have hinv := fieldInv_bounds hp x
  constructor
  · unfold isZero
    refine honestGives_cell (by split <;> omega) (by split <;> omega) ?_
    refine honestGives_cell (by split <;> omega) (by split <;> omega) ?_
    by_cases hx : x % (p : Int) = 0
    · simp only [if_pos hx]
      refine honestGives_assertEq (by simpa using hx) ?_
      exact honestGives_assertEq (by simp) (honestGives_pure _)
    · simp only [if_neg hx]
      refine honestGives_assertEq (by simp) ?_
      refine honestGives_assertEq ?_ (honestGives_pure _)
      exact Int.emod_eq_emod_iff_emod_sub_eq_zero.1 (mul_fieldInv hp hx)
  · unfold isZero
    refine everySatisfying_cell hp.pos fun z z0 z1 => ?_
    refine everySatisfying_cell hp.pos fun inv _ _ => ?_
    refine everySatisfying_assertEq fun e0 => ?_
    refine everySatisfying_assertEq fun e1 => everySatisfying_pure ?_
    rw [sub_zero, mul_emod_eq_zero hp, Int.emod_eq_of_lt z0 z1] at e0
    split
    · next hx =>
      have hd : (x * inv) % (p : Int) = 0 := (mul_emod_eq_zero hp).2 (.inl hx)
      have hz : (1 - z) % (p : Int) = 0 := by
        rw [← Int.emod_eq_emod_iff_emod_sub_eq_zero, hd] at e1; exact e1.symm
      exact (eq_of_sub_emod_eq_zero hz (by decide) h1 z0 z1).symm
    · next hx => exact e0.resolve_left hx

/-- EqU32 (40_primitives.md R143). -/
theorem determined_eqU32 (hp : p.Prime) (hb : 2 ^ 28 < p) (a b : Word) :
    Determined (eqU32 p (ValU32.ofWord a) (ValU32.ofWord b)) (asBit (eqU a b)) := by
  have hb' : (268435456 : Int) < p := by exact_mod_cast hb
  have ha := a.isLt
  have hbw := b.isLt
  have hzero : ∀ x y : Nat, x < 65536 → y < 65536 → (((x : Int) - y) % (p : Int) = 0 ↔ x = y) := by
    intro x y hx hy
    refine ⟨fun e => ?_, fun e => by simp [e]⟩
    exact_mod_cast eq_of_sub_emod_eq_zero e (by omega) (by omega) (by omega) (by omega)
  have he : a = b ↔ a.toNat % 65536 = b.toNat % 65536 ∧ a.toNat / 65536 = b.toNat / 65536 := by
    rw [← BitVec.toNat_inj]; omega
  refine determined_bind (determined_isZero hp _) (determined_bind (determined_isZero hp _) ?_)
  refine determined_of_eq (determined_pure _) ?_
  simp only [ofWord_low, ofWord_high, hzero _ _ (Nat.mod_lt a.toNat (by decide)) (Nat.mod_lt b.toNat (by decide)),
    hzero (a.toNat / 65536) (b.toNat / 65536) (by omega) (by omega)]
  unfold asBit eqU
  simp only [beq_iff_eq, he]
  split_ifs <;> simp_all

/-- The cells of AddrSplit before its alignment assertions (40_primitives.md R150): the rest and the two low bits. -/
def addrPieces (p : Nat) (addr : ValU32) : RowM (Int × Int × Int) := do
  let b0 ← cell p (addr.low % 2)
  bit p b0
  let b1 ← cell p (addr.low / 2 % 2)
  bit p b1
  let rest ← cell p (addr.low / 4)
  u16 p rest
  u16 p (4 * rest)
  assertEq p addr.low (b0 + 2 * b1 + 4 * rest) .vNorm
  pure (rest, b0, b1)

/-- The alignment assertions of AddrSplit (40_primitives.md R150). -/
def alignRow (p : Nat) (kind : AccessSize) (b0 b1 : Int) (code : Fault) : RowM Unit :=
  match kind with
  | .byte => pure ()
  | .half => assertEq p b0 0 code
  | .word => do
    assertEq p b0 0 code
    assertEq p b1 0 code

theorem addrSplit_eq (p : Nat) (addr : ValU32) (kind : AccessSize) (code : Fault) :
    addrSplit p addr kind code = addrPieces p addr >>= fun q =>
      alignRow p kind q.2.1 q.2.2 code >>= fun _ => pure (q.1 + 16384 * addr.high, q.2.1, q.2.2) := by
  cases kind <;> simp [addrSplit, addrPieces, alignRow]

theorem determined_addrPieces (hp : p.Prime) (hb : 2 ^ 28 < p) (addr : Word) :
    Determined (addrPieces p (ValU32.ofWord addr))
      ((addr.toNat % 65536 / 4 : Nat), (addr.toNat % 2 : Nat), (addr.toNat / 2 % 2 : Nat)) := by
  have hb' : (268435456 : Int) < p := by exact_mod_cast hb
  constructor
  · unfold addrPieces
    simp only [ofWord_low]
    convert_to HonestGives _ (((addr.toNat % 65536 : Nat) : Int) / 4, ((addr.toNat % 65536 : Nat) : Int) % 2,
      ((addr.toNat % 65536 : Nat) : Int) / 2 % 2) using 1
    · simp only [Prod.mk.injEq]; omega
    refine honestGives_cell (by omega) (by omega) ?_
    refine honestGives_bit (by omega) ?_
    refine honestGives_cell (by omega) (by omega) ?_
    refine honestGives_bit (by omega) ?_
    refine honestGives_cell (by omega) (by omega) ?_
    refine honestGives_u16 (by omega) (by omega) (by omega) ?_
    refine honestGives_u16 (by omega) (by omega) (by omega) ?_
    exact honestGives_assertEq (by rw [Int.emod_eq_zero_of_dvd]; exact ⟨0, by omega⟩) (honestGives_pure _)
  · unfold addrPieces
    simp only [ofWord_low]
    refine everySatisfying_cell (by omega) fun b0 a0 a1 => ?_
    refine everySatisfying_bit hp a0 a1 fun a2 => ?_
    refine everySatisfying_cell (by omega) fun b1 c0 c1 => ?_
    refine everySatisfying_bit hp c0 c1 fun c2 => ?_
    refine everySatisfying_cell (by omega) fun rest d0 d1 => ?_
    refine everySatisfying_u16 d0 d1 fun d2 => ?_
    refine everySatisfying_u16 (by omega) (by omega) fun d3 => ?_
    refine everySatisfying_assertEq fun e => everySatisfying_pure ?_
    have g := eq_of_sub_emod_eq_zero e (by omega) (by omega) (by omega) (by omega)
    simp only [Prod.mk.injEq]
    omega

/-- The alignment assertions hold exactly where the low bits suit the kind (20_memory.md R67). -/
theorem answers_alignRow (hp : p.Prime) (addr : Word) (kind : AccessSize) (code : Fault) :
    Answers (alignRow p kind (addr.toNat % 2 : Nat) (addr.toNat / 2 % 2 : Nat) code)
      (if addr.toNat % kind.bytes = 0 then .ok () else .error code) := by
  have h1 : (1 : Int) < p := by exact_mod_cast hp.one_lt
  have hbit : ∀ b : Nat, b < 2 →
      Answers (assertEq p (b : Int) 0 code) (if b = 0 then .ok () else .error code) := by
    intro b hb2
    split
    · next h0 => exact determined_assertEq code (by simp [h0])
    · next h0 =>
      refine violates_assertEq code ?_
      rw [sub_zero, Int.emod_eq_of_lt (by omega) (by omega)]
      omega
  cases kind with
  | byte =>
    rw [AccessSize.bytes, if_pos (Nat.mod_one _)]
    exact determined_pure ()
  | half => exact hbit _ (Nat.mod_lt _ (by decide))
  | word =>
    have hb0 := hbit (addr.toNat % 2) (Nat.mod_lt _ (by decide))
    have hb1 := hbit (addr.toNat / 2 % 2) (Nat.mod_lt _ (by decide))
    have h4 : addr.toNat % 4 = 0 ↔ addr.toNat % 2 = 0 ∧ addr.toNat / 2 % 2 = 0 := by omega
    simp only [AccessSize.bytes, h4]
    by_cases h0 : addr.toNat % 2 = 0
    · rw [if_pos h0] at hb0
      simp only [eq_true h0, true_and]
      exact answers_bind hb0 hb1
    · rw [if_neg h0] at hb0
      simp only [eq_false h0, false_and, if_false]
      exact violates_bind_left hb0

/-- AddrSplit (40_primitives.md R150): the word address and the two low bits, or the alignment code. -/
theorem answers_addrSplit (hp : p.Prime) (hb : 2 ^ 28 < p) (addr : Word) (kind : AccessSize) (code : Fault) :
    Answers (addrSplit p (ValU32.ofWord addr) kind code)
      (if addr.toNat % kind.bytes = 0 then
        .ok ((addr.toNat / 4 : Nat), (addr.toNat % 2 : Nat), (addr.toNat / 2 % 2 : Nat))
      else .error code) := by
  rw [addrSplit_eq]
  refine answers_bind (determined_addrPieces hp hb addr) ?_
  have halign := answers_alignRow hp addr kind code
  split at halign
  · next ha =>
    rw [if_pos ha]
    refine determined_bind halign (determined_of_eq (determined_pure _) ?_)
    have := addr.isLt
    simp only [ofWord_high, Prod.mk.injEq, and_true]
    omega
  · next ha =>
    rw [if_neg ha]
    exact violates_bind_left halign

/-- ClearBit0 (40_primitives.md R151). -/
theorem determined_clearBit0Row (hp : p.Prime) (hb : 2 ^ 28 < p) (v : Word) :
    Determined (clearBit0Row p (ValU32.ofWord v)) (ValU32.ofWord (clearBit0 v)) := by
  have hb' : (268435456 : Int) < p := by exact_mod_cast hb
  have hc := clearBit0_toNat v
  have hv := v.isLt
  have hval : ∀ rest : Int, rest = (v.toNat % 65536 : Nat) / 2 →
      (⟨2 * rest, (v.toNat / 65536 : Nat)⟩ : ValU32) = ValU32.ofWord (clearBit0 v) := by
    intro rest hr
    rw [eq_ofWord_iff, hc]
    omega
  constructor
  · unfold clearBit0Row
    simp only [ofWord_low, ofWord_high]
    refine honestGives_cell (by omega) (by omega) ?_
    refine honestGives_bit (by omega) ?_
    refine honestGives_cell (by omega) (by omega) ?_
    refine honestGives_u16 (by omega) (by omega) (by omega) ?_
    refine honestGives_u16 (by omega) (by omega) (by omega) ?_
    refine honestGives_assertEq (by rw [Int.emod_eq_zero_of_dvd]; exact ⟨0, by omega⟩) ?_
    rw [hval _ rfl]
    exact honestGives_pure _
  · unfold clearBit0Row
    simp only [ofWord_low, ofWord_high]
    refine everySatisfying_cell (by omega) fun b0 a0 a1 => ?_
    refine everySatisfying_bit hp a0 a1 fun a2 => ?_
    refine everySatisfying_cell (by omega) fun rest d0 d1 => ?_
    refine everySatisfying_u16 d0 d1 fun d2 => ?_
    refine everySatisfying_u16 (by omega) (by omega) fun d3 => ?_
    refine everySatisfying_assertEq fun e => everySatisfying_pure (hval _ ?_)
    have g := eq_of_sub_emod_eq_zero e (by omega) (by omega) (by omega) (by omega)
    omega

/-! ## Comparators -/

/-- LtU (42_compare.md R190). -/
theorem determined_ltURow (hp : p.Prime) (hb : 2 ^ 28 < p) (a b : Word) :
    Determined (ltURow p (ValU32.ofWord a) (ValU32.ofWord b)) (asBit (ltU a b)) := by
  refine determined_bind (determined_sub32 hp hb a b) ?_
  refine determined_of_eq (determined_pure _) ?_
  unfold asBit ltU carrySub unsigned
  by_cases h : b.toNat ≤ a.toNat <;> simp [h]

/-- The sign bit of a word, read from its high half (40_primitives.md R144). -/
theorem determined_topBit_word (hp : p.Prime) (hb : 2 ^ 28 < p) (v : Word) :
    Determined (topBit p (ValU32.ofWord v).high) (asBit v.msb) := by
  have hv := v.isLt
  refine determined_of_eq (determined_topBit hp hb (h := (v.toNat / 65536 : Nat)) (by omega) (by omega)) ?_
  unfold asBit
  rw [BitVec.msb_eq_decide]
  simp only [Nat.add_one_sub_one, decide_eq_true_eq]
  split <;> omega

/-- The comparator's formula on sign bits (42_compare.md R191). -/
theorem ltS_eq (a b : Word) :
    asBit (ltS a b) =
      let ovf := asBit a.msb * (1 - asBit b.msb) * (1 - asBit (a - b).msb)
        + (1 - asBit a.msb) * asBit b.msb * asBit (a - b).msb
      ovf + asBit (a - b).msb - 2 * ovf * asBit (a - b).msb := by
  have ha := a.isLt
  have hb := b.isLt
  have hs := BitVec.toNat_sub a b
  unfold asBit ltS
  simp only [BitVec.msb_eq_decide, BitVec.toInt_eq_toNat_cond, hs, decide_eq_true_eq]
  split_ifs <;> omega

/-- LtS (42_compare.md R191, R192). -/
theorem determined_ltSRow (hp : p.Prime) (hb : 2 ^ 28 < p) (a b : Word) :
    Determined (ltSRow p (ValU32.ofWord a) (ValU32.ofWord b)) (asBit (ltS a b)) := by
  refine determined_bind (determined_topBit_word hp hb a) ?_
  refine determined_bind (determined_topBit_word hp hb b) ?_
  refine determined_bind (determined_sub32 hp hb a b) ?_
  refine determined_bind (determined_topBit_word hp hb (a - b)) ?_
  rw [ltS_eq]
  exact determined_pure _

/-! ## The bitwise unit -/

/-- The products of binary digits are the digits of the AND (43_bitwise.md R211). -/
theorem weighted_zipWith_binaryDigits : ∀ (n : Nat) {a b : Nat}, a < 2 ^ n →
    weighted (List.zipWith (fun x y => x * y) (binaryDigits n a) (binaryDigits n b)) = (a &&& b : Nat)
  | 0, a, b, ha => by
    have h0 : a = 0 := by simpa using ha
    subst h0
    simp [binaryDigits, weighted]
  | n + 1, a, b, ha => by
    rw [pow_succ] at ha
    have ih := weighted_zipWith_binaryDigits n (a := a / 2) (b := b / 2) (by omega)
    have hdiv := Nat.and_div_two (a := a) (b := b)
    have hmod : (a &&& b) % 2 = a % 2 * (b % 2) := by
      rw [← pow_one 2, Nat.and_mod_two_pow, pow_one]
      rcases Nat.mod_two_eq_zero_or_one a with e | e <;> rcases Nat.mod_two_eq_zero_or_one b with f | f <;>
        simp [e, f]
    have hcast : (a : Int) % 2 * ((b : Int) % 2) = ((a &&& b) % 2 : Nat) := by rw [hmod]; push_cast; rfl
    have ea : (a : Int) / 2 = (a / 2 : Nat) := by omega
    have eb : (b : Int) / 2 = (b / 2 : Nat) := by omega
    simp only [binaryDigits, List.zipWith_cons_cons, weighted]
    rw [ea, eb, ih, ← hdiv, hcast]
    omega

/-- Sum and bitwise operations of natural numbers (43_bitwise.md R212). -/
theorem or_add_and (a b : Nat) : (a ||| b) + (a &&& b) = a + b := by
  induction a using Nat.strongRecOn generalizing b with
  | _ a ih =>
    by_cases h0 : a = 0
    · simp [h0]
    · have h := ih (a / 2) (by omega) (b / 2)
      rw [← Nat.or_div_two, ← Nat.and_div_two] at h
      have ho : (a ||| b) % 2 = (a % 2 ||| b % 2) := by rw [← pow_one 2, Nat.or_mod_two_pow]
      have ha : (a &&& b) % 2 = (a % 2 &&& b % 2) := by rw [← pow_one 2, Nat.and_mod_two_pow]
      rcases Nat.mod_two_eq_zero_or_one a with e | e <;> rcases Nat.mod_two_eq_zero_or_one b with f | f <;>
        simp only [e, f, Nat.zero_or, Nat.or_zero, Nat.zero_and, Nat.and_zero, Nat.or_self, Nat.and_self] at ho ha <;>
        omega

theorem xor_add_two_mul_and (a b : Nat) : (a ^^^ b) + 2 * (a &&& b) = a + b := by
  induction a using Nat.strongRecOn generalizing b with
  | _ a ih =>
    by_cases h0 : a = 0
    · simp [h0]
    · have h := ih (a / 2) (by omega) (b / 2)
      rw [← Nat.xor_div_two, ← Nat.and_div_two] at h
      have ho : (a ^^^ b) % 2 = (a % 2 ^^^ b % 2) := by rw [← pow_one 2, Nat.xor_mod_two_pow]
      have ha : (a &&& b) % 2 = (a % 2 &&& b % 2) := by rw [← pow_one 2, Nat.and_mod_two_pow]
      rcases Nat.mod_two_eq_zero_or_one a with e | e <;> rcases Nat.mod_two_eq_zero_or_one b with f | f <;>
        simp only [e, f, Nat.zero_xor, Nat.xor_zero, Nat.zero_and, Nat.and_zero, Nat.xor_self, Nat.and_self] at ho ha <;>
        omega

/-- The halves of a bitwise operation are the operation on the halves. -/
theorem toNat_and_halves (a b : Word) :
    (a &&& b).toNat % 65536 = (a.toNat % 65536 &&& b.toNat % 65536) ∧
      (a &&& b).toNat / 65536 = (a.toNat / 65536 &&& b.toNat / 65536) := by
  rw [BitVec.toNat_and]
  exact ⟨Nat.and_mod_two_pow (n := 16), Nat.and_div_two_pow (n := 16)⟩

theorem toNat_or_halves (a b : Word) :
    (a ||| b).toNat % 65536 = (a.toNat % 65536 ||| b.toNat % 65536) ∧
      (a ||| b).toNat / 65536 = (a.toNat / 65536 ||| b.toNat / 65536) := by
  rw [BitVec.toNat_or]
  exact ⟨Nat.or_mod_two_pow (n := 16), Nat.or_div_two_pow (n := 16)⟩

theorem toNat_xor_halves (a b : Word) :
    (a ^^^ b).toNat % 65536 = (a.toNat % 65536 ^^^ b.toNat % 65536) ∧
      (a ^^^ b).toNat / 65536 = (a.toNat / 65536 ^^^ b.toNat / 65536) := by
  rw [BitVec.toNat_xor]
  exact ⟨Nat.xor_mod_two_pow (n := 16), Nat.xor_div_two_pow (n := 16)⟩

/-- BitAnd (43_bitwise.md R211). -/
theorem determined_bitAnd (hp : p.Prime) (hb : 2 ^ 28 < p) (a b : Word) :
    Determined (bitAnd p (ValU32.ofWord a) (ValU32.ofWord b)) (ValU32.ofWord (a &&& b)) := by
  have ha := a.isLt
  have hbw := b.isLt
  have hhalf : ∀ x : Nat, x < 65536 → Determined (bits16 p x) (binaryDigits 16 x) :=
    fun x hx => determined_bits16 hp hb (by omega) (by omega)
  refine determined_bind (hhalf (a.toNat % 65536) (by omega)) ?_
  refine determined_bind (hhalf (a.toNat / 65536) (by omega)) ?_
  refine determined_bind (hhalf (b.toNat % 65536) (by omega)) ?_
  refine determined_bind (hhalf (b.toNat / 65536) (by omega)) ?_
  rw [weighted_zipWith_binaryDigits 16 (by omega), weighted_zipWith_binaryDigits 16 (by omega),
    ← (toNat_and_halves a b).1, ← (toNat_and_halves a b).2]
  exact determined_pure _

/-- BitOr (43_bitwise.md R212). -/
theorem determined_bitOr (hp : p.Prime) (hb : 2 ^ 28 < p) (a b : Word) :
    Determined (bitOr p (ValU32.ofWord a) (ValU32.ofWord b)) (ValU32.ofWord (a ||| b)) := by
  refine determined_bind (determined_bitAnd hp hb a b) ?_
  refine determined_of_eq (determined_pure _) ?_
  have hl := or_add_and (a.toNat % 65536) (b.toNat % 65536)
  have hh := or_add_and (a.toNat / 65536) (b.toNat / 65536)
  rw [eq_ofWord_iff]
  simp only [ofWord_low, ofWord_high]
  rw [(toNat_or_halves a b).1, (toNat_or_halves a b).2, (toNat_and_halves a b).1, (toNat_and_halves a b).2]
  omega

/-- BitXor (43_bitwise.md R212). -/
theorem determined_bitXor (hp : p.Prime) (hb : 2 ^ 28 < p) (a b : Word) :
    Determined (bitXor p (ValU32.ofWord a) (ValU32.ofWord b)) (ValU32.ofWord (a ^^^ b)) := by
  refine determined_bind (determined_bitAnd hp hb a b) ?_
  refine determined_of_eq (determined_pure _) ?_
  have hl := xor_add_two_mul_and (a.toNat % 65536) (b.toNat % 65536)
  have hh := xor_add_two_mul_and (a.toNat / 65536) (b.toNat / 65536)
  rw [eq_ofWord_iff]
  simp only [ofWord_low, ofWord_high]
  rw [(toNat_xor_halves a b).1, (toNat_xor_halves a b).2, (toNat_and_halves a b).1, (toNat_and_halves a b).2]
  omega

end

end Sys2Proof.Safety
end

section
/-! SUPPORT. What the multiplier and the power table of the constraint layer compute (44_multiply.md). -/

namespace Sys2Proof.Safety

open Sys2Proof.Machine Sys2Proof.Circuit

/-! ## Columns -/

theorem getD_bounds {a : List Int} (ha : ∀ x ∈ a, 0 ≤ x ∧ x ≤ 255) (i : Nat) : 0 ≤ a.getD i 0 ∧ a.getD i 0 ≤ 255 := by
  by_cases hi : i < a.length
  · rw [List.getD_eq_getElem _ _ hi]
    exact ha _ (List.getElem_mem hi)
  · rw [List.getD_eq_default _ _ (by omega)]
    decide

/-- A column of two byte vectors (44_multiply.md R233). -/
theorem column_bounds {a b : List Int} (ha : ∀ x ∈ a, 0 ≤ x ∧ x ≤ 255) (hb : ∀ x ∈ b, 0 ≤ x ∧ x ≤ 255) (n : Nat) :
    0 ≤ column a b n ∧ column a b n ≤ (n + 1) * 65025 := by
  have hterm : ∀ x ∈ (List.range (n + 1)).map (fun i => a.getD i 0 * b.getD (n - i) 0), 0 ≤ x ∧ x ≤ 65025 := by
    intro x hx
    obtain ⟨i, -, rfl⟩ := List.mem_map.1 hx
    obtain ⟨a0, a1⟩ := getD_bounds ha i
    obtain ⟨b0, b1⟩ := getD_bounds hb (n - i)
    exact ⟨mul_nonneg a0 b0, by nlinarith⟩
  refine ⟨List.sum_nonneg fun x hx => (hterm x hx).1, ?_⟩
  have := List.sum_le_card_nsmul _ 65025 fun x hx => (hterm x hx).2
  simpa [column] using this

/-- The value of bytes, lowest first. -/
def bytesValue : List Int → Int
  | [] => 0
  | x :: rest => x + 256 * bytesValue rest

/-- The columns of two vectors of eight bytes are the digits, not yet carried, of their product. -/
theorem column_sum (a0 a1 a2 a3 a4 a5 a6 a7 b0 b1 b2 b3 b4 b5 b6 b7 : Int) :
    ((List.range 15).map fun n => 256 ^ n *
        column [a0, a1, a2, a3, a4, a5, a6, a7] [b0, b1, b2, b3, b4, b5, b6, b7] n).sum =
      bytesValue [a0, a1, a2, a3, a4, a5, a6, a7] * bytesValue [b0, b1, b2, b3, b4, b5, b6, b7] := by
  simp [column, bytesValue, List.range_succ]
  ring

/-! ## Operands -/

/-- What ExpandU32 gives for a word: its bytes, and its sign where it is read signed (44_multiply.md R230). -/
def expandedWord (signed : Bool) (v : Word) : List Int × Int :=
  ([(v.toNat % 65536 % 256 : Nat), (v.toNat % 65536 / 256 : Nat), (v.toNat / 65536 % 256 : Nat),
    (v.toNat / 65536 / 256 : Nat)], if signed then asBit v.msb else 0)

variable {p : Nat}

theorem asBit_msb (v : Word) : asBit v.msb = (v.toNat / 65536 : Nat) / 32768 := by
  have hv := v.isLt
  unfold asBit
  rw [BitVec.msb_eq_decide]
  simp only [Nat.add_one_sub_one, decide_eq_true_eq]
  split <;> omega

theorem determined_expandU32_word (hp : p.Prime) (hb : 2 ^ 28 < p) (v : Word) (signed : Bool) :
    Determined (expandU32 p (ValU32.ofWord v) signed) (expandedWord signed v) := by
  refine determined_of_eq (determined_expandU32 hp hb (ofWord_canonical v) signed) ?_
  rw [expandedWord, asBit_msb]
  rfl

theorem expandedWord_sign_bounds (signed : Bool) (v : Word) :
    0 ≤ (expandedWord signed v).2 ∧ (expandedWord signed v).2 ≤ 1 := by
  simp only [expandedWord, asBit]
  split_ifs <;> decide

/-- The extended bytes of an operand are bytes (44_multiply.md R231). -/
theorem extendBytes_bounds (signed : Bool) (v : Word) :
    ∀ x ∈ extendBytes (expandedWord signed v), 0 ≤ x ∧ x ≤ 255 := by
  have hv := v.isLt
  obtain ⟨s0, s1⟩ := expandedWord_sign_bounds signed v
  intro x hx
  rw [extendBytes, List.mem_append, List.mem_replicate] at hx
  rcases hx with hx | ⟨-, rfl⟩
  · simp only [expandedWord, List.mem_cons, List.not_mem_nil, or_false] at hx
    rcases hx with rfl | rfl | rfl | rfl <;> omega
  · omega

/-- The value of an operand's extended bytes is its reading modulo 2^64 (44_multiply.md R231). -/
theorem bytesValue_extendBytes (signed : Bool) (v : Word) :
    bytesValue (extendBytes (expandedWord signed v)) = readAs signed v + 2 ^ 64 * (expandedWord signed v).2 := by
  have hv := v.isLt
  have hs := asBit_msb v
  have ht := v.toInt_eq_msb_cond
  simp only [extendBytes, expandedWord, List.replicate, List.cons_append, List.nil_append, bytesValue, readAs]
  cases signed with
  | false => simp only [Bool.false_eq_true, if_false]; omega
  | true =>
    simp only [if_true, ht]
    cases hm : v.msb <;> simp only [asBit, hm, Bool.false_eq_true, if_false, if_true] at hs ⊢ <;> omega

/-! ## MultiplyAccumulate -/

/-- A column total with its addend and the carry in is small enough for SplitTotal (44_multiply.md R232; the bound
of 90_conflicts.md C8). -/
theorem columnTotal_bounds {a b : List Int} (ha : ∀ x ∈ a, 0 ≤ x ∧ x ≤ 255) (hb : ∀ x ∈ b, 0 ≤ x ∧ x ≤ 255)
    {addend : Int} (h0 : 0 ≤ addend) (h1 : addend ≤ 65535) {m : Nat} (hm : m < 4) :
    0 ≤ columnTotal a b addend m ∧ columnTotal a b addend m + 2047 < 2 ^ 27 := by
  obtain ⟨e0, e1⟩ := column_bounds ha hb (2 * m)
  obtain ⟨o0, o1⟩ := column_bounds ha hb (2 * m + 1)
  unfold columnTotal
  push_cast at e1 o1
  omega

/-- The column totals, weighted by their places, are the product of the readings plus the addend modulo 2^64
(44_multiply.md R234). -/
theorem columnTotals_modEq (a b : Word) (sA sB : Bool) (c0 c1 c2 c3 : Int) :
    ∃ k : Int,
      columnTotal (extendBytes (expandedWord sA a)) (extendBytes (expandedWord sB b)) c0 0 +
          65536 * columnTotal (extendBytes (expandedWord sA a)) (extendBytes (expandedWord sB b)) c1 1 +
          65536 ^ 2 * columnTotal (extendBytes (expandedWord sA a)) (extendBytes (expandedWord sB b)) c2 2 +
          65536 ^ 3 * columnTotal (extendBytes (expandedWord sA a)) (extendBytes (expandedWord sB b)) c3 3 =
        readAs sA a * readAs sB b + (c0 + 65536 * c1 + 65536 ^ 2 * c2 + 65536 ^ 3 * c3) + 2 ^ 64 * k := by
  have hsum : ((List.range 15).map fun n => 256 ^ n *
      column (extendBytes (expandedWord sA a)) (extendBytes (expandedWord sB b)) n).sum =
        bytesValue (extendBytes (expandedWord sA a)) * bytesValue (extendBytes (expandedWord sB b)) :=
    column_sum ..
  rw [bytesValue_extendBytes, bytesValue_extendBytes] at hsum
  simp only [List.range_succ, List.range_zero, List.nil_append, List.cons_append, List.map_cons,
    List.map_nil, List.sum_cons, List.sum_nil] at hsum
  generalize extendBytes (expandedWord sA a) = xa at hsum ⊢
  generalize extendBytes (expandedWord sB b) = xb at hsum ⊢
  refine ⟨readAs sA a * (expandedWord sB b).2 + (expandedWord sA a).2 * readAs sB b
    + 2 ^ 64 * (expandedWord sA a).2 * (expandedWord sB b).2
    - (column xa xb 8 + 256 * column xa xb 9 + 256 ^ 2 * column xa xb 10 + 256 ^ 3 * column xa xb 11
      + 256 ^ 4 * column xa xb 12 + 256 ^ 5 * column xa xb 13 + 256 ^ 6 * column xa xb 14), ?_⟩
  simp only [columnTotal]
  linear_combination hsum

theorem toNat_loWord (v : BitVec 64) : (loWord v).toNat = v.toNat % 2 ^ 32 := by simp [loWord]

theorem toNat_hiWord (v : BitVec 64) : (hiWord v).toNat = v.toNat / 2 ^ 32 := by
  have := v.isLt
  rw [hiWord, BitVec.extractLsb'_toNat, Nat.shiftRight_eq_div_pow]
  omega

/-- The words of a carried sum of four halfword digits. -/
theorem ofWord_lo_hi_of_carries {v : BitVec 64} {x t0 t1 t2 t3 k : Int} (hv : v = BitVec.ofInt 64 x)
    (ht : t0 + 65536 * t1 + 65536 ^ 2 * t2 + 65536 ^ 3 * t3 = x + 2 ^ 64 * k) :
    (⟨t0 % 65536, (t0 / 65536 + t1) % 65536⟩ : ValU32) = ValU32.ofWord (loWord v) ∧
      (⟨((t0 / 65536 + t1) / 65536 + t2) % 65536, (((t0 / 65536 + t1) / 65536 + t2) / 65536 + t3) % 65536⟩ : ValU32)
        = ValU32.ofWord (hiWord v) := by
  have hn : (v.toNat : Int) = x % 2 ^ 64 := by
    rw [hv, BitVec.toNat_ofInt]
    have := Int.emod_nonneg x (by decide : (2 ^ 64 : Int) ≠ 0)
    push_cast
    omega
  rw [eq_ofWord_iff, eq_ofWord_iff, toNat_loWord, toNat_hiWord]
  omega

/-- The sign that a signed addend extends with (44_multiply.md R233). -/
theorem determined_signOf {β : Type} (hp : p.Prime) (hb : 2 ^ 28 < p) {signed : Bool} {v : Word} {k : Int → RowM β}
    {r : β} (hk : Determined (k (expandedWord signed v).2) r) :
    Determined (if signed then topBit p (ValU32.ofWord v).high >>= k else pure 0 >>= k) r := by
  cases signed with
  | false => exact determined_bind (determined_pure 0) hk
  | true => exact determined_bind (determined_topBit_word hp hb v) hk

/-- MultiplyAccumulate (44_multiply.md R233, R234). -/
theorem determined_multiplyAccumulate (hp : p.Prime) (hb : 2 ^ 28 < p) (a b c : Word) (sA sB sC : Bool) :
    Determined (multiplyAccumulate p (ValU32.ofWord a) (ValU32.ofWord b) (ValU32.ofWord c) sA sB sC)
      (ValU32.ofWord (loWord (macValue a b c sA sB sC)), ValU32.ofWord (hiWord (macValue a b c sA sB sC))) := by
  have ha := extendBytes_bounds sA a
  have hbb := extendBytes_bounds sB b
  have hc := c.isLt
  have hneg : 0 ≤ 65535 * (expandedWord sC c).2 ∧ 65535 * (expandedWord sC c).2 ≤ 65535 := by
    have := expandedWord_sign_bounds sC c
    omega
  obtain ⟨t00, t01⟩ := columnTotal_bounds ha hbb (addend := (ValU32.ofWord c).low) (m := 0)
    (Int.natCast_nonneg _) (by simp only [ofWord_low]; omega) (by decide)
  obtain ⟨t10, t11⟩ := columnTotal_bounds ha hbb (addend := (ValU32.ofWord c).high) (m := 1)
    (Int.natCast_nonneg _) (by simp only [ofWord_high]; omega) (by decide)
  obtain ⟨t20, t21⟩ := columnTotal_bounds ha hbb hneg.1 hneg.2 (m := 2) (by decide)
  obtain ⟨t30, t31⟩ := columnTotal_bounds ha hbb hneg.1 hneg.2 (m := 3) (by decide)
  obtain ⟨k, hk⟩ := columnTotals_modEq a b sA sB (ValU32.ofWord c).low (ValU32.ofWord c).high
    (65535 * (expandedWord sC c).2) (65535 * (expandedWord sC c).2)
  have hvalue : readAs sA a * readAs sB b + ((ValU32.ofWord c).low + 65536 * (ValU32.ofWord c).high
      + 65536 ^ 2 * (65535 * (expandedWord sC c).2) + 65536 ^ 3 * (65535 * (expandedWord sC c).2)) + 2 ^ 64 * k
      = readAs sA a * readAs sB b + readAs sC c + 2 ^ 64 * (k + (expandedWord sC c).2) := by
    have hr := bytesValue_extendBytes sC c
    simp only [extendBytes, expandedWord, List.replicate, List.cons_append, List.nil_append, bytesValue] at hr
    have hlow : ((c.toNat % 65536 : Nat) : Int) =
        (c.toNat % 65536 % 256 : Nat) + 256 * (c.toNat % 65536 / 256 : Nat) := by omega
    have hhigh : ((c.toNat / 65536 : Nat) : Int) =
        (c.toNat / 65536 % 256 : Nat) + 256 * (c.toNat / 65536 / 256 : Nat) := by omega
    simp only [ofWord_low, ofWord_high, expandedWord]
    linear_combination hr + hlow + 65536 * hhigh
  obtain ⟨hlo, hhi⟩ := ofWord_lo_hi_of_carries (v := macValue a b c sA sB sC) rfl (hk.trans hvalue)
  refine determined_bind (determined_expandU32_word hp hb a sA) ?_
  refine determined_bind (determined_expandU32_word hp hb b sB) ?_
  refine determined_signOf hp hb ?_
  refine determined_bind (determined_splitTotal hb t00 (by omega)) ?_
  refine determined_bind (determined_splitTotal hb (by omega) (by omega)) ?_
  refine determined_bind (determined_splitTotal hb (by omega) (by omega)) ?_
  refine determined_bind (determined_splitTotal hb (by omega) (by omega)) ?_
  rw [← hlo, ← hhi]
  exact determined_pure _

/-! ## The power table -/

theorem oneHotFrom_bits : ∀ (n : Nat) (j s : Int), ∀ c ∈ oneHotFrom n j s, c = 0 ∨ c = 1
  | 0, _, _ => by simp [oneHotFrom]
  | n + 1, j, s => by
    intro c hc
    rcases List.mem_cons.1 hc with rfl | hc
    · split <;> simp
    · exact oneHotFrom_bits n _ _ c hc

theorem oneHotFrom_length : ∀ (n : Nat) (j s : Int), (oneHotFrom n j s).length = n
  | 0, _, _ => rfl
  | n + 1, j, s => by simp [oneHotFrom, oneHotFrom_length n]

theorem sum_bits_bounds {h : List Int} (hb : ∀ c ∈ h, c = 0 ∨ c = 1) : 0 ≤ h.sum ∧ h.sum ≤ h.length := by
  induction h with
  | nil => simp
  | cons x h ih =>
    have ih := ih fun c hc => hb c (by simp [hc])
    have hx := hb x (by simp)
    simp only [List.sum_cons, List.length_cons]
    push_cast
    omega

/-- Bits that sum to 0 are the one-hot vector of an index before the first place. -/
theorem eq_oneHotFrom_of_sum_zero {h : List Int} (hb : ∀ c ∈ h, c = 0 ∨ c = 1) (hs : h.sum = 0) {j s : Int}
    (hj : s < j) : h = oneHotFrom h.length j s := by
  induction h generalizing j with
  | nil => rfl
  | cons x h ih =>
    have hx := hb x (by simp)
    have hbt : ∀ c ∈ h, c = 0 ∨ c = 1 := fun c hc => hb c (by simp [hc])
    have ht := sum_bits_bounds hbt
    rw [List.sum_cons] at hs
    rw [List.length_cons, oneHotFrom, if_neg (by omega), ← ih hbt (by omega) (by omega)]
    congr 1
    omega

/-- Bits that sum to 1 are one-hot (44_multiply.md R237). -/
theorem eq_oneHotFrom_of_sum_one {h : List Int} (hb : ∀ c ∈ h, c = 0 ∨ c = 1) (hs : h.sum = 1) (j : Int) :
    ∃ k : Nat, k < h.length ∧ h = oneHotFrom h.length j (j + k) := by
  induction h generalizing j with
  | nil => simp at hs
  | cons x h ih =>
    have hbt : ∀ c ∈ h, c = 0 ∨ c = 1 := fun c hc => hb c (by simp [hc])
    rw [List.sum_cons] at hs
    rcases hb x (by simp) with rfl | rfl
    · obtain ⟨k, hk, he⟩ := ih hbt (by omega) (j + 1)
      refine ⟨k + 1, by simpa using hk, ?_⟩
      rw [List.length_cons, oneHotFrom, if_neg (by push_cast; omega)]
      congr 1
      rw [he, oneHotFrom_length]
      congr 1
      push_cast
      omega
    · refine ⟨0, by simp, ?_⟩
      rw [List.length_cons, oneHotFrom, if_pos (by simp), ← eq_oneHotFrom_of_sum_zero hbt (by omega) (by simp)]

theorem oneHotFrom_sum : ∀ k : Fin 32, (oneHotFrom 32 0 (k.val : Nat)).sum = 1 := by decide

theorem indexSum_oneHotFrom : ∀ k : Fin 32, indexSum 0 (oneHotFrom 32 0 (k.val : Nat)) = (k.val : Nat) := by decide

/-- The halves of the table's power (44_multiply.md R237). -/
theorem weighted_oneHotFrom : ∀ k : Fin 32,
    (⟨weighted ((oneHotFrom 32 0 (k.val : Nat)).take 16), weighted ((oneHotFrom 32 0 (k.val : Nat)).drop 16)⟩ : ValU32)
      = ValU32.ofWord (BitVec.ofNat 32 (2 ^ k.val)) := by decide

/-- The honest table (44_multiply.md R237). -/
theorem powerTable_honest (hb : 2 ^ 28 < p) {s : Nat} (hs : s < 32) :
    HonestGives (powerTable p s) (s, ValU32.ofWord (BitVec.ofNat 32 (2 ^ s))) := by
  have hbits := oneHotFrom_bits 32 0 s
  unfold powerTable
  refine honestGives_bind (cells_honest fun e he => ?_) ?_
  · rcases hbits e he with rfl | rfl <;> omega
  refine honestGives_bind (bits_honest hbits) ?_
  have hsum := oneHotFrom_sum ⟨s, hs⟩
  have hindex := indexSum_oneHotFrom ⟨s, hs⟩
  have hpower := weighted_oneHotFrom ⟨s, hs⟩
  simp only at hsum hindex hpower
  refine honestGives_assertEq (by rw [hsum]; rfl) ?_
  rw [hindex, hpower]
  exact honestGives_pure _

/-- Every satisfying table is that of some amount below 32 (44_multiply.md R237). -/
theorem powerTable_satisfying (hp : p.Prime) (hb : 2 ^ 28 < p) (s : Int) :
    EverySatisfying (powerTable p s) fun r =>
      ∃ k : Nat, k < 32 ∧ r = ((k : Int), ValU32.ofWord (BitVec.ofNat 32 (2 ^ k))) := by
  have hb' : (268435456 : Int) < p := by exact_mod_cast hb
  unfold powerTable
  refine everySatisfying_cells hp.pos fun h hl hc => ?_
  refine everySatisfying_bits hp hc fun hbits => ?_
  refine everySatisfying_assertEq fun e => everySatisfying_pure ?_
  rw [oneHotFrom_length] at hl
  have hsb := sum_bits_bounds hbits
  rw [hl] at hsb
  push_cast at hsb
  have hsum := eq_of_sub_emod_eq_zero e hsb.1 (by omega) (by decide) (by omega)
  obtain ⟨k, hk, he⟩ := eq_oneHotFrom_of_sum_one hbits hsum 0
  rw [hl] at hk he
  rw [zero_add] at he
  refine ⟨k, hk, ?_⟩
  rw [he, indexSum_oneHotFrom ⟨k, hk⟩, weighted_oneHotFrom ⟨k, hk⟩]

/-- Pow2 (44_multiply.md R237). -/
theorem determined_pow2 (hp : p.Prime) (hb : 2 ^ 28 < p) {s : Nat} (hs : s < 32) :
    Determined (pow2 p s) (ValU32.ofWord (BitVec.ofNat 32 (2 ^ s))) := by
  have hb' : (268435456 : Int) < p := by exact_mod_cast hb
  constructor
  · exact honestGives_bind (powerTable_honest hb hs)
      (honestGives_assertEq (by rw [sub_self]; rfl) (honestGives_pure _))
  · refine everySatisfying_bind (everySatisfying_mono (powerTable_satisfying hp hb s) ?_)
    rintro _ ⟨k, hk, rfl⟩
    refine everySatisfying_assertEq fun e => everySatisfying_pure ?_
    have hks := eq_of_sub_emod_eq_zero e (by omega) (by omega) (by omega) (by omega)
    rw [Int.natCast_inj.1 hks]

/-- Pow2 of the shift amount of a register (44_multiply.md R237, R238). -/
theorem determined_pow2OfRegister (hp : p.Prime) (hb : 2 ^ 28 < p) (v : Word) :
    Determined (pow2OfRegister p (ValU32.ofWord v)) (ValU32.ofWord (BitVec.ofNat 32 (2 ^ shiftAmount v))) := by
  have hb' : (268435456 : Int) < p := by exact_mod_cast hb
  constructor
  · unfold pow2OfRegister
    simp only [ofWord_low]
    refine honestGives_cell (by omega) (by omega) ?_
    refine honestGives_u16 (by omega) (by omega) (by omega) ?_
    refine honestGives_u16 (by omega) (by omega) (by omega) ?_
    have hs : ((v.toNat % 65536 : Nat) : Int) % 32 = (shiftAmount v : Nat) := by unfold shiftAmount; omega
    rw [hs]
    refine honestGives_bind (powerTable_honest hb (Nat.mod_lt _ (by decide))) ?_
    refine honestGives_assertEq ?_ (honestGives_pure _)
    rw [Int.emod_eq_zero_of_dvd]
    exact ⟨0, by omega⟩
  · unfold pow2OfRegister
    simp only [ofWord_low]
    refine everySatisfying_cell (by omega) fun rest d0 d1 => ?_
    refine everySatisfying_u16 d0 d1 fun d2 => ?_
    refine everySatisfying_u16 (by omega) (by omega) fun d3 => ?_
    refine everySatisfying_bind (everySatisfying_mono (powerTable_satisfying hp hb _) ?_)
    rintro _ ⟨k, hk, rfl⟩
    refine everySatisfying_assertEq fun e => everySatisfying_pure ?_
    have g := eq_of_sub_emod_eq_zero e (by omega) (by omega) (by omega) (by omega)
    have hks : k = shiftAmount v := by unfold shiftAmount; omega
    rw [hks]

end Sys2Proof.Safety
end

section
/-! SUPPORT. What the division verifier of the constraint layer computes (45_divide.md): a part of a row that has a
satisfying witness exactly under a condition, the condition that DoDiv's constraints put on its answer, and the one
answer that meets it. -/

namespace Sys2Proof.Safety

open Sys2Proof.Machine Sys2Proof.Circuit

variable {α β : Type} {p : Nat}

/-! ## Results under a condition -/

/-- A part of a row that gives this result where the condition holds, and that no witness satisfies where it does
not. -/
def GivesWhen (m : RowM α) (a : α) (cond : Prop) : Prop :=
  (cond → HonestGives m a) ∧ EverySatisfying m (fun r => r = a ∧ cond)

theorem givesWhen_of_determined {m : RowM α} {a : α} (h : Determined m a) : GivesWhen m a True :=
  ⟨fun _ => h.1, everySatisfying_mono h.2 fun _ e => ⟨e, trivial⟩⟩

theorem givesWhen_of_iff {m : RowM α} {a : α} {cond cond' : Prop} (h : GivesWhen m a cond) (e : cond ↔ cond') :
    GivesWhen m a cond' := ⟨fun hc => h.1 (e.2 hc), everySatisfying_mono h.2 fun _ hr => ⟨hr.1, e.1 hr.2⟩⟩

theorem givesWhen_bind {m : RowM α} {f : α → RowM β} {a : α} {b : β} {cond cond' : Prop} (h : GivesWhen m a cond)
    (hf : GivesWhen (f a) b cond') : GivesWhen (m >>= f) b (cond ∧ cond') :=
  ⟨fun hc => honestGives_bind (h.1 hc.1) (hf.1 hc.2),
    everySatisfying_bind (everySatisfying_mono h.2 fun _ ⟨hr, hc⟩ =>
      hr ▸ everySatisfying_mono hf.2 fun _ ⟨hr', hc'⟩ => ⟨hr', hc, hc'⟩)⟩

theorem givesWhen_bind_determined {m : RowM α} {f : α → RowM β} {a : α} {b : β} {cond : Prop} (h : Determined m a)
    (hf : GivesWhen (f a) b cond) : GivesWhen (m >>= f) b cond :=
  ⟨fun hc => honestGives_bind h.1 (hf.1 hc), everySatisfying_bind (everySatisfying_mono h.2 fun _ e => e ▸ hf.2)⟩

/-- A constraint under a bit, between integers that differ by less than FIELD_P (00_scope.md R15). -/
theorem givesWhen_assertWhen {s x y : Int} {c : Bool} {code : Fault} (hs : s = asBit c) (hxy : |x - y| < p) :
    GivesWhen (assertWhen p s x y code) () (c = true → x = y) := by
  subst hs
  have hz : (x - y) % (p : Int) = 0 ↔ x = y := by
    refine ⟨fun h => ?_, fun h => by simp [h]⟩
    have := Int.eq_zero_of_abs_lt_dvd (Int.dvd_of_emod_eq_zero h) hxy
    omega
  constructor
  · intro hc
    refine assertEq_honest ?_
    cases c with
    | false => simp [asBit]
    | true => simpa [asBit, hz] using hc rfl
  · refine everySatisfying_assertEq_last fun h => ⟨rfl, fun hc => ?_⟩
    subst hc
    simpa [asBit, hz] using h

/-- A constraint under a bit between two words (00_scope.md R15). -/
theorem givesWhen_assertWordWhen (hb : 2 ^ 28 < p) {s : Int} {c : Bool} {code : Fault} (hs : s = asBit c)
    (a b : Word) : GivesWhen (assertWordWhen p s (ValU32.ofWord a) (ValU32.ofWord b) code) () (c = true → a = b) := by
  have hb' : (268435456 : Int) < p := by exact_mod_cast hb
  have ha := a.isLt
  have hbw := b.isLt
  have hlow : |(ValU32.ofWord a).low - (ValU32.ofWord b).low| < p := by
    rw [abs_lt]; simp only [ofWord_low]; omega
  have hhigh : |(ValU32.ofWord a).high - (ValU32.ofWord b).high| < p := by
    rw [abs_lt]; simp only [ofWord_high]; omega
  refine givesWhen_of_iff (givesWhen_bind (givesWhen_assertWhen hs hlow) (givesWhen_assertWhen hs hhigh)) ?_
  have hab : a = b ↔ (ValU32.ofWord a).low = (ValU32.ofWord b).low ∧ (ValU32.ofWord a).high = (ValU32.ofWord b).high := by
    rw [← BitVec.toNat_inj]; simp only [ofWord_low, ofWord_high]; omega
  rw [hab, imp_and]

/-! ## Bits -/

theorem asBit_mul (a b : Bool) : asBit a * asBit b = asBit (a && b) := by cases a <;> cases b <;> rfl

theorem one_sub_asBit (a : Bool) : 1 - asBit a = asBit (!a) := by cases a <;> rfl

theorem asBit_eq_one {a : Bool} : asBit a = 1 ↔ a = true := by cases a <;> decide

theorem asBit_bounds (a : Bool) : 0 ≤ asBit a ∧ asBit a ≤ 1 := by cases a <;> decide

/-! ## The constraints of DoDiv -/

/-- What DoDiv demands of the oracle's quotient and remainder (45_divide.md R261). -/
def divisionChecks (p : Nat) (n d q r : ValU32) (signed : Bool) : RowM (ValU32 × ValU32) := do
  let dz ← eqU32 p d ⟨0, 0⟩
  let en ← eqU32 p n (ValU32.ofWord 0x80000000#32)
  let ed ← eqU32 p d (ValU32.ofWord 0xFFFFFFFF#32)
  let ovf := (if signed then 1 else 0) * en * ed
  let gen := (1 - dz) * (1 - ovf)
  assertWordWhen p dz q (ValU32.ofWord 0xFFFFFFFF#32) .vDiv
  assertWordWhen p dz r n .vDiv
  assertWordWhen p ovf q (ValU32.ofWord 0x80000000#32) .vDiv
  assertWordWhen p ovf r ⟨0, 0⟩ .vDiv
  let (lo, hi) ← multiplyAccumulate p q d r signed signed signed
  let sn ← if signed then topBit p n.high else pure 0
  assertWordWhen p gen lo n .vDiv
  assertWordWhen p gen hi ⟨65535 * sn, 65535 * sn⟩ .vDiv
  if signed then do
    let sr ← topBit p r.high
    let sd ← topBit p d.high
    let ra ← magnitude p sr r
    let da ← magnitude p sd d
    let lt ← ltURow p ra da
    assertWhen p gen lt 1 .vDiv
    let rz ← eqU32 p r ⟨0, 0⟩
    assertWhen p gen ((1 - rz) * (sr - sn)) 0 .vDiv
  else do
    let lt ← ltURow p r d
    assertWhen p gen lt 1 .vDiv
  pure (q, r)

/-- The oracle's answer, its range checks, then the checks of R261. -/
theorem doDiv_eq (p : Nat) (n d : ValU32) (signed : Bool) :
    doDiv p n d signed = (do
      let ql ← cell p (divideHint n d signed).1.low
      let qh ← cell p (divideHint n d signed).1.high
      let rl ← cell p (divideHint n d signed).2.low
      let rh ← cell p (divideHint n d signed).2.high
      u16 p ql
      u16 p qh
      u16 p rl
      u16 p rh
      divisionChecks p n d ⟨ql, qh⟩ ⟨rl, rh⟩ signed) := rfl

/-- Neither a zero divisor nor the signed overflow (45_divide.md R261). -/
def generalCase (signed : Bool) (n d : Word) : Bool := !eqU d 0#32 && !(signed && divOverflow n d)

/-- The high word of an operand's reading (45_divide.md R261). -/
def signFill (signed : Bool) (n : Word) : Word := if signed && n.msb then 0xFFFFFFFF#32 else 0#32

/-- The remainder is smaller than the divisor and has the sign of the dividend (45_divide.md R261). -/
def RemainderHolds (signed : Bool) (n d r : Word) : Prop :=
  (readAs signed r).natAbs < (readAs signed d).natAbs ∧ (signed = true → r ≠ 0#32 → r.msb = n.msb)

/-- The condition that DoDiv's constraints put on its answer (45_divide.md R261). -/
structure DivisionHolds (signed : Bool) (n d q r : Word) : Prop where
  byZero   : eqU d 0#32 = true → q = 0xFFFFFFFF#32 ∧ r = n
  overflow : (signed && divOverflow n d) = true → q = 0x80000000#32 ∧ r = 0#32
  product  : generalCase signed n d = true → loWord (macValue q d r signed signed signed) = n ∧
    hiWord (macValue q d r signed signed signed) = signFill signed n
  bound    : generalCase signed n d = true → RemainderHolds signed n d r

/-- Select between words (40_primitives.md R145). -/
theorem selectWord_asBit (c : Bool) (a b : Word) :
    selectWord (asBit c) (ValU32.ofWord a) (ValU32.ofWord b) = ValU32.ofWord (if c then a else b) := by
  cases c <;> simp only [selectWord, asBit, if_true, Bool.false_eq_true, if_false, one_mul, zero_mul, sub_self,
    sub_zero, add_zero, zero_add]

/-- The magnitude of a signed word (45_divide.md R261). -/
theorem determined_magnitude (hp : p.Prime) (hb : 2 ^ 28 < p) (v : Word) :
    Determined (magnitude p (asBit v.msb) (ValU32.ofWord v)) (ValU32.ofWord v.abs) := by
  refine determined_bind (determined_sub32 hp hb 0#32 v) (determined_of_eq (determined_pure _) ?_)
  rw [selectWord_asBit, BitVec.zero_sub]
  rfl

theorem toNat_abs_eq_natAbs (v : Word) : v.abs.toNat = v.toInt.natAbs := by
  have hv := v.isLt
  rw [BitVec.toNat_abs, BitVec.toInt_eq_msb_cond]
  cases v.msb
  · rfl
  · simp only [if_true]
    omega

theorem givesWhen_signOf (hp : p.Prime) (hb : 2 ^ 28 < p) {signed : Bool} {v : Word} {k : Int → RowM β} {r : β}
    {cond : Prop} (hk : GivesWhen (k (expandedWord signed v).2) r cond) :
    GivesWhen (if signed then topBit p (ValU32.ofWord v).high >>= k else pure 0 >>= k) r cond := by
  cases signed with
  | false => exact givesWhen_bind_determined (determined_pure 0) hk
  | true => exact givesWhen_bind_determined (determined_topBit_word hp hb v) hk

theorem signFill_halves (signed : Bool) (n : Word) :
    (⟨65535 * (expandedWord signed n).2, 65535 * (expandedWord signed n).2⟩ : ValU32)
      = ValU32.ofWord (signFill signed n) := by
  simp only [expandedWord, signFill]
  cases signed <;> cases n.msb <;> rfl

theorem ltU_iff (a b : Word) : ltU a b = true ↔ a.toNat < b.toNat := by
  simp [ltU, carrySub]

/-- The bound on the remainder as the row checks it, by magnitudes where it is signed. -/
theorem readAs_natAbs_lt_iff (signed : Bool) (r d : Word) :
    (readAs signed r).natAbs < (readAs signed d).natAbs ↔
      asBit (if signed then ltU r.abs d.abs else ltU r d) = 1 := by
  rw [asBit_eq_one]
  cases signed with
  | false => simp [readAs, ltU_iff]
  | true => rw [if_pos rfl, ltU_iff, toNat_abs_eq_natAbs, toNat_abs_eq_natAbs]; rfl

/-- The sign condition as the row checks it. -/
theorem sign_condition_iff (n r : Word) :
    (1 - asBit (eqU r 0#32)) * (asBit r.msb - asBit n.msb) = 0 ↔ (r ≠ 0#32 → r.msb = n.msb) := by
  by_cases hr : r = 0#32
  · simp [hr, eqU, asBit]
  · cases r.msb <;> cases n.msb <;> simp [hr, eqU, asBit]

/-- DoDiv's checks hold exactly under DivisionHolds. -/
theorem givesWhen_divisionChecks (hp : p.Prime) (hb : 2 ^ 28 < p) (n d q r : Word) (signed : Bool) :
    GivesWhen (divisionChecks p (ValU32.ofWord n) (ValU32.ofWord d) (ValU32.ofWord q) (ValU32.ofWord r) signed)
      (ValU32.ofWord q, ValU32.ofWord r) (DivisionHolds signed n d q r) := by
  have hb' : (268435456 : Int) < p := by exact_mod_cast hb
  have hovf : (if signed then 1 else 0) * asBit (eqU n 0x80000000#32) * asBit (eqU d 0xFFFFFFFF#32)
      = asBit (signed && divOverflow n d) := by
    rw [mul_assoc, asBit_mul]
    exact asBit_mul signed _
  have hgen : (1 - asBit (eqU d 0#32)) * (1 - (if signed then 1 else 0) * asBit (eqU n 0x80000000#32)
      * asBit (eqU d 0xFFFFFFFF#32)) = asBit (generalCase signed n d) := by
    rw [hovf, one_sub_asBit, one_sub_asBit, asBit_mul]
    rfl
  have hlt : ∀ b : Bool, |asBit b - 1| < (p : Int) := fun b => by
    have := asBit_bounds b
    rw [abs_lt]; omega
  have hsign : |(1 - asBit (eqU r 0#32)) * (asBit r.msb - asBit n.msb) - 0| < (p : Int) := by
    have h1 : (1 : Int) < p := by omega
    cases eqU r 0#32 <;> cases r.msb <;> cases n.msb <;> simpa [asBit] using by omega
  refine givesWhen_of_iff (cond :=
    (eqU d 0#32 = true → q = 0xFFFFFFFF#32) ∧ (eqU d 0#32 = true → r = n) ∧
    ((signed && divOverflow n d) = true → q = 0x80000000#32) ∧ ((signed && divOverflow n d) = true → r = 0#32) ∧
    (generalCase signed n d = true → loWord (macValue q d r signed signed signed) = n) ∧
    (generalCase signed n d = true → hiWord (macValue q d r signed signed signed) = signFill signed n) ∧
    (generalCase signed n d = true → RemainderHolds signed n d r)) ?_ ?_
  · unfold divisionChecks
    refine givesWhen_bind_determined (determined_eqU32 hp hb d 0#32) ?_
    refine givesWhen_bind_determined (determined_eqU32 hp hb n _) ?_
    refine givesWhen_bind_determined (determined_eqU32 hp hb d _) ?_
    refine givesWhen_bind (givesWhen_assertWordWhen hb rfl q _) ?_
    refine givesWhen_bind (givesWhen_assertWordWhen hb rfl r n) ?_
    refine givesWhen_bind (givesWhen_assertWordWhen hb hovf q _) ?_
    refine givesWhen_bind (givesWhen_assertWordWhen hb hovf r 0#32) ?_
    refine givesWhen_bind_determined (determined_multiplyAccumulate hp hb q d r signed signed signed) ?_
    refine givesWhen_signOf hp hb ?_
    refine givesWhen_bind (givesWhen_assertWordWhen hb hgen _ n) ?_
    rw [signFill_halves]
    refine givesWhen_bind (givesWhen_assertWordWhen hb hgen _ _) ?_
    cases signed with
    | false =>
      refine givesWhen_bind_determined (determined_ltURow hp hb r d) ?_
      refine givesWhen_of_iff (givesWhen_bind (givesWhen_assertWhen hgen (hlt _))
        (givesWhen_of_determined (determined_pure _))) ?_
      simp [RemainderHolds, readAs_natAbs_lt_iff]
    | true =>
      refine givesWhen_bind_determined (determined_topBit_word hp hb r) ?_
      refine givesWhen_bind_determined (determined_topBit_word hp hb d) ?_
      refine givesWhen_bind_determined (determined_magnitude hp hb r) ?_
      refine givesWhen_bind_determined (determined_magnitude hp hb d) ?_
      refine givesWhen_bind_determined (determined_ltURow hp hb r.abs d.abs) ?_
      refine givesWhen_of_iff (givesWhen_bind (givesWhen_assertWhen hgen (hlt _))
        (givesWhen_bind_determined (determined_eqU32 hp hb r 0#32)
          (givesWhen_bind (givesWhen_assertWhen hgen hsign) (givesWhen_of_determined (determined_pure _))))) ?_
      simp only [RemainderHolds, expandedWord, readAs_natAbs_lt_iff, sign_condition_iff, if_true, forall_const,
        and_true, imp_and]
  · exact ⟨fun ⟨a1, a2, a3, a4, a5, a6, a7⟩ =>
      ⟨fun h => ⟨a1 h, a2 h⟩, fun h => ⟨a3 h, a4 h⟩, fun h => ⟨a5 h, a6 h⟩, a7⟩,
      fun ⟨b1, b2, b3, b4⟩ => ⟨fun h => (b1 h).1, fun h => (b1 h).2, fun h => (b2 h).1, fun h => (b2 h).2,
        fun h => (b3 h).1, fun h => (b3 h).2, b4⟩⟩

/-! ## The one answer -/

theorem readAs_bounds (signed : Bool) (v : Word) :
    (signed = false → 0 ≤ readAs signed v ∧ readAs signed v < 2 ^ 32) ∧
      (signed = true → -2 ^ 31 ≤ readAs signed v ∧ readAs signed v < 2 ^ 31) := by
  have hv := v.isLt
  have h0 : -2 ^ 31 ≤ v.toInt := BitVec.le_toInt v
  have h1 : v.toInt < 2 ^ 31 := BitVec.toInt_lt
  cases signed <;> simp [readAs] <;> omega

/-- A product and a sum of readings do not leave the 64 bits of MultiplyAccumulate (45_divide.md R261). -/
theorem readAs_mul_add_bounds (signed : Bool) (q d r : Word) :
    (signed = false → 0 ≤ readAs signed q * readAs signed d + readAs signed r ∧
      readAs signed q * readAs signed d + readAs signed r < 2 ^ 64) ∧
    (signed = true → -2 ^ 63 ≤ readAs signed q * readAs signed d + readAs signed r ∧
      readAs signed q * readAs signed d + readAs signed r < 2 ^ 63) := by
  obtain ⟨q0, q1⟩ := readAs_bounds signed q
  obtain ⟨d0, d1⟩ := readAs_bounds signed d
  obtain ⟨r0, r1⟩ := readAs_bounds signed r
  constructor
  · intro hs
    obtain ⟨q0, q2⟩ := q0 hs
    obtain ⟨d0, d2⟩ := d0 hs
    obtain ⟨r0, r2⟩ := r0 hs
    constructor <;> nlinarith
  · intro hs
    have hq := abs_le.2 (show -2 ^ 31 ≤ readAs signed q ∧ readAs signed q ≤ 2 ^ 31 from ⟨(q1 hs).1, (q1 hs).2.le⟩)
    have hd := abs_le.2 (show -2 ^ 31 ≤ readAs signed d ∧ readAs signed d ≤ 2 ^ 31 from ⟨(d1 hs).1, (d1 hs).2.le⟩)
    have hqd : |readAs signed q * readAs signed d| ≤ 2 ^ 31 * 2 ^ 31 := by
      rw [abs_mul]
      exact mul_le_mul hq hd (abs_nonneg _) (by decide)
    have := abs_le.1 hqd
    have := r1 hs
    omega

/-- The two words of a back-check that holds are those of the dividend's reading (45_divide.md R261). -/
theorem product_iff (signed : Bool) (n d q r : Word) :
    (loWord (macValue q d r signed signed signed) = n ∧
        hiWord (macValue q d r signed signed signed) = signFill signed n) ↔
      readAs signed q * readAs signed d + readAs signed r = readAs signed n := by
  have hx := readAs_mul_add_bounds signed q d r
  have hm : ((macValue q d r signed signed signed).toNat : Int) =
      (readAs signed q * readAs signed d + readAs signed r) % 2 ^ 64 := by
    have := Int.emod_nonneg (readAs signed q * readAs signed d + readAs signed r) (by decide : (2 ^ 64 : Int) ≠ 0)
    rw [macValue, BitVec.toNat_ofInt]
    push_cast
    omega
  generalize readAs signed q * readAs signed d + readAs signed r = x at hx hm
  have hlo := toNat_loWord (macValue q d r signed signed signed)
  have hhi := toNat_hiWord (macValue q d r signed signed signed)
  generalize macValue q d r signed signed signed = m at hm hlo hhi
  have hn := n.isLt
  have hmsb : n.msb = decide (2 ^ 31 ≤ n.toNat) := BitVec.msb_eq_decide n
  rw [← BitVec.toNat_inj, ← BitVec.toNat_inj, hlo, hhi]
  cases signed with
  | false =>
    obtain ⟨x0, x1⟩ := hx.1 rfl
    simp only [signFill, readAs, Bool.false_and, Bool.false_eq_true, if_false, BitVec.toNat_ofNat]
    omega
  | true =>
    obtain ⟨x0, x1⟩ := hx.2 rfl
    simp only [signFill, readAs, Bool.true_and, if_true, BitVec.toInt_eq_msb_cond, hmsb, decide_eq_true_eq]
    split_ifs <;> simp only [BitVec.toNat_ofNat] <;> omega

/-- The unsigned quotient and remainder (45_divide.md R262). -/
theorem unsigned_division_iff {n d q r : Word} (hd : d ≠ 0#32) :
    (readAs false q * readAs false d + readAs false r = readAs false n ∧ RemainderHolds false n d r) ↔
      q = BitVec.ofNat 32 (n.toNat / d.toNat) ∧ r = BitVec.ofNat 32 (n.toNat % d.toNat) := by
  have hd0 : 0 < d.toNat := Nat.pos_of_ne_zero fun h => hd (BitVec.eq_of_toNat_eq h)
  have hdiv : n.toNat / d.toNat < 2 ^ 32 := lt_of_le_of_lt (Nat.div_le_self _ _) n.isLt
  have hmod : n.toNat % d.toNat < 2 ^ 32 := lt_of_le_of_lt (Nat.mod_le _ _) n.isLt
  have hunique := Nat.div_mod_unique (a := n.toNat) (c := r.toNat) (d := q.toNat) hd0
  rw [← BitVec.toNat_inj, ← BitVec.toNat_inj, BitVec.toNat_ofNat, BitVec.toNat_ofNat, Nat.mod_eq_of_lt hdiv,
    Nat.mod_eq_of_lt hmod, @eq_comm _ q.toNat, @eq_comm _ r.toNat, hunique]
  simp only [RemainderHolds, readAs, Bool.false_eq_true, if_false, Int.natAbs_natCast, false_implies, and_true]
  have hcast : ((q.toNat : Int) * d.toNat + r.toNat = n.toNat) ↔ r.toNat + d.toNat * q.toNat = n.toNat := by
    rw [← Int.natCast_inj]
    push_cast
    constructor <;> intro h <;> linarith
  rw [hcast]

/-- A word is that of its signed reading, within the bounds of the reading. -/
theorem toInt_eq_iff {v : Word} {i : Int} (h0 : -2 ^ 31 ≤ i) (h1 : i < 2 ^ 31) : v.toInt = i ↔ v = BitVec.ofInt 32 i := by
  have hi : (BitVec.ofInt 32 i).toInt = i := by
    rw [BitVec.toInt_ofInt]
    exact Int.bmod_eq_of_le (by omega) (by omega)
  rw [← BitVec.toInt_inj, hi]

/-- Outside the overflow, the truncated quotient and the remainder are signed words (45_divide.md R262). -/
theorem tdiv_tmod_bounds {n d : Word} (hd : d ≠ 0#32) (hovf : divOverflow n d = false) :
    (-2 ^ 31 ≤ Int.tdiv n.toInt d.toInt ∧ Int.tdiv n.toInt d.toInt < 2 ^ 31) ∧
      (-2 ^ 31 ≤ Int.tmod n.toInt d.toInt ∧ Int.tmod n.toInt d.toInt < 2 ^ 31) := by
  have n0 : -2 ^ 31 ≤ n.toInt := BitVec.le_toInt n
  have n1 : n.toInt < 2 ^ 31 := BitVec.toInt_lt
  have d0 : -2 ^ 31 ≤ d.toInt := BitVec.le_toInt d
  have d1 : d.toInt < 2 ^ 31 := BitVec.toInt_lt
  have hd' : d.toInt ≠ 0 := fun h => hd (BitVec.toInt_inj.1 h)
  have hq := Int.natAbs_tdiv_le_natAbs n.toInt d.toInt
  have hm := Int.natAbs_tmod n.toInt d.toInt
  have hlt := Nat.mod_lt n.toInt.natAbs (Int.natAbs_pos.2 hd')
  have he := Int.mul_tdiv_add_tmod n.toInt d.toInt
  have hne : ¬ (n.toInt = -2 ^ 31 ∧ d.toInt = -1) := by
    rintro ⟨hn, hd1⟩
    have e1 : n = 0x80000000#32 := BitVec.toInt_inj.1 (hn.trans (by decide))
    have e2 : d = 0xFFFFFFFF#32 := BitVec.toInt_inj.1 (hd1.trans (by decide))
    simp [divOverflow, e1, e2] at hovf
  have hne' : Int.tdiv n.toInt d.toInt ≠ 2 ^ 31 := by
    intro ht
    rw [ht] at he
    omega
  omega

/-- The signed quotient and remainder (45_divide.md R262). -/
theorem signed_division_iff {n d q r : Word} (hd : d ≠ 0#32) (hovf : divOverflow n d = false) :
    (readAs true q * readAs true d + readAs true r = readAs true n ∧ RemainderHolds true n d r) ↔
      q = BitVec.ofInt 32 (Int.tdiv n.toInt d.toInt) ∧ r = BitVec.ofInt 32 (Int.tmod n.toInt d.toInt) := by
  obtain ⟨⟨q0, q1⟩, r0, r1⟩ := tdiv_tmod_bounds hd hovf
  have hd' : d.toInt ≠ 0 := fun h => hd (BitVec.toInt_inj.1 h)
  have hr0 : r ≠ 0#32 ↔ r.toInt ≠ 0 := not_congr (BitVec.toInt_inj (x := r) (y := 0#32)).symm
  have hrm : r.msb = decide (r.toInt < 0) := BitVec.msb_eq_toInt
  have hnm : n.msb = decide (n.toInt < 0) := BitVec.msb_eq_toInt
  rw [← toInt_eq_iff q0 q1, ← toInt_eq_iff r0 r1, @eq_comm _ q.toInt, @eq_comm _ r.toInt]
  simp only [RemainderHolds, readAs, if_true, forall_const, hr0, hrm, hnm, decide_eq_decide]
  have hcomm : q.toInt * d.toInt + r.toInt = n.toInt ↔ r.toInt + d.toInt * q.toInt = n.toInt := by
    constructor <;> intro h <;> linarith
  rw [hcomm]
  rcases lt_or_ge n.toInt 0 with hn | hn
  · rw [Int.tdiv_tmod_unique' hn.le hd']
    refine and_congr_right fun _ => ?_
    omega
  · rw [Int.tdiv_tmod_unique hn hd']
    refine and_congr_right fun _ => ?_
    omega

/-- DoDiv's conditions have one answer, the row of the table of 45_divide.md R262 (R263). -/
theorem divisionHolds_iff (signed : Bool) (n d q r : Word) :
    DivisionHolds signed n d q r ↔ q = divQuotient n d signed ∧ r = divRemainder n d signed := by
  have hsplit : DivisionHolds signed n d q r ↔
      (eqU d 0#32 = true → q = 0xFFFFFFFF#32 ∧ r = n) ∧
      ((signed && divOverflow n d) = true → q = 0x80000000#32 ∧ r = 0#32) ∧
      (generalCase signed n d = true →
        readAs signed q * readAs signed d + readAs signed r = readAs signed n ∧ RemainderHolds signed n d r) :=
    ⟨fun ⟨b1, b2, b3, b4⟩ => ⟨b1, b2, fun h => ⟨(product_iff signed n d q r).1 (b3 h), b4 h⟩⟩,
      fun ⟨a1, a2, a3⟩ => ⟨a1, a2, fun h => (product_iff signed n d q r).2 (a3 h).1, fun h => (a3 h).2⟩⟩
  rw [hsplit]
  unfold generalCase divQuotient divRemainder
  by_cases hd : d = 0#32
  · subst hd
    simp [eqU, divOverflow]
  · have he : eqU d 0#32 = false := beq_eq_false_iff_ne.2 hd
    simp only [he, hd, if_false, Bool.false_eq_true, false_implies, true_and, Bool.not_false, Bool.true_and]
    cases signed with
    | false => simpa using unsigned_division_iff hd
    | true =>
      cases ho : divOverflow n d with
      | true => simp
      | false => simpa using signed_division_iff hd ho

/-! ## DoDiv -/

/-- DoDiv (45_divide.md R261, R263, R264). -/
theorem determined_doDiv (hp : p.Prime) (hb : 2 ^ 28 < p) (n d : Word) (signed : Bool) :
    Determined (doDiv p (ValU32.ofWord n) (ValU32.ofWord d) signed)
      (ValU32.ofWord (divQuotient n d signed), ValU32.ofWord (divRemainder n d signed)) := by
  have hb' : (268435456 : Int) < p := by exact_mod_cast hb
  rw [doDiv_eq]
  constructor
  · have hholds := (divisionHolds_iff signed n d _ _).2 ⟨rfl, rfl⟩
    simp only [divideHint, toWord_ofWord]
    obtain ⟨a0, a1, a2, a3⟩ := ofWord_canonical (divQuotient n d signed)
    obtain ⟨b0, b1, b2, b3⟩ := ofWord_canonical (divRemainder n d signed)
    refine honestGives_cell a0 (by omega) ?_
    refine honestGives_cell a2 (by omega) ?_
    refine honestGives_cell b0 (by omega) ?_
    refine honestGives_cell b2 (by omega) ?_
    refine honestGives_u16 (by omega) a0 a1 ?_
    refine honestGives_u16 (by omega) a2 a3 ?_
    refine honestGives_u16 (by omega) b0 b1 ?_
    refine honestGives_u16 (by omega) b2 b3 ?_
    exact (givesWhen_divisionChecks hp hb n d _ _ signed).1 hholds
  · refine everySatisfying_cell hp.pos fun ql a0 a1 => ?_
    refine everySatisfying_cell hp.pos fun qh b0 b1 => ?_
    refine everySatisfying_cell hp.pos fun rl c0 c1 => ?_
    refine everySatisfying_cell hp.pos fun rh d0 d1 => ?_
    refine everySatisfying_u16 a0 a1 fun a2 => ?_
    refine everySatisfying_u16 b0 b1 fun b2 => ?_
    refine everySatisfying_u16 c0 c1 fun c2 => ?_
    refine everySatisfying_u16 d0 d1 fun d2 => ?_
    rw [eq_ofWord_of_canonical (v := ⟨ql, qh⟩) ⟨a0, a2, b0, b2⟩,
      eq_ofWord_of_canonical (v := ⟨rl, rh⟩) ⟨c0, c2, d0, d2⟩]
    refine everySatisfying_mono (givesWhen_divisionChecks hp hb n d _ _ signed).2 ?_
    rintro _ ⟨rfl, hholds⟩
    obtain ⟨hq, hr⟩ := (divisionHolds_iff signed n d _ _).1 hholds
    rw [hq, hr]

end Sys2Proof.Safety
end

section
/-! SUPPORT. What the shifts, the lanes of loads and stores and the decoder of the constraint layer compute
(44_multiply.md, 45_divide.md, 47_load_store.md, 30_encoding.md). -/

namespace Sys2Proof.Safety

open Sys2Proof.Machine Sys2Proof.Circuit

variable {p : Nat}

/-! ## Shifts -/

theorem toNat_ofNat_two_pow {k : Nat} (hk : k < 32) : (BitVec.ofNat 32 (2 ^ k)).toNat = 2 ^ k := by
  rw [BitVec.toNat_ofNat, Nat.mod_eq_of_lt (Nat.pow_lt_pow_right (by decide) hk)]

/-- The left shift as a product with a power of two (44_multiply.md R244). -/
theorem loWord_mul_two_pow (v : Word) {k : Nat} (hk : k < 32) :
    loWord (macValue v (BitVec.ofNat 32 (2 ^ k)) 0#32 false false false) = shiftLeft v k := by
  rw [← BitVec.toNat_inj, toNat_loWord, shiftLeft, BitVec.toNat_shiftLeft, Nat.shiftLeft_eq]
  simp only [macValue, readAs, Bool.false_eq_true, if_false, toNat_ofNat_two_pow hk]
  have hx : ((v.toNat : Int) * (2 ^ k : Nat) + (0#32).toNat) = (v.toNat * 2 ^ k : Nat) := by
    push_cast
    simp
  rw [hx, BitVec.ofInt_natCast, BitVec.toNat_ofNat]
  exact Nat.mod_mod_of_dvd _ (by decide)

theorem ofNat_two_pow_ne_zero {k : Nat} (hk : k < 32) : BitVec.ofNat 32 (2 ^ k) ≠ 0#32 := by
  intro h
  have := congrArg BitVec.toNat h
  rw [toNat_ofNat_two_pow hk] at this
  exact absurd this (Nat.two_pow_pos k).ne'

/-- The logical right shift as a division by a power of two (45_divide.md R270). -/
theorem divQuotient_two_pow (v : Word) {k : Nat} (hk : k < 32) :
    divQuotient v (BitVec.ofNat 32 (2 ^ k)) false = shiftRightLogical v k := by
  rw [divQuotient, if_neg (ofNat_two_pow_ne_zero hk), if_neg (by decide), toNat_ofNat_two_pow hk, shiftRightLogical,
    ← BitVec.toNat_inj, BitVec.toNat_ushiftRight, BitVec.toNat_ofNat, Nat.shiftRight_eq_div_pow]
  exact Nat.mod_eq_of_lt (lt_of_le_of_lt (Nat.div_le_self _ _) v.isLt)

/-- The one's complement under a bit (45_divide.md R271). -/
theorem flipWhen_asBit (c : Bool) (v : Word) :
    flipWhen (asBit c) (ValU32.ofWord v) = ValU32.ofWord (if c then ~~~v else v) := by
  have hv := v.isLt
  cases c with
  | false => simp [flipWhen, asBit, ValU32.ofWord]
  | true =>
    rw [flipWhen, if_pos rfl, eq_ofWord_iff, BitVec.toNat_not]
    simp only [asBit, if_true, ofWord_low, ofWord_high]
    omega

/-- The arithmetic right shift as a division of the one's complement (45_divide.md R271). -/
theorem shiftRightArith_eq_flip (v : Word) (k : Nat) :
    shiftRightArith v k =
      if v.msb then ~~~(shiftRightLogical (~~~v) k) else shiftRightLogical v k := by
  have hpos : (0 : Int) < 2 ^ k := by positivity
  have hv := v.isLt
  have hdiv : ∀ x : Word, (shiftRightLogical x k).toNat = x.toNat / 2 ^ k := fun x => by
    rw [shiftRightLogical, BitVec.toNat_ushiftRight, Nat.shiftRight_eq_div_pow]
  rw [shiftRightArith, Int.fdiv_eq_ediv_of_nonneg _ hpos.le, BitVec.toInt_eq_msb_cond]
  cases v.msb with
  | false =>
    simp only [Bool.false_eq_true, if_false]
    rw [← BitVec.toNat_inj, hdiv]
    have hc : ((v.toNat : Int) / 2 ^ k) = ((v.toNat / 2 ^ k : Nat) : Int) := by push_cast; rfl
    rw [hc, BitVec.ofInt_natCast, BitVec.toNat_ofNat]
    exact Nat.mod_eq_of_lt (lt_of_le_of_lt (Nat.div_le_self _ _) hv)
  | true =>
    simp only [if_true]
    have hflip : (v.toNat : Int) - (2 ^ 32 : Nat) = -((2 ^ 32 - 1 - v.toNat : Nat) : Int) - 1 := by omega
    have hnot : (~~~v).toNat = 2 ^ 32 - 1 - v.toNat := BitVec.toNat_not
    have hneg : ∀ x : Int, (-x - 1) / 2 ^ k = -(x / 2 ^ k) - 1 := by
      intro x
      have h := Int.mul_ediv_add_emod x (2 ^ k)
      have h0 := Int.emod_nonneg x hpos.ne'
      have h1 := Int.emod_lt_of_pos x hpos
      rw [Int.ediv_eq_iff_of_pos hpos]
      constructor <;> nlinarith
    have hq : ((2 ^ 32 - 1 - v.toNat : Nat) : Int) / 2 ^ k = ((shiftRightLogical (~~~v) k).toNat : Int) := by
      rw [hdiv, hnot]; push_cast; rfl
    rw [hflip, hneg, hq]
    have hs := (shiftRightLogical (~~~v) k).isLt
    generalize shiftRightLogical (~~~v) k = x at hs
    rw [← BitVec.toNat_inj, BitVec.toNat_not, BitVec.toNat_ofInt]
    push_cast
    omega

/-- The arithmetic shift by the power 2^k (45_divide.md R271). -/
theorem determined_shiftArithRow (hp : p.Prime) (hb : 2 ^ 28 < p) (v : Word) {k : Nat} (hk : k < 32) :
    Determined (shiftArithRow p (ValU32.ofWord v) (ValU32.ofWord (BitVec.ofNat 32 (2 ^ k))))
      (ValU32.ofWord (shiftRightArith v k)) := by
  refine determined_bind (determined_topBit_word hp hb v) ?_
  rw [flipWhen_asBit]
  refine determined_bind (determined_doDiv hp hb _ _ false) (determined_of_eq (determined_pure _) ?_)
  rw [divQuotient_two_pow _ hk, flipWhen_asBit, shiftRightArith_eq_flip]
  cases v.msb <;> rfl

/-! ## Lanes -/

theorem halfSelRow_asBit (word : Word) (lane : BitVec 2) :
    halfSelRow (ValU32.ofWord word) (asBit (lane.getLsbD 1)) = ((halfSel word lane).toNat : Int) := by
  have hw := word.isLt
  unfold halfSelRow halfSel
  cases lane.getLsbD 1 <;>
    simp only [asBit, if_true, Bool.false_eq_true, if_false, ofWord_low, ofWord_high, BitVec.extractLsb'_toNat,
      Nat.shiftRight_eq_div_pow] <;> omega

/-- The bytes of a half (47_load_store.md R314). -/
theorem toNat_halfByte (h : Half) :
    (h.extractLsb' (8 * 0) 8).toNat = h.toNat % 256 ∧ (h.extractLsb' (8 * 1) 8).toNat = h.toNat / 256 := by
  have hh := h.isLt
  simp only [BitVec.extractLsb'_toNat, Nat.shiftRight_eq_div_pow]
  omega

theorem lane_toNat (lane : BitVec 2) : lane.toNat = 2 * (lane.getLsbD 1).toNat + (lane.getLsbD 0).toNat := by
  revert lane; decide

/-- ByteSel (47_load_store.md R314). -/
theorem determined_byteSelRow (hb : 2 ^ 28 < p) (word : Word) (lane : BitVec 2) :
    Determined (byteSelRow p (ValU32.ofWord word) (asBit (lane.getLsbD 0)) (asBit (lane.getLsbD 1)))
      ((byteSel word lane).toNat : Int) := by
  have hh := (halfSel word lane).isLt
  obtain ⟨h0, h1⟩ := toNat_halfByte (halfSel word lane)
  rw [extractLsb'_halfSel _ _ (by decide)] at h0 h1
  unfold byteSelRow
  rw [halfSelRow_asBit]
  refine determined_bind (determined_byteSplit hb (by omega) (by omega)) (determined_of_eq (determined_pure _) ?_)
  rw [byteSel, lane_toNat]
  cases lane.getLsbD 0 <;> simp only [asBit, Bool.toNat_false, Bool.toNat_true, if_true, Bool.false_eq_true, if_false]
  · rw [h0]; omega
  · rw [h1]; omega

/-- SextByte (47_load_store.md R315). -/
theorem determined_sextByte (hp : p.Prime) (hb : 2 ^ 28 < p) (y : Byte) :
    Determined (sextByte p (y.toNat : Int)) (ValU32.ofWord (y.signExtend 32)) := by
  have hb' : (268435456 : Int) < p := by exact_mod_cast hb
  have hy := y.isLt
  have hval : (⟨(y.toNat : Int) + 0xFF00 * ((y.toNat : Int) / 128), 0xFFFF * ((y.toNat : Int) / 128)⟩ : ValU32)
      = ValU32.ofWord (y.signExtend 32) := by
    rw [eq_ofWord_iff, BitVec.toNat_signExtend, BitVec.toNat_setWidth, BitVec.msb_eq_decide]
    simp only [decide_eq_true_eq]
    split <;> omega
  constructor
  · unfold sextByte
    refine honestGives_cell (by omega) (by omega) ?_
    refine honestGives_bit (by omega) ?_
    refine honestGives_u8 (by omega) (by omega) (by omega) ?_
    rw [hval]
    exact honestGives_pure _
  · unfold sextByte
    refine everySatisfying_cell hp.pos fun s s0 s1 => ?_
    refine everySatisfying_bit hp s0 s1 fun s2 => ?_
    refine everySatisfying_rangeCheck fun e => everySatisfying_pure ?_
    have hs : s = (y.toNat : Int) / 128 := by
      rcases s2 with rfl | rfl
      · rw [Int.emod_eq_of_lt (by omega) (by omega)] at e; omega
      · by_contra hc
        have : (2 * ((y.toNat : Int) - 128 * 1)) % (p : Int) = 2 * ((y.toNat : Int) - 128 * 1) + p := by
          rw [← Int.add_emod_right, Int.emod_eq_of_lt (by omega) (by omega)]
        omega
    rw [hs, hval]

/-- SextHalf (47_load_store.md R315). -/
theorem determined_sextHalf (hp : p.Prime) (hb : 2 ^ 28 < p) (h : Half) :
    Determined (sextHalf p (h.toNat : Int)) (ValU32.ofWord (h.signExtend 32)) := by
  have hh := h.isLt
  refine determined_bind (determined_topBit hp hb (by omega) (by omega)) (determined_of_eq (determined_pure _) ?_)
  rw [eq_ofWord_iff, BitVec.toNat_signExtend, BitVec.toNat_setWidth, BitVec.msb_eq_decide]
  simp only [decide_eq_true_eq]
  split <;> omega

/-- A zero-extended byte or half, as halves (47_load_store.md R320, R321). -/
theorem ofWord_setWidth {n : Nat} (hn : n ≤ 16) (v : BitVec n) :
    (⟨(v.toNat : Int), 0⟩ : ValU32) = ValU32.ofWord (v.setWidth 32) := by
  have hv : v.toNat < 65536 := lt_of_lt_of_le v.isLt (Nat.pow_le_pow_right (by decide) hn)
  rw [eq_ofWord_iff, BitVec.toNat_setWidth]
  omega

theorem toNat_append_eq {n m : Nat} (x : BitVec n) (y : BitVec m) :
    (x ++ y).toNat = x.toNat * 2 ^ m + y.toNat := by
  rw [BitVec.toNat_append, ← Nat.shiftLeft_add_eq_or_of_lt y.isLt, Nat.shiftLeft_eq]

/-- The halves of a word with one of them replaced (47_load_store.md R322). -/
theorem ofWord_replaceHalf (old : Word) (h : Half) (upper : Bool) :
    (⟨asBit upper * (ValU32.ofWord old).low + (1 - asBit upper) * (h.toNat : Int),
      asBit upper * (h.toNat : Int) + (1 - asBit upper) * (ValU32.ofWord old).high⟩ : ValU32)
      = ValU32.ofWord (replaceHalf old h upper) := by
  have hh := h.isLt
  have ho := old.isLt
  rw [eq_ofWord_iff]
  cases upper <;>
    simp only [replaceHalf, asBit, if_true, Bool.false_eq_true, if_false, BitVec.toNat_cast, toNat_append_eq,
      BitVec.extractLsb'_toNat, Nat.shiftRight_eq_div_pow, ofWord_low, ofWord_high] <;> omega

/-- A half with one of its bytes replaced (47_load_store.md R322). -/
theorem toNat_mergeHalf (old : Half) (d : Byte) (upper : Bool) :
    ((mergeHalf old d upper).toNat : Int) =
      asBit upper * ((old.toNat : Int) % 256 + 256 * d.toNat)
        + (1 - asBit upper) * (d.toNat + 256 * ((old.toNat : Int) / 256)) := by
  have ho := old.isLt
  cases upper <;>
    simp only [mergeHalf, asBit, if_true, Bool.false_eq_true, if_false, BitVec.toNat_cast, toNat_append_eq,
      BitVec.extractLsb'_toNat, Nat.shiftRight_eq_div_pow] <;> omega

/-- Merge (47_load_store.md R322). -/
theorem determined_mergeRow (hb : 2 ^ 28 < p) (old data : Word) (lane : BitVec 2) (kind : AccessSize) :
    Determined (mergeRow p (ValU32.ofWord old) (ValU32.ofWord data) (asBit (lane.getLsbD 0)) (asBit (lane.getLsbD 1)) kind)
      (ValU32.ofWord (merge old data lane kind)) := by
  have hd := data.isLt
  cases kind with
  | word => exact determined_pure _
  | half =>
    have hl : ((data.extractLsb' 0 16).toNat : Int) = (ValU32.ofWord data).low := by
      simp only [BitVec.extractLsb'_toNat, Nat.shiftRight_zero, ofWord_low]
    have h := ofWord_replaceHalf old (data.extractLsb' 0 16) (lane.getLsbD 1)
    rw [hl] at h
    exact determined_of_eq (determined_pure _) h
  | byte =>
    have hh := (halfSel old lane).isLt
    have hbyte : ((data.extractLsb' 0 8).toNat : Int) = (ValU32.ofWord data).low % 256 := by
      simp only [BitVec.extractLsb'_toNat, Nat.shiftRight_zero, ofWord_low]; omega
    have h := ofWord_replaceHalf old (mergeHalf (halfSel old lane) (data.extractLsb' 0 8) (lane.getLsbD 0))
      (lane.getLsbD 1)
    rw [toNat_mergeHalf, hbyte] at h
    unfold mergeRow
    rw [halfSelRow_asBit]
    refine determined_bind (determined_byteSplit hb (by simp only [ofWord_low]; omega)
      (by simp only [ofWord_low]; omega)) ?_
    refine determined_bind (determined_byteSplit hb (by omega) (by omega)) ?_
    exact determined_of_eq (determined_pure _) h

/-! ## The decoder -/

theorem twit_of_constraint (hp : p.Prime) (hb : 2 ^ 28 < p) {c : Int} (h0 : 0 ≤ c) (h1 : c < (p : Int))
    (h : (c * (c - 1) * (c - 2) * (c - 3) - 0) % (p : Int) = 0) : c ≤ 3 := by
  have hb' : (268435456 : Int) < p := by exact_mod_cast hb
  rw [sub_zero, mul_emod_eq_zero hp, mul_emod_eq_zero hp, mul_emod_eq_zero hp] at h
  rcases h with ((h | h) | h) | h
  · rw [Int.emod_eq_of_lt h0 h1] at h; omega
  · have := eq_of_sub_emod_eq_zero h h0 h1 (by decide) (by omega); omega
  · have := eq_of_sub_emod_eq_zero h h0 h1 (by decide) (by omega); omega
  · have := eq_of_sub_emod_eq_zero h h0 h1 (by decide) (by omega); omega

theorem twit_honest {c : Int} (h0 : 0 ≤ c) (h1 : c ≤ 3) : HonestGives (twit p c) () := by
  refine assertEq_honest ?_
  have h : c = 0 ∨ c = 1 ∨ c = 2 ∨ c = 3 := by omega
  rcases h with rfl | rfl | rfl | rfl <;> simp

/-- All sixteen pieces. -/
def allPieces (q : Pieces) : List Int := q.op :: (q.bits ++ q.twits)

/-- Every piece is a field element. -/
theorem pieceCells_satisfying (hp : p.Prime) (h : Pieces) :
    EverySatisfying (pieceCells p h) (fun q => ∀ c ∈ allPieces q, 0 ≤ c ∧ c < (p : Int)) := by
  unfold pieceCells
  iterate 16 refine everySatisfying_cell hp.pos fun _ _ _ => ?_
  refine everySatisfying_pure fun c hc => ?_
  simp only [allPieces, Pieces.bits, Pieces.twits, List.cons_append, List.nil_append, List.mem_cons,
    List.not_mem_nil, or_false] at hc
  rcases hc with rfl | rfl | rfl | rfl | rfl | rfl | rfl | rfl | rfl | rfl | rfl | rfl | rfl | rfl | rfl | rfl <;>
    exact ⟨‹_›, ‹_›⟩

theorem pieceCells_honest {q : Pieces} (h : ∀ c ∈ allPieces q, 0 ≤ c ∧ c < (p : Int)) :
    HonestGives (pieceCells p q) q := by
  have hm : ∀ c, c ∈ allPieces q → 0 ≤ c ∧ c < (p : Int) := h
  simp only [allPieces, Pieces.bits, Pieces.twits, List.cons_append, List.nil_append, List.forall_mem_cons] at h
  obtain ⟨h1, h2, h3, h4, h5, h6, h7, h8, h9, h10, h11, h12, h13, h14, h15, h16, -⟩ := h
  unfold pieceCells
  iterate 16 refine honestGives_cell (by omega) (by omega) ?_
  exact honestGives_pure _

theorem honestPieces_ranges (w : Word) :
    (0 ≤ (honestPieces (ValU32.ofWord w)).op ∧ (honestPieces (ValU32.ofWord w)).op ≤ 127) ∧
      (∀ c ∈ (honestPieces (ValU32.ofWord w)).bits, c = 0 ∨ c = 1) ∧
      ∀ c ∈ (honestPieces (ValU32.ofWord w)).twits, 0 ≤ c ∧ c ≤ 3 := by
  simp only [honestPieces, pieceOf, Pieces.bits, Pieces.twits, List.forall_mem_cons, List.not_mem_nil,
    false_implies, implies_true, and_true]
  omega

/-- The honest pieces reassemble the halves of the word (30_encoding.md R89 to R91). -/
theorem honestPieces_sums (w : Word) :
    (honestPieces (ValU32.ofWord w)).lowSum = (ValU32.ofWord w).low ∧
      (honestPieces (ValU32.ofWord w)).highSum = (ValU32.ofWord w).high := by
  have hw := w.isLt
  simp only [honestPieces, pieceOf, Pieces.lowSum, Pieces.highSum, ofWord_low, ofWord_high]
  omega

/-- Pieces within their ranges are determined by the halves they reassemble (30_encoding.md R94). -/
theorem pieces_unique {q q' : Pieces} (hop : 0 ≤ q.op ∧ q.op ≤ 127) (hop' : 0 ≤ q'.op ∧ q'.op ≤ 127)
    (hbits : ∀ c ∈ q.bits, c = 0 ∨ c = 1) (hbits' : ∀ c ∈ q'.bits, c = 0 ∨ c = 1)
    (htwits : ∀ c ∈ q.twits, 0 ≤ c ∧ c ≤ 3) (htwits' : ∀ c ∈ q'.twits, 0 ≤ c ∧ c ≤ 3)
    (hlow : q.lowSum = q'.lowSum) (hhigh : q.highSum = q'.highSum) : q = q' := by
  have hrange : ∀ {c : Int}, c = 0 ∨ c = 1 → 0 ≤ c ∧ c ≤ 1 := by omega
  have hb := fun c hc => hrange (hbits c hc)
  have hb' := fun c hc => hrange (hbits' c hc)
  obtain ⟨_, _, _, _, _, _, _, _, _, _, _, _, _, _, _, _⟩ := q
  obtain ⟨_, _, _, _, _, _, _, _, _, _, _, _, _, _, _, _⟩ := q'
  simp only [Pieces.bits, Pieces.twits, Pieces.lowSum, Pieces.highSum, List.forall_mem_cons] at *
  simp only [Pieces.mk.injEq]
  omega

theorem sums_bounds {q : Pieces} (hop : 0 ≤ q.op ∧ q.op ≤ 127) (hbits : ∀ c ∈ q.bits, c = 0 ∨ c = 1)
    (htwits : ∀ c ∈ q.twits, 0 ≤ c ∧ c ≤ 3) :
    0 ≤ q.lowSum ∧ q.lowSum < 65536 ∧ 0 ≤ q.highSum ∧ q.highSum < 65536 := by
  simp only [Pieces.bits, Pieces.twits, Pieces.lowSum, Pieces.highSum, List.forall_mem_cons] at *
  omega

/-- The pieces that satisfy the decoder are the honest ones (30_encoding.md R89 to R94). -/
theorem determined_checkedPieces (hp : p.Prime) (hb : 2 ^ 28 < p) (w : Word) :
    Determined (checkedPieces p (ValU32.ofWord w)) (honestPieces (ValU32.ofWord w)) := by
  have hb' : (268435456 : Int) < p := by exact_mod_cast hb
  have hw := w.isLt
  obtain ⟨hop, hbits, htwits⟩ := honestPieces_ranges w
  obtain ⟨hlow, hhigh⟩ := honestPieces_sums w
  constructor
  · have hall : ∀ c ∈ allPieces (honestPieces (ValU32.ofWord w)), 0 ≤ c ∧ c < (p : Int) := by
      intro c hc
      rcases List.mem_cons.1 hc with rfl | hc
      · omega
      · rcases List.mem_append.1 hc with hc | hc
        · rcases hbits c hc with rfl | rfl <;> omega
        · have := htwits c hc; omega
    refine honestGives_bind (pieceCells_honest hall) (honestGives_bind (a := ()) ?_ (honestGives_pure _))
    unfold checkPieces
    refine honestGives_bind (bits_honest hbits) ?_
    refine honestGives_bind (checkAll_honest fun c hc => twit_honest (htwits c hc).1 (htwits c hc).2) ?_
    refine honestGives_u8 (by omega) hop.1 (by omega) ?_
    refine honestGives_u8 (by omega) (by omega) (by omega) ?_
    rw [hlow, hhigh]
    exact honestGives_assertEq (by rw [sub_self]; rfl) (assertEq_honest (by rw [sub_self]; rfl))
  · refine everySatisfying_bind (everySatisfying_mono (pieceCells_satisfying hp _) fun q hq => ?_)
    have hqop := hq q.op (List.mem_cons_self ..)
    have hqbits : ∀ c ∈ q.bits, 0 ≤ c ∧ c < (p : Int) := fun c hc =>
      hq c (List.mem_cons_of_mem _ (List.mem_append_left _ hc))
    have hqtwits : ∀ c ∈ q.twits, 0 ≤ c ∧ c < (p : Int) := fun c hc =>
      hq c (List.mem_cons_of_mem _ (List.mem_append_right _ hc))
    refine everySatisfying_bind (everySatisfying_mono (P := fun _ => q = honestPieces (ValU32.ofWord w)) ?_
      fun _ e => everySatisfying_pure e)
    unfold checkPieces
    refine everySatisfying_bits hp hqbits fun hb1 => ?_
    refine everySatisfying_checkAll (R := fun c => 0 ≤ c ∧ c ≤ 3) (fun c hc => everySatisfying_assertEq_last fun e =>
      ⟨(hqtwits c hc).1, twit_of_constraint hp hb (hqtwits c hc).1 (hqtwits c hc).2 e⟩) fun ht1 => ?_
    refine everySatisfying_u8 hqop.1 hqop.2 fun hop1 => ?_
    refine everySatisfying_u8 (by omega) (by omega) fun hop2 => ?_
    refine everySatisfying_assertEq fun e0 => ?_
    refine everySatisfying_assertEq_last fun e1 => ?_
    have hop3 : 0 ≤ q.op ∧ q.op ≤ 127 := by omega
    obtain ⟨l0, l1, g0, g1⟩ := sums_bounds hop3 hb1 ht1
    have f0 := eq_of_sub_emod_eq_zero e0 (by simp only [ofWord_low]; omega) (by simp only [ofWord_low]; omega) l0 (by omega)
    have f1 := eq_of_sub_emod_eq_zero e1 (by simp only [ofWord_high]; omega) (by simp only [ofWord_high]; omega) g0
      (by omega)
    exact pieces_unique hop3 hop hb1 hbits ht1 htwits (f0.symm.trans hlow.symm) (f1.symm.trans hhigh.symm)

/-! ## Fields and immediates -/

/-- The decoder's outputs are the fields and immediates of a word (30_encoding.md R92, R93, R95 to R99). -/
structure DecodesTo (w : Word) (d : Decoded) : Prop where
  opcode : d.opcode = (opcodeOf w).toNat
  rd     : d.rd = (rdOf w).toNat
  func3  : d.func3 = (func3Of w).toNat
  rs1    : d.rs1 = (rs1Of w).toNat
  rs2    : d.rs2 = (rs2Of w).toNat
  func7  : d.func7 = (func7Of w).toNat
  immI   : d.immI = ValU32.ofWord (sextWord (imm12I w))
  immS   : d.immS = ValU32.ofWord (sextWord (imm12S w))
  immB   : d.immB = ValU32.ofWord (sextWord (offsetB w))
  immU   : d.immU = ValU32.ofWord (upperWord (imm20U w))
  immJ   : d.immJ = ValU32.ofWord (sextWord (offsetJ w))

theorem toNat_sextWord {n : Nat} (hn : n ≤ 32) (v : BitVec n) :
    (sextWord v).toNat = v.toNat + if 2 ^ (n - 1) ≤ v.toNat then 2 ^ 32 - 2 ^ n else 0 := by
  have hv : v.toNat < 2 ^ 32 := lt_of_lt_of_le v.isLt (Nat.pow_le_pow_right (by decide) hn)
  rw [sextWord, BitVec.toNat_signExtend, BitVec.toNat_setWidth, Nat.mod_eq_of_lt hv, BitVec.msb_eq_decide]
  simp only [decide_eq_true_eq]

/-- Pieces in their ranges that reassemble a word (30_encoding.md R88 to R91). -/
structure Reassembles (w : Word) (q : Pieces) : Prop where
  op    : 0 ≤ q.op ∧ q.op ≤ 127
  bits  : (0 ≤ q.rd0 ∧ q.rd0 ≤ 1) ∧ (0 ≤ q.f3_2 ∧ q.f3_2 ≤ 1) ∧ (0 ≤ q.rs1_0 ∧ q.rs1_0 ≤ 1) ∧
    (0 ≤ q.rs2_0 ∧ q.rs2_0 ≤ 1) ∧ (0 ≤ q.f7_6 ∧ q.f7_6 ≤ 1)
  twits : (0 ≤ q.rd12 ∧ q.rd12 ≤ 3) ∧ (0 ≤ q.rd34 ∧ q.rd34 ≤ 3) ∧ (0 ≤ q.f3_01 ∧ q.f3_01 ≤ 3) ∧
    (0 ≤ q.rs1_12 ∧ q.rs1_12 ≤ 3) ∧ (0 ≤ q.rs1_34 ∧ q.rs1_34 ≤ 3) ∧ (0 ≤ q.rs2_12 ∧ q.rs2_12 ≤ 3) ∧
    (0 ≤ q.rs2_34 ∧ q.rs2_34 ≤ 3) ∧ (0 ≤ q.f7_01 ∧ q.f7_01 ≤ 3) ∧ (0 ≤ q.f7_23 ∧ q.f7_23 ≤ 3) ∧
    (0 ≤ q.f7_45 ∧ q.f7_45 ≤ 3)
  sum   : (w.toNat : Int) = q.lowSum + 65536 * q.highSum

theorem reassembles_honestPieces (w : Word) : Reassembles w (honestPieces (ValU32.ofWord w)) := by
  obtain ⟨hop, hbits, htwits⟩ := honestPieces_ranges w
  obtain ⟨hlow, hhigh⟩ := honestPieces_sums w
  have hrange : ∀ c ∈ (honestPieces (ValU32.ofWord w)).bits, 0 ≤ c ∧ c ≤ 1 := fun c hc => by
    rcases hbits c hc with rfl | rfl <;> decide
  simp only [Pieces.bits, Pieces.twits, List.forall_mem_cons, List.not_mem_nil, false_implies, implies_true,
    and_true] at hrange htwits
  refine ⟨hop, hrange, htwits, ?_⟩
  rw [hlow, hhigh, ofWord_low, ofWord_high]
  omega

theorem toNat_extract (w : Word) (k n : Nat) : (w.extractLsb' k n).toNat = w.toNat / 2 ^ k % 2 ^ n := by
  rw [BitVec.extractLsb'_toNat, Nat.shiftRight_eq_div_pow]

theorem toNat_imm12S (w : Word) :
    (imm12S w).toNat = w.toNat / 2 ^ 25 % 2 ^ 7 * 2 ^ 5 + w.toNat / 2 ^ 7 % 2 ^ 5 := by
  rw [imm12S, BitVec.toNat_cast, toNat_append_eq, toNat_extract, toNat_extract]

theorem toNat_offsetB (w : Word) :
    (offsetB w).toNat = (((w.toNat / 2 ^ 31 % 2 ^ 1 * 2 ^ 1 + w.toNat / 2 ^ 7 % 2 ^ 1) * 2 ^ 6
      + w.toNat / 2 ^ 25 % 2 ^ 6) * 2 ^ 4 + w.toNat / 2 ^ 8 % 2 ^ 4) * 2 ^ 1 := by
  rw [offsetB, BitVec.toNat_cast, toNat_append_eq, toNat_append_eq, toNat_append_eq, toNat_append_eq, toNat_extract,
    toNat_extract, toNat_extract, toNat_extract]
  rfl

theorem toNat_offsetJ (w : Word) :
    (offsetJ w).toNat = (((w.toNat / 2 ^ 31 % 2 ^ 1 * 2 ^ 8 + w.toNat / 2 ^ 12 % 2 ^ 8) * 2 ^ 1
      + w.toNat / 2 ^ 20 % 2 ^ 1) * 2 ^ 10 + w.toNat / 2 ^ 21 % 2 ^ 10) * 2 ^ 1 := by
  rw [offsetJ, BitVec.toNat_cast, toNat_append_eq, toNat_append_eq, toNat_append_eq, toNat_append_eq, toNat_extract,
    toNat_extract, toNat_extract, toNat_extract]
  rfl

section

variable {w : Word} {q : Pieces}

/-- The fields of reassembled pieces (30_encoding.md R92, R93). -/
theorem outputs_fields (h : Reassembles w q) (high : Int) :
    (q.outputs high).opcode = (opcodeOf w).toNat ∧ (q.outputs high).rd = (rdOf w).toNat ∧
      (q.outputs high).func3 = (func3Of w).toNat ∧ (q.outputs high).rs1 = (rs1Of w).toNat ∧
      (q.outputs high).rs2 = (rs2Of w).toNat ∧ (q.outputs high).func7 = (func7Of w).toNat := by
  obtain ⟨hop, hbits, htwits, hsum⟩ := h
  simp only [Pieces.lowSum, Pieces.highSum] at hsum
  simp only [Pieces.outputs, opcodeOf, rdOf, func3Of, rs1Of, rs2Of, func7Of, toNat_extract]
  omega

/-- The I immediate (30_encoding.md R95). -/
theorem outputs_immI (h : Reassembles w q) (high : Int) :
    (q.outputs high).immI = ValU32.ofWord (sextWord (imm12I w)) := by
  obtain ⟨hop, hbits, htwits, hsum⟩ := h
  simp only [Pieces.lowSum, Pieces.highSum] at hsum
  have hv : ((imm12I w).toNat : Int) = q.rs2_0 + 2 * q.rs2_12 + 8 * q.rs2_34 + 32 * q.f7_01 + 128 * q.f7_23
      + 512 * q.f7_45 + 2048 * q.f7_6 := by
    rw [imm12I, toNat_extract]; omega
  rw [Pieces.outputs, eq_ofWord_iff, toNat_sextWord (by decide)]
  simp only [Pieces.f7lo]
  split <;> omega

/-- The S immediate (30_encoding.md R96). -/
theorem outputs_immS (h : Reassembles w q) (high : Int) :
    (q.outputs high).immS = ValU32.ofWord (sextWord (imm12S w)) := by
  obtain ⟨hop, hbits, htwits, hsum⟩ := h
  simp only [Pieces.lowSum, Pieces.highSum] at hsum
  have hv : ((imm12S w).toNat : Int) = q.rd0 + 2 * q.rd12 + 8 * q.rd34 + 32 * q.f7_01 + 128 * q.f7_23
      + 512 * q.f7_45 + 2048 * q.f7_6 := by
    rw [toNat_imm12S]; omega
  rw [Pieces.outputs, eq_ofWord_iff, toNat_sextWord (by decide)]
  simp only [Pieces.f7lo]
  split <;> omega

/-- The B immediate (30_encoding.md R97). -/
theorem outputs_immB (h : Reassembles w q) (high : Int) :
    (q.outputs high).immB = ValU32.ofWord (sextWord (offsetB w)) := by
  obtain ⟨hop, hbits, htwits, hsum⟩ := h
  simp only [Pieces.lowSum, Pieces.highSum] at hsum
  have hv : ((offsetB w).toNat : Int) = 2 * q.rd12 + 8 * q.rd34 + 32 * q.f7_01 + 128 * q.f7_23
      + 512 * q.f7_45 + 2048 * q.rd0 + 4096 * q.f7_6 := by
    have h31 : ((w.toNat / 2 ^ 31 % 2 ^ 1 : Nat) : Int) = q.f7_6 := by omega
    have h7 : ((w.toNat / 2 ^ 7 % 2 ^ 1 : Nat) : Int) = q.rd0 := by omega
    have h25 : ((w.toNat / 2 ^ 25 % 2 ^ 6 : Nat) : Int) = q.f7_01 + 4 * q.f7_23 + 16 * q.f7_45 := by omega
    have h8 : ((w.toNat / 2 ^ 8 % 2 ^ 4 : Nat) : Int) = q.rd12 + 4 * q.rd34 := by omega
    rw [toNat_offsetB]
    simp only [Nat.cast_add, Nat.cast_mul, h31, h7, h25, h8]
    push_cast
    ring
  have hsign : q.f7_6 = 0 ∨ q.f7_6 = 1 := by omega
  rw [Pieces.outputs, eq_ofWord_iff, toNat_sextWord (by decide)]
  simp only [Pieces.f7lo]
  clear hsum
  rcases hsign with hsign | hsign <;> split <;> omega

/-- The U immediate (30_encoding.md R98). -/
theorem outputs_immU (h : Reassembles w q) :
    (q.outputs (ValU32.ofWord w).high).immU = ValU32.ofWord (upperWord (imm20U w)) := by
  obtain ⟨hop, hbits, htwits, hsum⟩ := h
  have hw := w.isLt
  simp only [Pieces.lowSum, Pieces.highSum] at hsum
  rw [Pieces.outputs, eq_ofWord_iff, upperWord_toNat, imm20U, toNat_extract, ofWord_high]
  omega

/-- The J immediate (30_encoding.md R99). -/
theorem outputs_immJ (h : Reassembles w q) (high : Int) :
    (q.outputs high).immJ = ValU32.ofWord (sextWord (offsetJ w)) := by
  obtain ⟨hop, hbits, htwits, hsum⟩ := h
  simp only [Pieces.lowSum, Pieces.highSum] at hsum
  have hv : ((offsetJ w).toNat : Int) = 2 * q.rs2_12 + 8 * q.rs2_34 + 32 * q.f7_01 + 128 * q.f7_23
      + 512 * q.f7_45 + 2048 * q.rs2_0 + 4096 * q.f3_01 + 16384 * q.f3_2 + 32768 * q.rs1_0
      + 65536 * q.rs1_12 + 262144 * q.rs1_34 + 1048576 * q.f7_6 := by
    have h31 : ((w.toNat / 2 ^ 31 % 2 ^ 1 : Nat) : Int) = q.f7_6 := by omega
    have h12 : ((w.toNat / 2 ^ 12 % 2 ^ 8 : Nat) : Int) =
        q.f3_01 + 4 * q.f3_2 + 8 * q.rs1_0 + 16 * q.rs1_12 + 64 * q.rs1_34 := by omega
    have h20 : ((w.toNat / 2 ^ 20 % 2 ^ 1 : Nat) : Int) = q.rs2_0 := by omega
    have h21 : ((w.toNat / 2 ^ 21 % 2 ^ 10 : Nat) : Int) =
        q.rs2_12 + 4 * q.rs2_34 + 16 * q.f7_01 + 64 * q.f7_23 + 256 * q.f7_45 := by omega
    rw [toNat_offsetJ]
    simp only [Nat.cast_add, Nat.cast_mul, h31, h12, h20, h21]
    push_cast
    ring
  rw [Pieces.outputs, eq_ofWord_iff, toNat_sextWord (by decide)]
  simp only [Pieces.f7lo]
  split <;> omega

end

/-- The decoder (30_encoding.md R85 to R101). -/
theorem exists_determined_decodeRow (hp : p.Prime) (hb : 2 ^ 28 < p) (w : Word) :
    ∃ d, Determined (decodeRow p (ValU32.ofWord w)) d ∧ DecodesTo w d := by
  have h := reassembles_honestPieces w
  obtain ⟨h1, h2, h3, h4, h5, h6⟩ := outputs_fields h (ValU32.ofWord w).high
  exact ⟨_, determined_bind (determined_checkedPieces hp hb w) (determined_pure _),
    ⟨h1, h2, h3, h4, h5, h6, outputs_immI h _, outputs_immS h _, outputs_immB h _, outputs_immU h, outputs_immJ h _⟩⟩

/-- Lookup of the decoded fields is lookup of the word (30_encoding.md R116). -/
theorem lookup_of_decodesTo {w : Word} {d : Decoded} (h : DecodesTo w d) :
    d.lookup (ValU32.ofWord w) = Sys2Proof.lookup w := by
  simp only [Decoded.lookup, Sys2Proof.lookup, h.opcode, h.func3, h.func7, ofWord_value, unsigned, Int.toNat_natCast]

end Sys2Proof.Safety
end

section
/-! SUPPORT. The row of every instruction answers what the instruction's functional result is, and the cycle around
it answers what the step does: completeness and soundness of the constraint layer (00_scope.md R17). -/

namespace Sys2Proof.Safety

open Sys2Proof.Machine Sys2Proof.Circuit

variable {p : Nat}

/-! ## How a row ends -/

/-- What a row's end means for the state, before the cycle counter advances (10_state.md R33 to R35). -/
def endOf (s : State) : Except Fault RowEnd → Result
  | .error code => raise code
  | .ok (.output o) => .next (commit s o)
  | .ok (.control word) => controlStep word s

/-- The row has one outcome, and it means this result. -/
def Realizes (m : RowM RowEnd) (s : State) (result : Result) : Prop := ∃ r, Answers m r ∧ endOf s r = result

/-- A row that hands its output record forward. -/
def outputRow (m : RowM RowOutput) : RowM RowEnd := m >>= fun o => pure (.output o)

theorem realizes_output {m : RowM RowOutput} {s : State} {o : RowOutput} {result : Result} (h : Determined m o)
    (ho : .next (commit s o) = result) : Realizes (outputRow m) s result :=
  ⟨.ok (.output o), determined_bind h (determined_pure _), ho⟩

theorem realizes_violation {m : RowM RowOutput} {s : State} {code : Fault} (h : Violates m code) :
    Realizes (outputRow m) s (raise code) := ⟨.error code, violates_bind_left h, rfl⟩

theorem commit_regWrite (s : State) (npc v : Word) (rd : RegNum) :
    commit s ⟨ValU32.ofWord npc, some (rd, ValU32.ofWord v), none⟩ = (s.writeReg rd v).setPc npc := by
  simp only [commit, toWord_ofWord]

theorem commit_memWrite (s : State) (npc v : Word) (a : WordAddr) :
    commit s ⟨ValU32.ofWord npc, none, some (a, ValU32.ofWord v)⟩ =
      { s with mem := s.mem.writeWord a v }.setPc npc := by
  simp only [commit, toWord_ofWord]

theorem commit_none (s : State) (npc : Word) : commit s ⟨ValU32.ofWord npc, none, none⟩ = s.setPc npc := by
  simp only [commit, toWord_ofWord]

/-! ## Parts that instructions share -/

theorem regOf_toNat (r : RegNum) : regOf (r.toNat : Int) = r := by
  rw [regOf, BitVec.ofInt_natCast, BitVec.ofNat_toNat, BitVec.setWidth_eq]

theorem determined_readRegRow (s : State) (r : RegNum) :
    Determined (readRegRow s (r.toNat : Int)) (ValU32.ofWord (s.readReg r)) := by
  unfold readRegRow
  rw [regOf_toNat]
  exact determined_emitTxn (determined_pure _)

/-- ADDR_OK as a row checks it (20_memory.md R68). -/
theorem determined_require {cond : Bool} (h : cond = true) (code : Fault) : Determined (require cond code) () := by
  have := answers_require cond code
  rwa [if_pos h] at this

theorem violates_require {cond : Bool} (h : cond = false) (code : Fault) : Violates (require cond code) code := by
  have := answers_require cond code
  rwa [if_neg (by simp [h])] at this

/-- A comparator bit as a word (42_compare.md R194). -/
theorem determined_condRow {m : RowM Int} {c : Bool} (h : Determined m (asBit c)) :
    Determined (condRow m) (ValU32.ofWord (condWord c)) :=
  determined_bind h (determined_of_eq (determined_pure _) (by cases c <;> rfl))

theorem determined_notRow {m : RowM Int} {c : Bool} (h : Determined m (asBit c)) :
    Determined (notRow m) (asBit (!c)) :=
  determined_bind h (determined_of_eq (determined_pure _) (one_sub_asBit c))

theorem ofInt_wordAddrOf (addr : Word) : BitVec.ofInt 30 ((wordAddrOf addr).toNat : Int) = wordAddrOf addr := by
  rw [BitVec.ofInt_natCast, BitVec.ofNat_toNat, BitVec.setWidth_eq]

theorem asBit_lane (addr : Word) :
    asBit ((laneOf addr).getLsbD 0) = (addr.toNat % 2 : Nat) ∧ asBit ((laneOf addr).getLsbD 1) = (addr.toNat / 2 % 2 : Nat) := by
  have h := laneOf_toNat addr
  have h0 : addr.toNat % 2 = (laneOf addr).toNat % 2 := by omega
  have h1 : addr.toNat / 2 % 2 = (laneOf addr).toNat / 2 := by omega
  rw [h0, h1]
  rcases lane_cases (laneOf addr) with e | e | e | e <;> rw [e] <;> decide

/-- The new data of a store's memory record, bound to the merge (47_load_store.md R322). -/
theorem determined_newData {β : Type} (hb : 2 ^ 28 < p) {v : Word} {k : Int → Int → RowM β} {r : β}
    (hk : Determined (k (ValU32.ofWord v).low (ValU32.ofWord v).high) r) :
    Determined (cell p (ValU32.ofWord v).low >>= fun low => cell p (ValU32.ofWord v).high >>= fun high =>
      assertEq p low (ValU32.ofWord v).low .vMem >>= fun _ =>
      assertEq p high (ValU32.ofWord v).high .vMem >>= fun _ => k low high) r := by
  have hb' : (268435456 : Int) < p := by exact_mod_cast hb
  obtain ⟨l0, l1, g0, g1⟩ := ofWord_canonical v
  constructor
  · refine honestGives_cell l0 (by omega) (honestGives_cell g0 (by omega) ?_)
    refine honestGives_assertEq (by rw [sub_self]; rfl) (honestGives_assertEq (by rw [sub_self]; rfl) hk.1)
  · refine everySatisfying_cell (by omega) fun low a0 a1 => everySatisfying_cell (by omega) fun high b0 b1 => ?_
    refine everySatisfying_assertEq fun e0 => everySatisfying_assertEq fun e1 => ?_
    rw [eq_of_sub_emod_eq_zero e0 a0 a1 l0 (by omega), eq_of_sub_emod_eq_zero e1 b0 b1 g0 (by omega)]
    exact hk.2

section

variable {s : State} {w : Word} {d : Decoded} (hd : DecodesTo w d)

include hd

theorem determined_readRs1 : Determined (readRegRow s d.rs1) (ValU32.ofWord (s.readReg (rs1Of w))) := by
  rw [hd.rs1]; exact determined_readRegRow s _

theorem determined_readRs2 : Determined (readRegRow s d.rs2) (ValU32.ofWord (s.readReg (rs2Of w))) := by
  rw [hd.rs2]; exact determined_readRegRow s _

end

section

variable (hp : p.Prime) (hb : 2 ^ 28 < p)

include hp hb

/-- The address of the next instruction (10_state.md R39). -/
theorem determined_pcPlus4 (s : State) :
    Determined (addConst32 p (ValU32.ofWord s.pc) 4#32)
      (ValU32.ofWord s.pcPlus4, (unsigned s.pc + unsigned 4#32) / 2 ^ 32) := determined_add32 hp hb s.pc 4#32

theorem determined_addrSplit {addr : Word} {size : AccessSize} (ha : aligned size addr = true) (code : Fault) :
    Determined (addrSplit p (ValU32.ofWord addr) size code)
      ((wordAddrOf addr).toNat, asBit ((laneOf addr).getLsbD 0), asBit ((laneOf addr).getLsbD 1)) := by
  have h := answers_addrSplit hp hb addr size code
  rw [if_pos ((aligned_iff size addr).1 ha)] at h
  rw [(asBit_lane addr).1, (asBit_lane addr).2, wordAddrOf_toNat]
  exact h

theorem violates_addrSplit {addr : Word} {size : AccessSize} (ha : aligned size addr = false) (code : Fault) :
    Violates (addrSplit p (ValU32.ofWord addr) size code) code := by
  have h := answers_addrSplit hp hb addr size code
  rwa [if_neg (fun e => by rw [(aligned_iff size addr).2 e] at ha; cases ha)] at h

/-- The left shift by the power of its amount (44_multiply.md R244, R245). -/
theorem determined_leftShift (v : Word) {k : Nat} (hk : k < 32) :
    Determined (firstOf (multiplyAccumulate p (ValU32.ofWord v) (ValU32.ofWord (BitVec.ofNat 32 (2 ^ k))) ⟨0, 0⟩
      false false false)) (ValU32.ofWord (shiftLeft v k)) := by
  rw [← loWord_mul_two_pow v hk]
  exact determined_firstOf (determined_multiplyAccumulate hp hb v _ 0#32 false false false)

/-- The logical right shift by the power of its amount (45_divide.md R270, R272). -/
theorem determined_rightShift (v : Word) {k : Nat} (hk : k < 32) :
    Determined (firstOf (doDiv p (ValU32.ofWord v) (ValU32.ofWord (BitVec.ofNat 32 (2 ^ k))) false))
      (ValU32.ofWord (shiftRightLogical v k)) := by
  rw [← divQuotient_two_pow v hk]
  exact determined_firstOf (determined_doDiv hp hb v _ false)

end

theorem shiftAmount_lt (v : Word) : shiftAmount v < 32 := Nat.mod_lt _ (by decide)

/-! ## The forms of a row -/

/-- A row that ends by writing rd and going on in sequence (41_alu.md R170). -/
theorem realizes_retire {m : RowM RowOutput} {s : State} {rd : RegNum} {v : Word}
    (hm : Determined m ⟨ValU32.ofWord s.pcPlus4, some (rd, ValU32.ofWord v), none⟩) :
    Realizes (outputRow m) s (.next (s.retire rd v)) :=
  realizes_output hm (by rw [commit_regWrite]; rfl)

section

variable (hp : p.Prime) (hb : 2 ^ 28 < p) {s : State} {w : Word} {d : Decoded} (hd : DecodesTo w d)

include hp hb hd

theorem determined_retireRow (v : Word) :
    Determined (retireRow p s d (ValU32.ofWord v))
      ⟨ValU32.ofWord s.pcPlus4, some (rdOf w, ValU32.ofWord v), none⟩ := by
  refine determined_bind (determined_pcPlus4 hp hb s) (determined_of_eq (determined_pure _) ?_)
  rw [hd.rd, regOf_toNat]

/-- An operation on two registers. -/
theorem realizes_regRegRow (f : Word → Word → Word) {unit : ValU32 → ValU32 → RowM ValU32}
    (hu : ∀ a b, Determined (unit (ValU32.ofWord a) (ValU32.ofWord b)) (ValU32.ofWord (f a b))) :
    Realizes (outputRow (regRegRow p s d unit)) s
      (.next (s.retire (rdOf w) (f (s.readReg (rs1Of w)) (s.readReg (rs2Of w))))) :=
  realizes_retire (determined_bind (determined_readRs1 hd)
    (determined_bind (determined_readRs2 hd) (determined_bind (hu _ _) (determined_retireRow hp hb hd _))))

/-- An operation on a register and the I immediate. -/
theorem realizes_regImmRow (f : Word → Word → Word) {unit : ValU32 → ValU32 → RowM ValU32}
    (hu : ∀ a b, Determined (unit (ValU32.ofWord a) (ValU32.ofWord b)) (ValU32.ofWord (f a b))) :
    Realizes (outputRow (regImmRow p s d unit)) s
      (.next (s.retire (rdOf w) (f (s.readReg (rs1Of w)) (sextWord (imm12I w))))) := by
  unfold regImmRow
  rw [hd.immI]
  exact realizes_retire (determined_bind (determined_readRs1 hd)
    (determined_bind (hu _ _) (determined_retireRow hp hb hd _)))

/-- A shift by the amount in the rs2 field (30_encoding.md R100). -/
theorem realizes_shiftImmRow (f : Word → Nat → Word) {unit : ValU32 → ValU32 → RowM ValU32}
    (hu : ∀ a k, k < 32 →
      Determined (unit (ValU32.ofWord a) (ValU32.ofWord (BitVec.ofNat 32 (2 ^ k)))) (ValU32.ofWord (f a k))) :
    Realizes (outputRow (shiftImmRow p s d unit)) s
      (.next (s.retire (rdOf w) (f (s.readReg (rs1Of w)) (rs2Of w).toNat))) := by
  have hk := (rs2Of w).isLt
  unfold shiftImmRow
  rw [hd.rs2]
  exact realizes_retire (determined_bind (determined_readRs1 hd)
    (determined_bind (determined_pow2 hp hb hk) (determined_bind (hu _ _ hk) (determined_retireRow hp hb hd _))))

/-- A shift by the amount in a register (44_multiply.md R238). -/
theorem realizes_shiftRegRow (f : Word → Nat → Word) {unit : ValU32 → ValU32 → RowM ValU32}
    (hu : ∀ a k, k < 32 →
      Determined (unit (ValU32.ofWord a) (ValU32.ofWord (BitVec.ofNat 32 (2 ^ k)))) (ValU32.ofWord (f a k))) :
    Realizes (outputRow (regRegRow p s d fun a b => pow2OfRegister p b >>= fun pw => unit a pw)) s
      (.next (s.retire (rdOf w) (f (s.readReg (rs1Of w)) (shiftAmount (s.readReg (rs2Of w)))))) :=
  realizes_regRegRow hp hb hd (fun a b => f a (shiftAmount b)) fun a b =>
    determined_bind (determined_pow2OfRegister hp hb b) (hu a _ (shiftAmount_lt b))

/-- A branch on a comparator bit (46_control_transfer.md R293). -/
theorem realizes_compareBranchRow (f : Word → Word → Bool) {cond : ValU32 → ValU32 → RowM Int}
    (hc : ∀ a b, Determined (cond (ValU32.ofWord a) (ValU32.ofWord b)) (asBit (f a b))) :
    Realizes (outputRow (compareBranchRow p s d cond)) s
      (.next (s.branch (f (s.readReg (rs1Of w)) (s.readReg (rs2Of w))) (offsetB w))) := by
  have hbranch : ∀ c, Determined (branchRow p s d (asBit c))
      ⟨ValU32.ofWord (if c then s.relTarget (offsetB w) else s.pcPlus4), none, none⟩ := by
    intro c
    unfold branchRow
    rw [hd.immB]
    refine determined_bind (determined_add32 hp hb s.pc _) (determined_bind (determined_pcPlus4 hp hb s) ?_)
    exact determined_of_eq (determined_pure _) (by rw [selectWord_asBit]; rfl)
  exact realizes_output (determined_bind (determined_readRs1 hd) (determined_bind (determined_readRs2 hd)
    (determined_bind (hc _ _) (hbranch _)))) (by rw [commit_none]; rfl)

/-- A load: its checks in order, then the extended word (47_load_store.md R310 to R312, R316). -/
theorem realizes_loadRow (size : AccessSize) (f : Word → BitVec 2 → Word) {extend : ValU32 → Int → Int → RowM ValU32}
    (he : ∀ word lane, Determined (extend (ValU32.ofWord word) (asBit (lane.getLsbD 0)) (asBit (lane.getLsbD 1)))
      (ValU32.ofWord (f word lane))) :
    Realizes (outputRow (loadRow p s d size extend)) s (loadFrom size f (rdOf w) (rs1Of w) (imm12I w) s) := by
  have hea : Determined (add32 p (ValU32.ofWord (s.readReg (rs1Of w))) (ValU32.ofWord (sextWord (imm12I w))))
      (ValU32.ofWord (s.effAddr (rs1Of w) (imm12I w)), _) := determined_add32 hp hb _ _
  unfold loadRow
  rw [hd.immI]
  rcases loadFrom_cases size f (rdOf w) (rs1Of w) (imm12I w) s with ⟨c, hc, hres⟩ | ⟨hn, hres⟩ <;> rw [hres]
  · refine realizes_violation (violates_bind_right (determined_readRs1 hd) (violates_bind_right hea ?_))
    rcases accessViolation_eq_some.1 hc with ⟨ha, rfl⟩ | ⟨ha, hok, rfl⟩
    · exact violates_bind_left (violates_addrSplit hp hb ha _)
    · refine violates_bind_right (determined_addrSplit hp hb ha _) (violates_bind_left (violates_require ?_ _))
      rw [ofInt_wordAddrOf]; exact hok
  · obtain ⟨ha, hok⟩ := accessViolation_eq_none.1 hn
    refine realizes_retire (determined_bind (determined_readRs1 hd) (determined_bind hea
      (determined_bind (determined_addrSplit hp hb ha _) ?_)))
    simp only [ofInt_wordAddrOf]
    exact determined_bind (determined_require hok _) (determined_emitTxn
      (determined_bind (he _ _) (determined_retireRow hp hb hd _)))

/-- A store: its checks in order, then the merged word (47_load_store.md R310 to R312, R322, R323). -/
theorem realizes_storeRow (size : AccessSize) :
    Realizes (outputRow (storeRow p s d size)) s (storeTo size (rs1Of w) (rs2Of w) (imm12S w) s) := by
  have hea : Determined (add32 p (ValU32.ofWord (s.readReg (rs1Of w))) (ValU32.ofWord (sextWord (imm12S w))))
      (ValU32.ofWord (s.effAddr (rs1Of w) (imm12S w)), _) := determined_add32 hp hb _ _
  unfold storeRow
  rw [hd.immS]
  rcases storeTo_cases size (rs1Of w) (rs2Of w) (imm12S w) s with ⟨c, hc, hres⟩ | ⟨hn, hres⟩ <;> rw [hres]
  · refine realizes_violation (violates_bind_right (determined_readRs1 hd)
      (violates_bind_right (determined_readRs2 hd) (violates_bind_right hea ?_)))
    rcases accessViolation_eq_some.1 hc with ⟨ha, rfl⟩ | ⟨ha, hok, rfl⟩
    · exact violates_bind_left (violates_addrSplit hp hb ha _)
    · refine violates_bind_right (determined_addrSplit hp hb ha _) (violates_bind_left (violates_require ?_ _))
      rw [ofInt_wordAddrOf]; exact hok
  · obtain ⟨ha, hok⟩ := accessViolation_eq_none.1 hn
    refine realizes_output (o := ⟨ValU32.ofWord s.pcPlus4, none, some (wordAddrOf (s.effAddr (rs1Of w) (imm12S w)),
      ValU32.ofWord (merge (s.mem.readWord (wordAddrOf (s.effAddr (rs1Of w) (imm12S w)))) (s.readReg (rs2Of w))
        (laneOf (s.effAddr (rs1Of w) (imm12S w))) size))⟩) ?_ (by rw [commit_memWrite]; rfl)
    refine determined_bind (determined_readRs1 hd) (determined_bind (determined_readRs2 hd) (determined_bind hea
      (determined_bind (determined_addrSplit hp hb ha _) ?_)))
    simp only [ofInt_wordAddrOf]
    exact determined_bind (determined_require hok _) (determined_bind (determined_mergeRow hb _ _ _ size)
      (determined_newData hb (determined_bind (determined_pcPlus4 hp hb s) (determined_pure _))))

/-- JAL (46_control_transfer.md R300). -/
theorem realizes_jal : Realizes (rowExec p .jal d s) s (exec (.jal (rdOf w) (offsetJ w)) s) := by
  refine realizes_output (o := ⟨ValU32.ofWord (s.relTarget (offsetJ w)), some (rdOf w, ValU32.ofWord s.pcPlus4), none⟩)
    (determined_bind (determined_pcPlus4 hp hb s) ?_) (by rw [commit_regWrite]; rfl)
  rw [hd.immJ, hd.rd, regOf_toNat]
  exact determined_bind (determined_add32 hp hb s.pc _) (determined_pure _)

/-- JALR (46_control_transfer.md R301). -/
theorem realizes_jalr : Realizes (rowExec p .jalr d s) s (exec (.jalr (rdOf w) (rs1Of w) (imm12I w)) s) := by
  refine realizes_output
    (o := ⟨ValU32.ofWord (s.jalrTarget (rs1Of w) (imm12I w)), some (rdOf w, ValU32.ofWord s.pcPlus4), none⟩)
    (determined_bind (determined_readRs1 hd) ?_) (by rw [commit_regWrite]; rfl)
  rw [hd.immI, hd.rd, regOf_toNat]
  exact determined_bind (determined_add32 hp hb _ _) (determined_bind (determined_clearBit0Row hp hb _)
    (determined_bind (determined_pcPlus4 hp hb s) (determined_pure _)))

end

/-! ## Every instruction -/

/-- The row of every instruction means the instruction's functional result (00_scope.md R17). -/
theorem rowExec_realizes (hp : p.Prime) (hb : 2 ^ 28 < p) (op : Op) {w : Word} {d : Decoded} (hd : DecodesTo w d)
    (s : State) : Realizes (rowExec p op d s) s (exec (op.withOperands w) s) := by
  have hadd := fun a b => determined_firstOf (determined_add32 hp hb a b)
  have hltS := fun a b => determined_ltSRow hp hb a b
  have hltU := fun a b => determined_ltURow hp hb a b
  have hmul := fun sA sB a b => determined_multiplyAccumulate hp hb a b 0#32 sA sB false
  have hdiv := fun sg a b => determined_doDiv hp hb a b sg
  have hsra := fun (a : Word) k hk => determined_shiftArithRow hp hb a (k := k) hk
  cases op with
  | add => exact realizes_regRegRow hp hb hd (fun a b => a + b) hadd
  | sub => exact realizes_regRegRow hp hb hd (fun a b => a - b) fun a b => determined_firstOf (determined_sub32 hp hb a b)
  | addi => exact realizes_regImmRow hp hb hd (fun a b => a + b) hadd
  | and => exact realizes_regRegRow hp hb hd (fun a b => a &&& b) (determined_bitAnd hp hb)
  | or => exact realizes_regRegRow hp hb hd (fun a b => a ||| b) (determined_bitOr hp hb)
  | xor => exact realizes_regRegRow hp hb hd (fun a b => a ^^^ b) (determined_bitXor hp hb)
  | andi => exact realizes_regImmRow hp hb hd (fun a b => a &&& b) (determined_bitAnd hp hb)
  | ori => exact realizes_regImmRow hp hb hd (fun a b => a ||| b) (determined_bitOr hp hb)
  | xori => exact realizes_regImmRow hp hb hd (fun a b => a ^^^ b) (determined_bitXor hp hb)
  | slt => exact realizes_regRegRow hp hb hd (fun a b => condWord (ltS a b)) fun a b => determined_condRow (hltS a b)
  | sltu => exact realizes_regRegRow hp hb hd (fun a b => condWord (ltU a b)) fun a b => determined_condRow (hltU a b)
  | slti => exact realizes_regImmRow hp hb hd (fun a b => condWord (ltS a b)) fun a b => determined_condRow (hltS a b)
  | sltiu => exact realizes_regImmRow hp hb hd (fun a b => condWord (ltU a b)) fun a b => determined_condRow (hltU a b)
  | beq => exact realizes_compareBranchRow hp hb hd eqU (determined_eqU32 hp hb)
  | bne =>
    exact realizes_compareBranchRow hp hb hd (fun a b => !eqU a b) fun a b =>
      determined_notRow (determined_eqU32 hp hb a b)
  | blt => exact realizes_compareBranchRow hp hb hd ltS hltS
  | bge => exact realizes_compareBranchRow hp hb hd geS fun a b => determined_notRow (hltS a b)
  | bltu => exact realizes_compareBranchRow hp hb hd ltU hltU
  | bgeu => exact realizes_compareBranchRow hp hb hd geU fun a b => determined_notRow (hltU a b)
  | jal => exact realizes_jal hp hb hd
  | jalr => exact realizes_jalr hp hb hd
  | lui =>
    refine realizes_retire (m := retireRow p s d d.immU) ?_
    rw [hd.immU]
    exact determined_retireRow hp hb hd _
  | auipc =>
    refine realizes_retire (m := add32 p (ValU32.ofWord s.pc) d.immU >>= fun x => retireRow p s d x.1) ?_
    rw [hd.immU]
    exact determined_bind (determined_add32 hp hb s.pc _) (determined_retireRow hp hb hd _)
  | mul =>
    exact realizes_regRegRow hp hb hd (fun a b => loWord (macValue a b 0#32 false false false)) fun a b =>
      determined_firstOf (hmul false false a b)
  | mulh =>
    exact realizes_regRegRow hp hb hd (fun a b => hiWord (macValue a b 0#32 true true false)) fun a b =>
      determined_secondOf (hmul true true a b)
  | mulhsu =>
    exact realizes_regRegRow hp hb hd (fun a b => hiWord (macValue a b 0#32 true false false)) fun a b =>
      determined_secondOf (hmul true false a b)
  | mulhu =>
    exact realizes_regRegRow hp hb hd (fun a b => hiWord (macValue a b 0#32 false false false)) fun a b =>
      determined_secondOf (hmul false false a b)
  | div =>
    exact realizes_regRegRow hp hb hd (fun a b => divQuotient a b true) fun a b => determined_firstOf (hdiv true a b)
  | divu =>
    exact realizes_regRegRow hp hb hd (fun a b => divQuotient a b false) fun a b => determined_firstOf (hdiv false a b)
  | rem =>
    exact realizes_regRegRow hp hb hd (fun a b => divRemainder a b true) fun a b => determined_secondOf (hdiv true a b)
  | remu =>
    exact realizes_regRegRow hp hb hd (fun a b => divRemainder a b false) fun a b =>
      determined_secondOf (hdiv false a b)
  | sll => exact realizes_shiftRegRow hp hb hd shiftLeft fun a k hk => determined_leftShift hp hb a hk
  | srl => exact realizes_shiftRegRow hp hb hd shiftRightLogical fun a k hk => determined_rightShift hp hb a hk
  | sra => exact realizes_shiftRegRow hp hb hd shiftRightArith hsra
  | slli => exact realizes_shiftImmRow hp hb hd shiftLeft fun a k hk => determined_leftShift hp hb a hk
  | srli => exact realizes_shiftImmRow hp hb hd shiftRightLogical fun a k hk => determined_rightShift hp hb a hk
  | srai => exact realizes_shiftImmRow hp hb hd shiftRightArith hsra
  | lb =>
    exact realizes_loadRow hp hb hd .byte (fun word lane => (byteSel word lane).signExtend 32) fun word lane =>
      determined_bind (determined_byteSelRow hb word lane) (determined_sextByte hp hb _)
  | lbu =>
    exact realizes_loadRow hp hb hd .byte (fun word lane => (byteSel word lane).setWidth 32) fun word lane =>
      determined_bind (determined_byteSelRow hb word lane)
        (determined_of_eq (determined_pure _) (ofWord_setWidth (by decide) _))
  | lh =>
    refine realizes_loadRow hp hb hd .half (fun word lane => (halfSel word lane).signExtend 32) fun word lane => ?_
    rw [halfSelRow_asBit]
    exact determined_sextHalf hp hb _
  | lhu =>
    refine realizes_loadRow hp hb hd .half (fun word lane => (halfSel word lane).setWidth 32) fun word lane => ?_
    rw [halfSelRow_asBit]
    exact determined_of_eq (determined_pure _) (ofWord_setWidth (by decide) _)
  | lw => exact realizes_loadRow hp hb hd .word (fun word _ => word) fun word _ => determined_pure _
  | sb => exact realizes_storeRow hp hb hd .byte
  | sh => exact realizes_storeRow hp hb hd .half
  | sw => exact realizes_storeRow hp hb hd .word
  | ecall => exact ⟨.ok (.control 0x00000073#32), determined_pure _, rfl⟩
  | mret => exact ⟨.ok (.control 0x30200073#32), determined_pure _, rfl⟩

end Sys2Proof.Safety
end

section
/-! SUPPORT. The cycle around an instruction's row answers what the step does under the honest oracle, and what the step
does or a violation under any other: completeness and soundness of the constraint layer (00_scope.md R17). -/

namespace Sys2Proof.Safety

open Sys2Proof.Machine Sys2Proof.Circuit

variable {cfg : FieldConfig}

/-! ## The dispatch pair -/

theorem exists_answers_assertEq (p : Nat) (a b : Int) (code : Fault) : ∃ r, Answers (assertEq p a b code) r := by
  by_cases h : (a - b) % (p : Int) = 0
  · exact ⟨.ok (), determined_assertEq code h⟩
  · exact ⟨.error code, violates_assertEq code h⟩

/-- The dispatch binding holds or is a violation, whatever pair the oracle gave (30_encoding.md R117). -/
theorem exists_answers_bindDispatch (cfg : FieldConfig) (op : Op) (major minor : Int) :
    ∃ r, Answers (bindDispatch cfg op major minor) r := by
  obtain ⟨r, hr⟩ := exists_answers_assertEq cfg.p major (cfg.majorCode (dispatchOf cfg op).1 : Nat) .vDispatch
  unfold bindDispatch
  cases r with
  | error code => exact ⟨.error code, violates_bind_left hr⟩
  | ok u =>
    split
    · exact ⟨.ok (), determined_bind hr (determined_pure ())⟩
    · exact ⟨.ok (), determined_bind hr (determined_pure ())⟩
    · obtain ⟨r', hr'⟩ := exists_answers_assertEq cfg.p minor (dispatchOf cfg op).2 .vDispatch
      exact ⟨r', answers_bind hr hr'⟩

/-- The instruction's own pair is bound (30_encoding.md R117). -/
theorem determined_bindDispatch (cfg : FieldConfig) (op : Op) :
    Determined (bindDispatch cfg op (cfg.majorCode (dispatchOf cfg op).1 : Nat) (dispatchOf cfg op).2) () := by
  have hself : ∀ (a : Int) (code : Fault), Determined (assertEq cfg.p a a code) () :=
    fun a code => determined_assertEq code (by rw [sub_self]; rfl)
  unfold bindDispatch
  refine determined_bind (hself _ _) ?_
  split
  · exact determined_pure ()
  · exact determined_pure ()
  · exact hself _ _

/-- The minors of the opcode table are minors (30_encoding.md R103). -/
theorem minor_lt_numMinors (op : Op) : ∀ r ∈ op.row, ∀ m ∈ r.minor, m < Config.numMinors := by
  cases op <;> decide

theorem dispatchOf_minor_lt (hcfg : cfg.Ok) (op : Op) : (dispatchOf cfg op).2 < Config.numMinors := by
  obtain ⟨-, -, -, hsys⟩ := hcfg
  unfold dispatchOf
  split
  · next r hr =>
    cases hm : r.minor with
    | none => exact hsys op
    | some m => exact minor_lt_numMinors op r hr m hm
  · decide

theorem oneHotFrom_minor : ∀ m : Fin 8, (oneHotFrom 8 0 (m.val : Nat)).sum = 1 ∧
    indexSum 0 (oneHotFrom 8 0 (m.val : Nat)) = (m.val : Nat) := by decide

/-- The honest pair is a code of the field and a minor (60_exceptions.md R364). -/
theorem honestDispatch_bounds (hcfg : cfg.Ok) (s : State) :
    ∃ major minor : Nat, honestDispatch cfg s = ((major : Int), (minor : Int)) ∧ major < cfg.p ∧
      minor < Config.numMinors := by
  have ⟨hp, _, hmajor, _⟩ := hcfg
  unfold honestDispatch
  split
  · exact ⟨_, _, rfl, hmajor _, dispatchOf_minor_lt hcfg _⟩
  · exact ⟨0, 0, rfl, hp.pos, by decide⟩

/-- The honest pair and one-hot (10_state.md R32). -/
theorem oneHotRow_honest (hcfg : cfg.Ok) (s : State) : HonestGives (oneHotRow cfg s) (honestDispatch cfg s) := by
  obtain ⟨major, minor, hd, hmajor, hminor⟩ := honestDispatch_bounds hcfg s
  obtain ⟨-, hb, -, -⟩ := hcfg
  have hbits := oneHotFrom_bits Config.numMinors 0 minor
  obtain ⟨hsum, hindex⟩ := oneHotFrom_minor ⟨minor, hminor⟩
  have hn : Config.numMinors = 8 := rfl
  unfold oneHotRow
  rw [hd]
  refine honestGives_cell (by omega) (by omega) ?_
  refine honestGives_cell (by omega) (by omega) ?_
  refine honestGives_bind (cells_honest fun e he => ?_) ?_
  · rcases hbits e he with rfl | rfl <;> omega
  refine honestGives_bind (checkAll_honest fun c hc => assertEq_honest ?_) ?_
  · rcases hbits c hc with rfl | rfl <;> simp
  refine honestGives_assertEq (by rw [hn, hsum]; rfl) ?_
  refine honestGives_assertEq ?_ (honestGives_pure _)
  rw [hn, hindex, sub_self]
  rfl

/-! ## The cycle after the dispatch pair -/

/-- The cycle once the oracle has given its pair, with the check of the pair left open (10_state.md R45;
60_exceptions.md R362). -/
def rowBody (cfg : FieldConfig) (s : State) (bind : Op → RowM Unit) : RowM RowEnd := do
  require (s.istate == s.params.stateDecode) .vState
  let (w, _, _) ← addrSplit cfg.p (ValU32.ofWord s.pc) .word .vFetchAlign
  require (s.addrOk .fetch (BitVec.ofInt 30 w)) .vMem
  emitTxn ⟨.fetch, BitVec.ofInt 30 w, s.mem.readWord (BitVec.ofInt 30 w)⟩
  let word := ValU32.ofWord (s.mem.readWord (BitVec.ofInt 30 w))
  let d ← decodeRow cfg.p word
  match d.lookup word with
  | none => violation .vIllegal
  | some op => do
    bind op
    rowExec cfg.p op d s

theorem rowCycle_eq (cfg : FieldConfig) (s : State) :
    rowCycle cfg s = oneHotRow cfg s >>= fun x => rowBody cfg s fun op => bindDispatch cfg op x.1 x.2 := rfl

theorem determined_emit (t : Txn) : Determined (emitTxn t) () :=
  ⟨fun st hst => ⟨{ st with txns := st.txns ++ [t] }, rfl, hst⟩, fun _ _ _ _ => rfl⟩

theorem aligned_word_iff (addr : Word) : aligned .word addr = true ↔ addr.toNat % 4 = 0 := aligned_iff .word addr

/-- The checks of a cycle before its decode, in the order of 60_exceptions.md R362. -/
theorem violates_rowBody (hcfg : cfg.Ok) {s : State} {c : Fault} (hc : s.fetchViolation = some c)
    (bind : Op → RowM Unit) : Violates (rowBody cfg s bind) c := by
  obtain ⟨hp, hb, -, -⟩ := hcfg
  have hdecode : s.istate = s.params.stateDecode →
      Determined (require (s.istate == s.params.stateDecode) .vState) () :=
    fun h => determined_require (beq_iff_eq.2 h) _
  rcases fetchViolation_eq_some.1 hc with ⟨hst, rfl⟩ | ⟨hst, hal, rfl⟩ | ⟨hst, hal, hok, rfl⟩
  · exact violates_bind_left (violates_require (beq_eq_false_iff_ne.2 hst) _)
  · refine violates_bind_right (hdecode hst) (violates_bind_left (violates_addrSplit hp hb ?_ _))
    exact Bool.eq_false_iff.2 fun h => hal ((aligned_word_iff s.pc).1 h)
  · refine violates_bind_right (hdecode hst) (violates_bind_right
      (determined_addrSplit hp hb ((aligned_word_iff s.pc).2 hal) _) (violates_bind_left (violates_require ?_ _)))
    rw [ofInt_wordAddrOf]
    exact hok

/-- Where the fetch is in order, the cycle goes on to the decoded word (10_state.md R45). -/
theorem exists_decoded_rowBody (hcfg : cfg.Ok) {s : State} (hc : s.fetchViolation = none) (bind : Op → RowM Unit) :
    ∃ d, DecodesTo s.fetchWord d ∧ ∀ r,
      Answers (match Sys2Proof.lookup s.fetchWord with
        | none => violation .vIllegal
        | some op => bind op >>= fun _ => rowExec cfg.p op d s) r → Answers (rowBody cfg s bind) r := by
  obtain ⟨hp, hb, -, -⟩ := hcfg
  obtain ⟨hst, hal, hok⟩ := fetchViolation_eq_none.1 hc
  obtain ⟨d, hdet, hd⟩ := exists_determined_decodeRow hp hb s.fetchWord
  refine ⟨d, hd, fun r hr => ?_⟩
  refine answers_bind (determined_require (beq_iff_eq.2 hst) _) (answers_bind
    (determined_addrSplit hp hb ((aligned_word_iff s.pc).2 hal) _) ?_)
  simp only [ofInt_wordAddrOf]
  refine answers_bind (determined_require hok _) (answers_bind (determined_emit _) (answers_bind hdet ?_))
  have hl := lookup_of_decodesTo hd
  unfold State.fetchWord at hl hr
  rw [hl]
  exact hr

/-- The cycle means what the step does, unless the check of the dispatch pair fails. -/
theorem rowBody_realizes_step (hcfg : cfg.Ok) (s : State) {bind : Op → RowM Unit} {bound : Except Fault Unit}
    (hbind : ∀ op, Sys2Proof.lookup s.fetchWord = some op → Answers (bind op) bound) :
    ∃ r, Answers (rowBody cfg s bind) r ∧
      (endCycle (endOf s r) = step s ∨ ∃ code, bound = .error code ∧ r = .error code) := by
  have ⟨hp, hb, _, _⟩ := hcfg
  rcases step_cases s with ⟨c, hc, hstep⟩ | ⟨hc, ⟨e, he⟩, hstep⟩ | ⟨i, hc, hi, hstep⟩ <;> rw [hstep]
  · exact ⟨.error c, violates_rowBody hcfg hc bind, .inl rfl⟩
  · obtain ⟨d, -, hbody⟩ := exists_decoded_rowBody hcfg hc bind
    refine ⟨.error .vIllegal, hbody _ ?_, .inl rfl⟩
    unfold decodeWord at he
    cases hl : Sys2Proof.lookup s.fetchWord with
    | none => exact violates_violation _
    | some op => rw [hl] at he; cases he
  · obtain ⟨d, hd, hbody⟩ := exists_decoded_rowBody hcfg hc bind
    unfold decodeWord at hi
    cases hl : Sys2Proof.lookup s.fetchWord with
    | none => rw [hl] at hi; cases hi
    | some op =>
      rw [hl] at hi hbody
      cases hi
      have hop := hbind op hl
      cases bound with
      | error code => exact ⟨.error code, hbody _ (violates_bind_left hop), .inr ⟨code, rfl, rfl⟩⟩
      | ok u =>
        obtain ⟨r, hr, hend⟩ := rowExec_realizes hp hb op hd s
        exact ⟨r, hbody r (answers_bind hop hr), .inl (congrArg endCycle hend)⟩

/-! ## The cycle under an oracle -/

theorem circuitStep_of_ok {tape : List (Option Nat)} {s : State} {a : RowEnd} {st : RowState}
    (h : rowCycle cfg s (RowState.start tape) = .ok (a, st)) : circuitStep cfg tape s = endCycle (endOf s (.ok a)) := by
  unfold circuitStep
  rw [h]
  cases a <;> rfl

theorem circuitStep_of_error {tape : List (Option Nat)} {s : State} {code : Fault}
    (h : rowCycle cfg s (RowState.start tape) = .error code) : circuitStep cfg tape s = .fault code := by
  unfold circuitStep
  rw [h]
  rfl

/-- Under any oracle, a row that satisfies its constraints means what the step does (00_scope.md R17 (b)). -/
theorem circuitStep_eq_step_of_ok (hcfg : cfg.Ok) {tape : List (Option Nat)} {s : State} {a : RowEnd} {st : RowState}
    (h : rowCycle cfg s (RowState.start tape) = .ok (a, st)) : circuitStep cfg tape s = step s := by
  rw [circuitStep_of_ok h]
  rw [rowCycle_eq] at h
  obtain ⟨x, st1, -, hbody⟩ := bind_eq_ok.1 h
  obtain ⟨bound, hbound⟩ : ∃ bound, ∀ op, Sys2Proof.lookup s.fetchWord = some op →
      Answers (bindDispatch cfg op x.1 x.2) bound := by
    cases hl : Sys2Proof.lookup s.fetchWord with
    | none => exact ⟨.ok (), fun _ e => by cases e⟩
    | some op =>
      obtain ⟨bound, hb⟩ := exists_answers_bindDispatch cfg op x.1 x.2
      exact ⟨bound, fun _ e => by cases e; exact hb⟩
  obtain ⟨r, hr, hstep⟩ := rowBody_realizes_step hcfg s hbound
  cases r with
  | error code => exact (hr.2 _ _ _ hbody).elim
  | ok b =>
    obtain rfl : a = b := hr.2 _ _ _ hbody
    rcases hstep with hstep | ⟨code, -, hcode⟩
    · exact hstep
    · cases hcode

/-- Settles O56: the honest pair is the instruction's own, so the honest row means what the step does. -/
theorem circuitIsComplete : Obligations.CircuitIsComplete := by
  intro cfg hcfg s
  have hbound : ∀ op, Sys2Proof.lookup s.fetchWord = some op →
      Answers (bindDispatch cfg op (honestDispatch cfg s).1 (honestDispatch cfg s).2) (.ok ()) := by
    intro op hl
    simp only [honestDispatch, hl]
    exact determined_bindDispatch cfg op
  obtain ⟨st, hone, htape⟩ := oneHotRow_honest hcfg s (RowState.start []) rfl
  have hrow : rowCycle cfg s (RowState.start []) = rowBody cfg s (fun op =>
      bindDispatch cfg op (honestDispatch cfg s).1 (honestDispatch cfg s).2) st := by
    rw [rowCycle_eq]
    exact bind_ok hone
  obtain ⟨r, hr, hstep⟩ := rowBody_realizes_step hcfg s hbound
  rcases hstep with hstep | ⟨code, hcode, -⟩
  · cases r with
    | error code => exact (circuitStep_of_error (hrow.trans (hr.1 st htape))).trans hstep
    | ok a =>
      obtain ⟨st', hok, -⟩ := hr.1 st htape
      exact (circuitStep_of_ok (hrow.trans hok)).trans hstep
  · cases hcode

/-- Settles O57: a row is the step's result where its constraints hold, and a violation where one fails. -/
theorem circuitIsSound : Obligations.CircuitIsSound := by
  intro cfg hcfg tape s
  cases hrow : rowCycle cfg s (RowState.start tape) with
  | error code =>
    rw [circuitStep_of_error hrow]
    exact ⟨fun _ h => (nomatch h), fun _ h => (nomatch h), fun _ _ => ⟨code, rfl⟩⟩
  | ok x =>
    rw [circuitStep_eq_step_of_ok hcfg hrow]
    exact ⟨fun _ h => h, fun _ h => h, fun c h => ⟨c, h⟩⟩

end Sys2Proof.Safety
end

section
/-! SUPPORT. What every step keeps: the slot of x0, the interpreter state and the mode, an even pc; and the checks of a
cycle before its instruction (10_state.md; 60_exceptions.md R362; 70_reset_and_hazards.md R384). -/

namespace Sys2Proof.Safety

open Sys2Proof.Machine

/-! ## The slot of x0 -/

/-- A register write leaves 0 in the slot of x0: x0 takes 0, and no other register has its slot (10_state.md R36,
R37). -/
theorem x0Slot_writeReg {s : State} (hz : s.mem.readWord (s.slot 0#5) = 0#32) (rd : RegNum) (v : Word) :
    (s.writeReg rd v).mem.readWord (s.slot 0#5) = 0#32 := by
  by_cases hrd : rd = 0#5
  · subst hrd
    exact readWord_slot_writeReg s 0#5 v
  · have hslot : s.slot 0#5 ≠ s.slot rd := fun e => hrd (slot_injective s e).symm
    exact (readWord_writeWord_ne s.mem hslot _).trans hz

/-- A store to another word leaves 0 in the slot of x0 (47_load_store.md R327). -/
theorem x0Slot_store {s : State} (hz : s.mem.readWord (s.slot 0#5) = 0#32) {size : AccessSize} {addr data : Word}
    (hne : wordAddrOf addr ≠ s.slot 0#5) : (s.store size addr data).mem.readWord (s.slot 0#5) = 0#32 :=
  (readWord_writeWord_ne s.mem hne.symm _).trans hz

theorem loadFrom_next {size : AccessSize} {extend : Word → BitVec 2 → Word} {rd rs1 : RegNum} {imm : BitVec 12}
    {s t : State} (h : loadFrom size extend rd rs1 imm s = .next t) : ∃ v, t = s.retire rd v := by
  rcases loadFrom_cases size extend rd rs1 imm s with ⟨c, -, hc⟩ | ⟨-, hc⟩ <;> rw [hc] at h <;> cases h
  exact ⟨_, rfl⟩

theorem storeTo_next {size : AccessSize} {rs1 rs2 : RegNum} {imm : BitVec 12} {s t : State}
    (h : storeTo size rs1 rs2 imm s = .next t) :
    t = (s.store size (s.effAddr rs1 imm) (s.readReg rs2)).setPc s.pcPlus4 := by
  rcases storeTo_cases size rs1 rs2 imm s with ⟨c, -, hc⟩ | ⟨-, hc⟩ <;> rw [hc] at h <;> cases h
  rfl

/-- Settles O3: a store goes to the word that `storedWord` names, and every other write is that of a register. -/
theorem x0SlotKeptByInstructions : Obligations.X0SlotKeptByInstructions := by
  intro i s t hi hst hz h
  have hstore : ∀ {size : AccessSize} {rs1 rs2 : RegNum} {imm : BitVec 12},
      storeTo size rs1 rs2 imm s = .next t → wordAddrOf (s.effAddr rs1 imm) ≠ s.slot 0#5 →
        t.mem.readWord (t.slot 0#5) = 0#32 := by
    intro size rs1 rs2 imm hs hne
    rw [storeTo_next hs]
    exact x0Slot_store hz hne
  have hload : ∀ {size : AccessSize} {extend : Word → BitVec 2 → Word} {rd rs1 : RegNum} {imm : BitVec 12},
      loadFrom size extend rd rs1 imm s = .next t → t.mem.readWord (t.slot 0#5) = 0#32 := by
    intro size extend rd rs1 imm hl
    obtain ⟨v, rfl⟩ := loadFrom_next hl
    exact x0Slot_writeReg hz rd v
  cases i <;> simp only [exec] at h
  case lb | lh | lw | lbu | lhu => exact hload h
  case sb | sh | sw => exact hstore h fun e => hst (congrArg some e)
  case ecall | mret => cases hi
  case beq | bne | blt | bge | bltu | bgeu => cases h; exact hz
  all_goals cases h; exact x0Slot_writeReg hz _ _

/-- Where ADDR_OK guards the slot of x0 and no control answer is pending, every instruction keeps the x0 premise
(70_reset_and_hazards.md R384): a store that completes passed ADDR_OK, so it went to another word. -/
theorem exec_keeps_x0Inv {i : Instr} {s t : State} (hs : X0Inv s) (h : exec i s = .next t) : X0Inv t := by
  obtain ⟨hmem, halone, hguard, hz⟩ := hs
  rcases exec_next_cases h with ⟨rd, v, rfl⟩ | ⟨cond, offset, -, rfl⟩ | ⟨rd, target, -, rfl⟩ |
    ⟨size, addr, data, -, hok, rfl⟩ | ⟨r, rest, hc, -⟩
  · exact ⟨wf_retire hmem rd v, halone, hguard, x0Slot_writeReg hz rd v⟩
  · exact ⟨hmem, halone, hguard, hz⟩
  · exact ⟨wf_jump hmem rd target, halone, hguard, x0Slot_writeReg hz rd _⟩
  · have hne : wordAddrOf addr ≠ s.slot 0#5 := by
      intro e
      rw [e, hguard] at hok
      cases hok
    exact ⟨wf_store hmem size addr data, halone, hguard, x0Slot_store hz hne⟩
  · rw [halone] at hc
    cases hc

/-- Settles O4: the instruction keeps the premise, and the end of the cycle touches none of it. -/
theorem x0InvariantKeptBySteps : Obligations.X0InvariantKeptBySteps := by
  intro s t hs h
  obtain ⟨i, u, -, -, hexec, rfl⟩ := step_next_cases h
  obtain ⟨hmem, halone, hguard, hz⟩ := exec_keeps_x0Inv hs hexec
  exact ⟨hmem, halone, hguard, hz⟩

/-! ## The checks of a cycle -/

theorem step_of_fetchViolation {s : State} {c : Fault} (h : s.fetchViolation = some c) : step s = .fault c := by
  rcases step_cases s with ⟨c', hc, hstep⟩ | ⟨hn, -, -⟩ | ⟨i, hn, -, -⟩
  · rw [h] at hc
    cases hc
    exact hstep
  all_goals
    rw [h] at hn
    cases hn

theorem step_of_not_decodeReady {s : State} (h : s.istate ≠ s.params.stateDecode) : step s = .fault .vState :=
  step_of_fetchViolation (fetchViolation_eq_some.2 (.inl ⟨h, rfl⟩))

theorem step_of_misaligned_pc {s : State} (hst : s.istate = s.params.stateDecode) (hpc : s.pc.toNat % 4 ≠ 0) :
    step s = .fault .vFetchAlign :=
  step_of_fetchViolation (fetchViolation_eq_some.2 (.inr (.inl ⟨hst, hpc, rfl⟩)))

theorem step_of_refused_fetch {s : State} (hst : s.istate = s.params.stateDecode) (hpc : s.pc.toNat % 4 = 0)
    (hok : s.addrOk .fetch (wordAddrOf s.pc) = false) : step s = .fault .vMem :=
  step_of_fetchViolation (fetchViolation_eq_some.2 (.inr (.inr ⟨hst, hpc, hok, rfl⟩)))

theorem fetchViolation_of_fetchOk {s : State} (h : FetchOk s) : s.fetchViolation = none :=
  fetchViolation_eq_none.2 ⟨h.istate, h.aligned, h.allowed⟩

theorem decodeWord_eq_ok {w : Word} {i : Instr} :
    decodeWord w = .ok i ↔ ∃ op, lookup w = some op ∧ i = op.withOperands w := by
  unfold decodeWord
  cases lookup w <;> simp [eq_comm]

theorem decodeWord_of_lookup_none {w : Word} (h : lookup w = none) : decodeWord w = .error (.illegal w) := by
  unfold decodeWord
  rw [h]

theorem step_of_lookup_none {s : State} (hs : FetchOk s) (h : lookup s.fetchWord = none) :
    step s = .fault .vIllegal := by
  rcases step_cases s with ⟨c, hc, -⟩ | ⟨-, -, hstep⟩ | ⟨i, -, hi, -⟩
  · rw [fetchViolation_of_fetchOk hs] at hc
    cases hc
  · exact hstep
  · rw [decodeWord_of_lookup_none h] at hi
    cases hi

theorem step_of_decodeWord {s : State} {i : Instr} (hs : FetchOk s) (h : decodeWord s.fetchWord = .ok i) :
    step s = endCycle (exec i s) := by
  rcases step_cases s with ⟨c, hc, -⟩ | ⟨-, ⟨e, he⟩, -⟩ | ⟨j, -, hj, hstep⟩
  · rw [fetchViolation_of_fetchOk hs] at hc
    cases hc
  · rw [h] at he
    cases he
  · rw [h] at hj
    cases hj
    exact hstep

/-! ## The opcode table by mask -/

/-- Masking keeps each field apart (30_encoding.md R81). -/
theorem and_encR (w : Word) (m7 : BitVec 7) (mrs2 mrs1 : RegNum) (m3 : BitVec 3) (mrd : RegNum) (mop : BitVec 7) :
    w &&& encR m7 mrs2 mrs1 m3 mrd mop =
      encR (func7Of w &&& m7) (rs2Of w &&& mrs2) (rs1Of w &&& mrs1) (func3Of w &&& m3) (rdOf w &&& mrd)
        (opcodeOf w &&& mop) := by
  conv_lhs => rw [← encR_fields w]
  simp only [encR, BitVec.and_cast, BitVec.and_append]

/-- The rows that func7, func3 and the opcode decide (30_encoding.md R103). -/
theorem and_mask_func7 {w : Word} {f7 f3 op : Nat} (h7 : (func7Of w).toNat = f7) (h3 : (func3Of w).toNat = f3)
    (hop : (opcodeOf w).toNat = op) :
    w &&& 0xFE00707F#32 = encR (BitVec.ofNat 7 f7) 0#5 0#5 (BitVec.ofNat 3 f3) 0#5 (BitVec.ofNat 7 op) := by
  have hm : 0xFE00707F#32 = encR (BitVec.allOnes 7) 0#5 0#5 (BitVec.allOnes 3) 0#5 (BitVec.allOnes 7) := by decide
  rw [hm, and_encR, ← h7, ← h3, ← hop]
  simp only [BitVec.and_allOnes, BitVec.and_zero, BitVec.ofNat_toNat, BitVec.setWidth_eq]

/-- The rows that func3 and the opcode decide (30_encoding.md R103). -/
theorem and_mask_func3 {w : Word} {f3 op : Nat} (h3 : (func3Of w).toNat = f3) (hop : (opcodeOf w).toNat = op) :
    w &&& 0x0000707F#32 = encR 0#7 0#5 0#5 (BitVec.ofNat 3 f3) 0#5 (BitVec.ofNat 7 op) := by
  have hm : 0x0000707F#32 = encR 0#7 0#5 0#5 (BitVec.allOnes 3) 0#5 (BitVec.allOnes 7) := by decide
  rw [hm, and_encR, ← h3, ← hop]
  simp only [BitVec.and_allOnes, BitVec.and_zero, BitVec.ofNat_toNat, BitVec.setWidth_eq]

/-- The rows that the opcode decides (30_encoding.md R103). -/
theorem and_mask_opcode {w : Word} {op : Nat} (hop : (opcodeOf w).toNat = op) :
    w &&& 0x0000007F#32 = encR 0#7 0#5 0#5 0#3 0#5 (BitVec.ofNat 7 op) := by
  have hm : 0x0000007F#32 = encR 0#7 0#5 0#5 0#3 0#5 (BitVec.allOnes 7) := by decide
  rw [hm, and_encR, ← hop]
  simp only [BitVec.and_allOnes, BitVec.and_zero, BitVec.ofNat_toNat, BitVec.setWidth_eq]

/-- The row of the instruction that the fields name matches the word by mask (30_encoding.md R116). -/
theorem hits_row_of_lookup {w : Word} {op : Op} (h : lookup w = some op) :
    ∃ r, op.row = some r ∧ w &&& r.mask = r.mtch := by
  unfold lookup lookupFields at h
  split at h
  case h_1 hop =>
    split at h <;> cases h <;> refine ⟨_, rfl, ?_⟩
    all_goals exact (and_mask_func7 ‹(func7Of w).toNat = _› ‹(func3Of w).toNat = _› hop).trans (by decide)
  case h_2 hop =>
    split at h <;> cases h <;> refine ⟨_, rfl, ?_⟩
    iterate 6 exact (and_mask_func3 ‹(func3Of w).toNat = _› hop).trans (by decide)
    all_goals exact (and_mask_func7 ‹(func7Of w).toNat = _› ‹(func3Of w).toNat = _› hop).trans (by decide)
  case h_4 | h_6 | h_7 => cases h; exact ⟨_, rfl, (and_mask_opcode ‹(opcodeOf w).toNat = _›).trans (by decide)⟩
  case h_3 | h_5 | h_8 | h_9 =>
    split at h <;> cases h <;> refine ⟨_, rfl, ?_⟩
    all_goals exact (and_mask_func3 ‹(func3Of w).toNat = _› ‹(opcodeOf w).toNat = _›).trans (by decide)
  case h_10 =>
    have hall : ∀ v : Nat, w.toNat = v → w &&& 0xFFFFFFFF#32 = BitVec.ofNat 32 v := by
      intro v hv
      rw [← hv, BitVec.ofNat_toNat, BitVec.setWidth_eq]
      exact BitVec.and_allOnes
    split at h
    · cases h
      exact ⟨_, rfl, hall _ ‹_›⟩
    · split at h <;> cases h
      exact ⟨_, rfl, hall _ ‹_›⟩
  case h_11 => cases h

/-- A word that no row matches by mask has no instruction by its fields either (30_encoding.md R116). -/
theorem lookup_none_of_lookupByMask_none {w : Word} (h : lookupByMask w = none) : lookup w = none := by
  by_contra hne
  obtain ⟨op, hop⟩ := Option.ne_none_iff_exists'.1 hne
  obtain ⟨r, hrow, hhit⟩ := hits_row_of_lookup hop
  have hmem : r ∈ opcodeTable := List.mem_of_find?_eq_some hrow
  have hmiss := List.find?_eq_none.1 (Option.map_eq_none_iff.1 h) r hmem
  exact hmiss (beq_iff_eq.2 hhit)

/-- Settles O7: the first failing check is the one that `fetchViolation` names; a word of no row decodes to nothing. -/
theorem commonChecksInOrder : Obligations.CommonChecksInOrder := fun _ =>
  ⟨step_of_not_decodeReady, step_of_misaligned_pc, step_of_refused_fetch,
    fun hs h => step_of_lookup_none hs (lookup_none_of_lookupByMask_none h)⟩

/-- Settles O6: the bytes at an aligned pc are the bytes of the fetched word. -/
theorem stepRunsDecoded : Obligations.StepRunsDecoded := by
  intro s i rest hs _ hdec
  have hpc : s.pc.toNat = 4 * (wordAddrOf s.pc).toNat := by
    have := hs.aligned
    rw [wordAddrOf_toNat]
    omega
  have hbytes : [s.mem.readByte s.pc.toNat, s.mem.readByte (s.pc.toNat + 1), s.mem.readByte (s.pc.toNat + 2),
      s.mem.readByte (s.pc.toNat + 3)] = bytesOfWord s.fetchWord := by
    simp only [bytesOfWord, State.fetchWord, byteOfWord_readWord, Nat.reduceLT, hpc, Nat.add_zero]
  rw [hbytes, decode_bytesOfWord] at hdec
  have hi : decodeWord s.fetchWord = .ok i := by
    cases hd : decodeWord s.fetchWord <;> rw [hd] at hdec <;> cases hdec
    rfl
  rw [step_of_decodeWord hs hi]
  cases exec i s <;> rfl

/-! ## The handoff fields -/

/-- An instruction of files 41 to 47 keeps the interpreter state and the mode (10_state.md R35). -/
theorem exec_keeps_handoff {i : Instr} {s t : State} (hi : handsOver i = false) (h : exec i s = .next t) :
    t.istate = s.istate ∧ t.mode = s.mode := by
  have hcontrol := exec_control_of_not_handsOver hi h
  rcases exec_next_cases h with ⟨_, _, rfl⟩ | ⟨_, _, -, rfl⟩ | ⟨_, _, -, rfl⟩ | ⟨_, _, _, -, -, rfl⟩ |
    ⟨r, rest, hc, rfl⟩
  case inr.inr.inr.inr => exact absurd (hcontrol.trans hc) (List.ne_cons_self)
  all_goals exact ⟨rfl, rfl⟩

/-- Settles O5: the first check of a cycle, and what the instruction keeps after it. -/
theorem handoffFieldsKept : Obligations.HandoffFieldsKept := by
  refine ⟨fun s => step_of_not_decodeReady, fun s t i hi hdata h => ?_⟩
  obtain ⟨j, u, hf, hj, hexec, rfl⟩ := step_next_cases h
  rw [hi] at hj
  cases hj
  obtain ⟨histate, hmode⟩ := exec_keeps_handoff hdata hexec
  obtain ⟨hready, -, -⟩ := fetchViolation_eq_none.1 hf
  exact ⟨hready, histate.trans hready, hmode⟩

/-! ## The parity of the pc -/

theorem withOperands_wf (op : Op) (w : Word) : (op.withOperands w).wf = true := by
  cases op
  case beq | bne | blt | bge | bltu | bgeu => exact evenOffset_offsetB w
  case jal => exact evenOffset_offsetJ w
  all_goals rfl

theorem wf_of_decodeWord {w : Word} {i : Instr} (h : decodeWord w = .ok i) : i.wf = true := by
  obtain ⟨op, -, rfl⟩ := decodeWord_eq_ok.1 h
  exact withOperands_wf op w

theorem even_iff_getLsbD (v : Word) : v.toNat % 2 = 0 ↔ v.getLsbD 0 = false := by
  rw [BitVec.getLsbD, Nat.testBit_zero]
  simp

theorem pcPlus4_even {s : State} (hpc : s.pc.toNat % 2 = 0) : s.pcPlus4.toNat % 2 = 0 := by
  rw [State.pcPlus4, BitVec.toNat_add, BitVec.toNat_ofNat]
  omega

/-- An even offset from an even pc is an even target (46_control_transfer.md R292). -/
theorem relTarget_even {n : Nat} {s : State} {offset : BitVec n} (hn : 0 < n) (hpc : s.pc.toNat % 2 = 0)
    (ho : evenOffset offset = true) : (s.relTarget offset).toNat % 2 = 0 := by
  have hoff : (sextWord offset).toNat % 2 = 0 := by
    rw [even_iff_getLsbD, sextWord, BitVec.getLsbD_signExtend]
    simpa [hn, evenOffset] using ho
  rw [State.relTarget, BitVec.toNat_add]
  omega

theorem clearBit0_even (v : Word) : (clearBit0 v).toNat % 2 = 0 := by
  rw [clearBit0_toNat]
  omega

/-- An instruction of files 41 to 47 hands an even pc to an even pc (46_control_transfer.md R292). -/
theorem exec_keeps_pc_even {i : Instr} {s t : State} (hwf : i.wf = true) (hi : handsOver i = false)
    (hpc : s.pc.toNat % 2 = 0) (h : exec i s = .next t) : t.pc.toNat % 2 = 0 := by
  have hcontrol := exec_control_of_not_handsOver hi h
  rcases exec_next_cases h with ⟨_, _, rfl⟩ | ⟨cond, offset, ho, rfl⟩ | ⟨rd, target, ho, rfl⟩ |
    ⟨_, _, _, -, -, rfl⟩ | ⟨r, rest, hc, rfl⟩
  · exact pcPlus4_even hpc
  · rw [branch_pc]
    split
    · exact relTarget_even (by decide) hpc (ho hwf)
    · exact pcPlus4_even hpc
  · rcases ho hwf with ⟨offset, he, rfl⟩ | ⟨v, rfl⟩
    · exact relTarget_even (by decide) hpc he
    · exact clearBit0_even v
  · exact pcPlus4_even hpc
  · exact absurd (hcontrol.trans hc) (List.ne_cons_self)

theorem handsOver_of_transfersControl {i : Instr} (h : transfersControl i = true) : handsOver i = false := by
  cases i
  case ecall | mret => cases h
  all_goals rfl

/-- Settles O35: the target of a branch or jump from an aligned pc is even, and the next cycle checks the rest. -/
theorem misalignedTargetFaultsAtFetch : Obligations.MisalignedTargetFaultsAtFetch := by
  intro s t i hi htransfer h
  have hdata := handsOver_of_transfersControl htransfer
  obtain ⟨-, hkept⟩ := handoffFieldsKept
  obtain ⟨hready, hready', -⟩ := hkept s t i hi hdata h
  obtain ⟨j, u, hf, hj, hexec, rfl⟩ := step_next_cases h
  rw [hi] at hj
  cases hj
  obtain ⟨-, hparams⟩ := exec_keeps_cycle_params hexec
  obtain ⟨-, hpc, -⟩ := fetchViolation_eq_none.1 hf
  have heven : s.pc.toNat % 2 = 0 := by omega
  have htarget : u.pc.toNat % 2 = 0 := exec_keeps_pc_even (wf_of_decodeWord hi) hdata heven hexec
  refine ⟨htarget, fun hal => ?_⟩
  exact step_of_misaligned_pc (hready'.trans (congrArg Params.stateDecode hparams.symm)) hal

end Sys2Proof.Safety
end

section
/-! SUPPORT. What the instructions of files 41 to 46 compute, in the claims' readings of words, and the accesses that
reach a register's slot (47_load_store.md R327). -/

namespace Sys2Proof.Safety

open Sys2Proof.Machine

/-! ## Instructions that retire one value -/

/-- An instruction that retires a value computes it (10_state.md R36, R37). -/
theorem computes_of_retire {i : Instr} {s : State} {rd : RegNum} {v v' : Word}
    (hi : exec i s = .next (s.retire rd v)) (hv : v = v') : Computes i s rd v' (u32 (unsigned s.pc + 4)) :=
  ⟨_, hi, hv ▸ writesReg_retire s rd v⟩

/-! ## Sums and upper immediates -/

theorem add_eq_u32 (a b : Word) : a + b = u32 (unsigned a + unsigned b) := by
  rw [u32_add, u32_unsigned, u32_unsigned]

theorem sub_eq_u32 (a b : Word) : a - b = u32 (unsigned a - unsigned b) := by
  rw [u32_sub, u32_unsigned, u32_unsigned]

theorem sextWord_eq_u32 {n : Nat} (imm : BitVec n) : sextWord imm = u32 (sextInt imm) := (u32_sextInt imm).symm

theorem upperWord_eq_u32 (imm : BitVec 20) : upperWord imm = u32 ((imm.toNat : Int) * 2 ^ 12) := by
  rw [← u32_unsigned (upperWord imm), unsigned, upperWord_toNat]
  push_cast
  rfl

/-- Settles O14: the three values are sums and differences of words. -/
theorem addSubtractCompute : Obligations.AddSubtractCompute := by
  intro s rd rs1 rs2 imm
  refine ⟨computes_of_retire rfl (add_eq_u32 _ _), computes_of_retire rfl (sub_eq_u32 _ _),
    computes_of_retire rfl ?_⟩
  rw [sextWord_eq_u32, u32_add, u32_unsigned]

/-- Settles O15: the upper immediate is `imm20 * 2^12`. -/
theorem upperImmediatesCompute : Obligations.UpperImmediatesCompute := by
  intro s rd imm
  refine ⟨computes_of_retire rfl (upperWord_eq_u32 imm), computes_of_retire rfl ?_⟩
  rw [upperWord_eq_u32, u32_add, u32_unsigned]

/-! ## Comparisons -/

theorem ltS_iff (a b : Word) : ltS a b = true ↔ signed a < signed b := by
  rw [signed_eq_toInt, signed_eq_toInt, ltS, decide_eq_true_iff]

theorem ltU_iff_unsigned (a b : Word) : ltU a b = true ↔ unsigned a < unsigned b := by
  rw [ltU_iff, unsigned, unsigned, Int.ofNat_lt]

theorem condWord_of_iff {c : Bool} {q : Prop} [Decidable q] (h : c = true ↔ q) :
    condWord c = if q then 1#32 else 0#32 := by
  rw [condWord]
  exact if_congr h rfl rfl

/-- Settles O16: the comparator bits are the comparisons of the readings. -/
theorem setLessThanComputes : Obligations.SetLessThanComputes := by
  intro s rd rs1 rs2 imm
  refine ⟨computes_of_retire rfl (condWord_of_iff (ltS_iff _ _)),
    computes_of_retire rfl (condWord_of_iff (ltU_iff_unsigned _ _)),
    computes_of_retire rfl (condWord_of_iff ?_), computes_of_retire rfl (condWord_of_iff ?_)⟩
  · rw [ltS, decide_eq_true_iff, signed_eq_toInt, sextInt_eq_toInt, sextWord,
      BitVec.toInt_signExtend_of_le (by decide)]
  · rw [sextWord_eq_u32]
    exact ltU_iff_unsigned _ _

/-! ## Bits -/

/-- Settles O17: a bit of the word is the operation on the operands' bits. -/
theorem bitwiseComputes : Obligations.BitwiseComputes := by
  intro s rd rs1 rs2 imm
  rw [u32_sextInt]
  exact ⟨⟨_, computes_of_retire rfl rfl, fun _ _ => BitVec.getLsbD_and⟩,
    ⟨_, computes_of_retire rfl rfl, fun _ _ => BitVec.getLsbD_or⟩,
    ⟨_, computes_of_retire rfl rfl, fun _ _ => BitVec.getLsbD_xor⟩,
    ⟨_, computes_of_retire rfl rfl, fun _ _ => BitVec.getLsbD_and⟩,
    ⟨_, computes_of_retire rfl rfl, fun _ _ => BitVec.getLsbD_or⟩,
    ⟨_, computes_of_retire rfl rfl, fun _ _ => BitVec.getLsbD_xor⟩⟩

/-! ## Products -/

theorem readAs_true (v : Word) : readAs true v = signed v := (signed_eq_toInt v).symm

theorem readAs_false (v : Word) : readAs false v = unsigned v := rfl

/-- What MultiplyAccumulate computes with no addend (44_multiply.md R234). -/
theorem toNat_macValue_zero (a b : Word) (sA sB : Bool) :
    ((macValue a b 0#32 sA sB false).toNat : Int) = readAs sA a * readAs sB b % 2 ^ 64 := by
  have hm := Int.emod_nonneg (readAs sA a * readAs sB b) (by decide : (2 ^ 64 : Int) ≠ 0)
  have hzero : readAs false 0#32 = 0 := rfl
  rw [macValue, hzero, add_zero, BitVec.toNat_ofInt]
  push_cast
  omega

/-- The low word of a product (44_multiply.md R240). -/
theorem loWord_macValue (a b : Word) (sA sB : Bool) :
    loWord (macValue a b 0#32 sA sB false) = u32 (readAs sA a * readAs sB b) := by
  have hm := toNat_macValue_zero a b sA sB
  have hu := toNat_u32 (readAs sA a * readAs sB b)
  rw [← BitVec.toNat_inj, toNat_loWord]
  omega

/-- The high word of the exact product (44_multiply.md R241 to R243). -/
theorem hiWord_macValue (a b : Word) (sA sB : Bool) :
    hiWord (macValue a b 0#32 sA sB false) = u32 (readAs sA a * readAs sB b / 2 ^ 32) := by
  have hm := toNat_macValue_zero a b sA sB
  have hu := toNat_u32 (readAs sA a * readAs sB b / 2 ^ 32)
  rw [← BitVec.toNat_inj, toNat_hiWord]
  omega

/-- Settles O18: the two words of the exact product of the readings. -/
theorem multiplyComputes : Obligations.MultiplyComputes := by
  intro s rd rs1 rs2
  simp only [← readAs_true, ← readAs_false]
  exact ⟨computes_of_retire rfl (loWord_macValue _ _ false false),
    computes_of_retire rfl (hiWord_macValue _ _ true true),
    computes_of_retire rfl (hiWord_macValue _ _ true false),
    computes_of_retire rfl (hiWord_macValue _ _ false false)⟩

/-! ## Shifts -/

/-- The left shift as a product (44_multiply.md R244, R245). -/
theorem shiftLeft_eq_u32 (v : Word) (k : Nat) : shiftLeft v k = u32 (unsigned v * 2 ^ k) := by
  have hcast : unsigned v * 2 ^ k = ((v.toNat * 2 ^ k : Nat) : Int) := by
    rw [unsigned]
    push_cast
    rfl
  rw [shiftLeft, ← BitVec.toNat_inj, BitVec.toNat_shiftLeft, Nat.shiftLeft_eq, hcast, u32, BitVec.ofInt_natCast,
    BitVec.toNat_ofNat]

/-- Settles O19: the shift amount is the low five bits of the register, or the shift field. -/
theorem leftShiftComputes : Obligations.LeftShiftComputes := fun _ _ _ _ _ =>
  ⟨computes_of_retire rfl (shiftLeft_eq_u32 _ _), computes_of_retire rfl (shiftLeft_eq_u32 _ _)⟩

/-- The logical right shift as a quotient (45_divide.md R270, R272). -/
theorem shiftRightLogical_eq_u32 (v : Word) (k : Nat) : shiftRightLogical v k = u32 (unsigned v / 2 ^ k) := by
  have hcast : unsigned v / 2 ^ k = (((shiftRightLogical v k).toNat : Nat) : Int) := by
    rw [shiftRightLogical, BitVec.toNat_ushiftRight, Nat.shiftRight_eq_div_pow, unsigned]
    push_cast
    rfl
  rw [hcast]
  exact (u32_unsigned _).symm

/-- The arithmetic right shift as a quotient of the signed reading (45_divide.md R271). -/
theorem shiftRightArith_eq_u32 (v : Word) (k : Nat) : shiftRightArith v k = u32 (signed v / 2 ^ k) := by
  rw [shiftRightArith, signed_eq_toInt, Int.fdiv_eq_ediv_of_nonneg _ (by positivity)]
  rfl

/-- Settles O22: the logical shifts divide the unsigned reading, the arithmetic ones the signed reading. -/
theorem rightShiftComputes : Obligations.RightShiftComputes := fun _ _ _ _ _ =>
  ⟨computes_of_retire rfl (shiftRightLogical_eq_u32 _ _), computes_of_retire rfl (shiftRightLogical_eq_u32 _ _),
    computes_of_retire rfl (shiftRightArith_eq_u32 _ _), computes_of_retire rfl (shiftRightArith_eq_u32 _ _)⟩

/-! ## Division -/

theorem divQuotient_zero (n : Word) (signed : Bool) : divQuotient n 0#32 signed = 0xFFFFFFFF#32 := rfl

theorem divRemainder_zero (n : Word) (signed : Bool) : divRemainder n 0#32 signed = n := rfl

/-- The unsigned laws away from a zero divisor (45_divide.md R262). -/
theorem unsigned_division_laws (n : Word) {d : Word} (hd : d ≠ 0#32) :
    unsigned n = unsigned (divQuotient n d false) * unsigned d + unsigned (divRemainder n d false) ∧
      unsigned (divRemainder n d false) < unsigned d := by
  have hq : divQuotient n d false = BitVec.ofNat 32 (n.toNat / d.toNat) := if_neg hd
  have hr : divRemainder n d false = BitVec.ofNat 32 (n.toNat % d.toNat) := if_neg hd
  obtain ⟨heq, hlt, -⟩ := (unsigned_division_iff hd).2 ⟨hq, hr⟩
  exact ⟨heq.symm, Int.ofNat_lt.2 hlt⟩

/-- Settles O21: the division table's row for a zero divisor, and the laws elsewhere. -/
theorem unsignedDivisionComputes : Obligations.UnsignedDivisionComputes := by
  intro s rd rs1 rs2
  refine ⟨divQuotient (s.readReg rs1) (s.readReg rs2) false, divRemainder (s.readReg rs1) (s.readReg rs2) false,
    computes_of_retire rfl rfl, computes_of_retire rfl rfl, fun hd => ?_, unsigned_division_laws _⟩
  rw [hd]
  exact ⟨divQuotient_zero _ _, divRemainder_zero _ _⟩

/-- The signed laws away from a zero divisor and the overflow (45_divide.md R262). -/
theorem signed_division_laws {n d : Word} (hd : d ≠ 0#32) (hovf : divOverflow n d = false) :
    signed n = signed (divQuotient n d true) * signed d + signed (divRemainder n d true) ∧
      |signed (divRemainder n d true)| < |signed d| ∧
      (signed (divRemainder n d true) = 0 ∨ (signed (divRemainder n d true) < 0 ↔ signed n < 0)) := by
  have hq : divQuotient n d true = BitVec.ofInt 32 (Int.tdiv n.toInt d.toInt) := by
    rw [divQuotient, if_neg hd, if_pos rfl, hovf]
    rfl
  have hr : divRemainder n d true = BitVec.ofInt 32 (Int.tmod n.toInt d.toInt) := by
    rw [divRemainder, if_neg hd, if_pos rfl, hovf]
    rfl
  obtain ⟨heq, hlt, hsign⟩ := (signed_division_iff hd hovf).2 ⟨hq, hr⟩
  have habs : |(divRemainder n d true).toInt| < |d.toInt| := by
    rw [Int.abs_eq_natAbs, Int.abs_eq_natAbs]
    exact Int.ofNat_lt.2 hlt
  simp only [signed_eq_toInt]
  refine ⟨heq.symm, habs, ?_⟩
  by_cases hzero : divRemainder n d true = 0#32
  · exact .inl (by rw [hzero]; rfl)
  · have hmsb := hsign rfl hzero
    rw [BitVec.msb_eq_toInt, BitVec.msb_eq_toInt, decide_eq_decide] at hmsb
    exact .inr hmsb

/-- Settles O20: the division table's rows for a zero divisor and the overflow, and the laws elsewhere. -/
theorem signedDivisionComputes : Obligations.SignedDivisionComputes := by
  intro s rd rs1 rs2
  refine ⟨divQuotient (s.readReg rs1) (s.readReg rs2) true, divRemainder (s.readReg rs1) (s.readReg rs2) true,
    computes_of_retire rfl rfl, computes_of_retire rfl rfl, fun hd => ?_, fun hn hd => ?_, fun hd hne => ?_⟩
  · rw [hd]
    exact ⟨divQuotient_zero _ _, divRemainder_zero _ _⟩
  · rw [hn, hd]
    decide
  · refine signed_division_laws hd (Bool.eq_false_iff.2 fun h => hne ?_)
    simpa [divOverflow] using h

/-! ## Branches and jumps -/

/-- A branch completes and moves the pc by its condition alone (46_control_transfer.md R290, R293). -/
theorem onlyMovesPc_of_branch {i : Instr} {s : State} {c : Bool} {q : Prop} [Decidable q] {offset : BitVec 13}
    (hi : exec i s = .next (s.branch c offset)) (hc : c = true ↔ q) :
    OnlyMovesPc i s (if q then u32 (unsigned s.pc + sextInt offset) else u32 (unsigned s.pc + 4)) := by
  rw [OnlyMovesPc, hi, ← relTarget_eq_u32, u32_pc_add_four, ← if_congr hc rfl rfl]
  rfl

theorem eqU_iff (a b : Word) : eqU a b = true ↔ a = b := beq_iff_eq

theorem not_eqU_iff (a b : Word) : (!eqU a b) = true ↔ a ≠ b := by
  rw [Bool.not_eq_true', Bool.eq_false_iff, ne_eq, eqU_iff]

theorem geS_iff (a b : Word) : geS a b = true ↔ signed b ≤ signed a := by
  rw [geS, Bool.not_eq_true', Bool.eq_false_iff, ne_eq, ltS_iff, not_lt]

theorem geU_iff (a b : Word) : geU a b = true ↔ unsigned b ≤ unsigned a := by
  rw [geU, Bool.not_eq_true', Bool.eq_false_iff, ne_eq, ltU_iff_unsigned, not_lt]

/-- Settles O23: each branch's bit is its condition. -/
theorem branchesMoveThePc : Obligations.BranchesMoveThePc := fun _ _ _ _ =>
  ⟨onlyMovesPc_of_branch rfl (eqU_iff _ _), onlyMovesPc_of_branch rfl (not_eqU_iff _ _),
    onlyMovesPc_of_branch rfl (ltS_iff _ _), onlyMovesPc_of_branch rfl (geS_iff _ _),
    onlyMovesPc_of_branch rfl (ltU_iff_unsigned _ _), onlyMovesPc_of_branch rfl (geU_iff _ _)⟩

/-- A jump links and goes to its target (46_control_transfer.md R290). -/
theorem computes_of_jump {i : Instr} {s : State} {rd : RegNum} {target target' : Word}
    (hi : exec i s = .next (s.jump rd target)) (ht : target = target') :
    Computes i s rd (u32 (unsigned s.pc + 4)) target' := by
  rw [u32_pc_add_four]
  exact ⟨_, hi, ht ▸ writesReg_jump s rd target⟩

/-- A word with bit 0 cleared, as a difference (40_primitives.md R151). -/
theorem clearBit0_eq_u32 (v : Word) : clearBit0 v = u32 (unsigned v - unsigned v % 2) := by
  have hclear := clearBit0_toNat v
  rw [← u32_unsigned (clearBit0 v)]
  congr 1
  unfold unsigned
  omega

/-- Settles O24: the targets of JAL and JALR, the base of JALR read before the link is written. -/
theorem jumpsLink : Obligations.JumpsLink := by
  intro s rd rs1 offset imm
  refine ⟨computes_of_jump rfl (relTarget_eq_u32 s offset), fun target ht => computes_of_jump rfl ?_⟩
  rw [ht, ← effAddr_eq_u32]
  exact clearBit0_eq_u32 _

/-! ## Hints -/

/-- The instructions of files 41 to 45 retire a value to their destination. -/
theorem exec_of_computedReg {i : Instr} {rd : RegNum} (h : computedReg i = some rd) (s : State) :
    ∃ v, exec i s = .next (s.retire rd v) := by
  cases i <;> cases h <;> exact ⟨_, rfl⟩

/-- Writing the word that a slot holds changes no byte. -/
theorem readByte_writeWord_readWord (m : Memory) (w : WordAddr) (a : Nat) :
    (m.writeWord w (m.readWord w)).readByte a = m.readByte a := by
  rw [readByte_writeWord]
  split
  · next h =>
    have ha : 4 * w.toNat + a % 4 = a := by omega
    rw [byteOfWord_readWord m w (Nat.mod_lt a (by decide)), ha]
  · rfl

theorem listed_of_isSome {m : Memory} {a : Nat} (h : (m.listed a).isSome) : m.listed a = some (m.readByte a) := by
  obtain ⟨v, hv⟩ := Option.isSome_iff_exists.1 h
  rw [hv, readByte_of_listed hv]

/-- Writing the word that a listed slot holds leaves canonical memory as it was (log 8). -/
theorem writeWord_readWord {m : Memory} {w : WordAddr} (hm : m.wf = true)
    (hl : ∀ k < 4, (m.listed (4 * w.toNat + k)).isSome) : m.writeWord w (m.readWord w) = m := by
  refine memory_ext (wf_writeWord hm _ _) hm fun a => ?_
  rw [listed_writeWord]
  split
  · next h =>
    have ha : 4 * w.toNat + a % 4 = a := by omega
    have hk : a % 4 < 4 := Nat.mod_lt a (by decide)
    have hlisted := listed_of_isSome (hl (a % 4) hk)
    rw [byteOfWord_readWord m w hk, ← hlisted, ha]
  · rfl

/-- Settles O32: a write to x0 writes the 0 that its slot holds. -/
theorem hintsChangeOnlyThePc : Obligations.HintsChangeOnlyThePc := by
  intro i s hi hz
  obtain ⟨v, hexec⟩ := exec_of_computedReg hi s
  have hw := writesReg_retire s 0#5 v
  have hmem : (s.retire 0#5 v).mem = s.mem.writeWord (s.slot 0#5) (s.mem.readWord (s.slot 0#5)) := by
    rw [hz]
    rfl
  refine ⟨_, hexec, hw.pc, hw.rest, fun a => ?_, fun r => ?_, fun hwf hl => ?_⟩
  · rw [hmem]
    exact readByte_writeWord_readWord _ _ a
  · by_cases hr : r = 0#5
    · rw [hr]
      rfl
    · exact hw.others r hr
  · rw [hmem]
    exact writeWord_readWord hwf hl

/-! ## Accesses to a register's slot -/

/-- Settles O34: the accessed word is the register's slot. -/
theorem slotAccessIsRegisterAccess : Obligations.SlotAccessIsRegisterAccess := by
  intro s rd rs1 rs2 imm r hr haddr
  have hword : wordAddrOf (s.effAddr rs1 imm) = s.slot r := by
    refine BitVec.eq_of_toNat_eq ?_
    rw [wordAddrOf_toNat]
    omega
  have hal : aligned .word (s.effAddr rs1 imm) = true := by
    rw [aligned_word_iff]
    omega
  constructor
  · intro hok
    rw [← hword] at hok
    rcases storeTo_cases .word rs1 rs2 imm s with ⟨c, hc, -⟩ | ⟨-, hnext⟩
    · rw [accessViolation_eq_none.2 ⟨hal, hok⟩] at hc
      cases hc
    · refine ⟨_, hnext, ?_⟩
      rw [setPc_readReg, readReg_of_ne _ hr, store_slot, store_mem, hword]
      exact readWord_writeWord_same _ _ _
  · intro hok hrd
    rw [← hword] at hok
    obtain ⟨t, hexec, hw⟩ := computes_of_loadFrom (exec_lw rd rs1 imm s) rfl ((aligned_word_iff _).1 hal) hok rfl
    refine ⟨t, hexec, hw.dest.trans ?_⟩
    rw [if_neg hrd, readReg_of_ne s hr, hword]

end Sys2Proof.Safety
end

section
/-! SUPPORT. What a row that satisfies its constraints says of the oracle's dispatch pair (30_encoding.md R117). -/

namespace Sys2Proof.Safety

open Sys2Proof.Machine Sys2Proof.Circuit

variable {cfg : FieldConfig}

/-! ## The dispatch pair of an oracle -/

theorem withOperands_op (op : Op) (w : Word) : (op.withOperands w).op = op := by
  cases op <;> rfl

theorem everySatisfying_bind_of_forall {α β : Type} {m : RowM α} {f : α → RowM β} {P : β → Prop}
    (h : ∀ a, EverySatisfying (f a) P) : EverySatisfying (m >>= f) P :=
  everySatisfying_bind fun _ a _ _ => h a

/-- The one-hot hands on the pair that the oracle gave, as field elements (10_state.md R32). -/
theorem oneHotRow_pair {major minor : Nat} {tape : List (Option Nat)} {s : State} {x : Int × Int} {st : RowState}
    (h : oneHotRow cfg s (RowState.start (some major :: some minor :: tape)) = .ok (x, st)) :
    x = (((major % cfg.p : Nat) : Int), ((minor % cfg.p : Nat) : Int)) := by
  unfold oneHotRow at h
  rw [bind_ok (cell_some rfl), bind_ok (cell_some rfl)] at h
  refine (?_ : EverySatisfying _ fun x => x = (((major % cfg.p : Nat) : Int), ((minor % cfg.p : Nat) : Int))) _ _ _ h
  iterate 4 refine everySatisfying_bind_of_forall fun _ => ?_
  exact everySatisfying_pure rfl

/-- A cycle that satisfies its constraints satisfies the check of the dispatch pair (30_encoding.md R117). -/
theorem not_violates_of_rowBody_ok (hcfg : cfg.Ok) {s : State} {op : Op} {bind : Op → RowM Unit} {st st' : RowState}
    {a : RowEnd} (hl : Sys2Proof.lookup s.fetchWord = some op) (h : rowBody cfg s bind st = .ok (a, st'))
    (code : Fault) : ¬ Violates (bind op) code := by
  intro hv
  cases hf : s.fetchViolation with
  | some c => exact (violates_rowBody hcfg hf bind).2 _ _ _ h
  | none =>
    obtain ⟨d, -, hbody⟩ := exists_decoded_rowBody hcfg hf bind
    rw [hl] at hbody
    have hviolates : Violates (rowBody cfg s bind) code := hbody (.error code) (violates_bind_left hv)
    exact hviolates.2 _ _ _ h

theorem violates_bindDispatch_major {op : Op} {major minor : Int}
    (h : (major - (cfg.majorCode (dispatchOf cfg op).1 : Nat)) % (cfg.p : Int) ≠ 0) :
    Violates (bindDispatch cfg op major minor) .vDispatch :=
  violates_bind_left (violates_assertEq _ h)

theorem violates_bindDispatch_minor {op : Op} {major minor : Int} (hop : op ≠ .ecall ∧ op ≠ .mret)
    (hmajor : (major - (cfg.majorCode (dispatchOf cfg op).1 : Nat)) % (cfg.p : Int) = 0)
    (h : (minor - ((dispatchOf cfg op).2 : Nat)) % (cfg.p : Int) ≠ 0) :
    Violates (bindDispatch cfg op major minor) .vDispatch := by
  refine violates_bind_right (determined_assertEq _ hmajor) ?_
  split
  · exact absurd rfl hop.1
  · exact absurd rfl hop.2
  · exact violates_assertEq _ h

theorem ne_ecall_mret_of_not_handsOver {op : Op} {w : Word} (h : handsOver (op.withOperands w) = false) :
    op ≠ .ecall ∧ op ≠ .mret := by
  constructor <;> rintro rfl <;> cases h

/-- Field elements whose difference is 0 in the field are equal, as naturals (00_scope.md R15). -/
theorem mod_eq_of_sub_emod_eq_zero {p a b : Nat} (hb : b < p)
    (h : (((a % p : Nat) : Int) - (b : Nat)) % (p : Int) = 0) :
    a % p = b := by
  have ha : a % p < p := Nat.mod_lt a (by omega)
  exact Int.natCast_inj.1 (eq_of_sub_emod_eq_zero h (by omega) (by omega) (by omega) (by omega))

/-- Settles O54: a pair that is not the instruction's own fails the binding, whatever the oracle's other answers. -/
theorem dispatchIsBound : Obligations.DispatchIsBound := by
  intro cfg hcfg major minor tape s i rowEnd st hi hrow
  obtain ⟨op, hl, rfl⟩ := decodeWord_eq_ok.1 hi
  rw [withOperands_op]
  rw [rowCycle_eq] at hrow
  obtain ⟨x, st1, hone, hbody⟩ := bind_eq_ok.1 hrow
  rw [oneHotRow_pair hone] at hbody
  have hholds := not_violates_of_rowBody_ok hcfg hl hbody .vDispatch
  have hmajor := not_imp_comm.1 violates_bindDispatch_major hholds
  have ⟨_, hp, hcode, _⟩ := hcfg
  have hminors : Config.numMinors < cfg.p := lt_trans (by decide) hp
  refine ⟨mod_eq_of_sub_emod_eq_zero (hcode _) hmajor, fun hdata => ?_⟩
  have hop := ne_ecall_mret_of_not_handsOver hdata
  have hminor := not_imp_comm.1 (violates_bindDispatch_minor hop hmajor) hholds
  exact mod_eq_of_sub_emod_eq_zero ((dispatchOf_minor_lt hcfg op).trans hminors) hminor

end Sys2Proof.Safety
end

section
/-! SUPPORT. The memory transactions of a cycle (10_state.md R44): the units of the constraint layer make none, and the
row of an instruction makes its register reads, its data access and its register write in this order. -/

namespace Sys2Proof.Safety

open Sys2Proof.Machine Sys2Proof.Circuit

variable {α β : Type}

/-! ## Parts of a row without transactions -/

/-- A part of a row that makes no memory transaction. -/
def Silent (m : RowM α) : Prop := ∀ st a st', m st = .ok (a, st') → st'.txns = st.txns

theorem silent_pure {a : α} : Silent (pure a) := fun _ _ _ h => by cases h; rfl

theorem silent_violation {code : Fault} : Silent (violation code : RowM α) := fun _ _ _ h => by cases h

theorem silent_bind {m : RowM α} {f : α → RowM β} (hm : Silent m) (hf : ∀ a, Silent (f a)) :
    Silent (m >>= f) := by
  intro st b st' h
  obtain ⟨a, st1, h1, h2⟩ := bind_eq_ok.1 h
  exact (hf a st1 b st' h2).trans (hm st a st1 h1)

theorem silent_ite {c : Prop} [Decidable c] {m m' : RowM α} (h : Silent m) (h' : Silent m') :
    Silent (if c then m else m') := by
  split
  · exact h
  · exact h'

theorem silent_cell {p : Nat} {e : Int} : Silent (cell p e) := by
  intro st a st' h
  unfold cell at h
  split at h <;> cases h <;> rfl

theorem silent_require {cond : Bool} {code : Fault} : Silent (require cond code) :=
  silent_ite silent_pure silent_violation

theorem silent_assertEq {p : Nat} {a b : Int} {code : Fault} : Silent (assertEq p a b code) :=
  silent_ite silent_pure silent_violation

theorem silent_assertWordWhen {p : Nat} {s : Int} {a b : ValU32} {code : Fault} :
    Silent (assertWordWhen p s a b code) := silent_bind silent_assertEq fun _ => silent_assertEq

theorem silent_rangeCheck {p width : Nat} {c : Int} {code : Fault} : Silent (rangeCheck p width c code) := by
  intro st a st' h
  unfold rangeCheck at h
  split at h <;> cases h
  rfl

theorem silent_cells {p : Nat} : ∀ {es : List Int}, Silent (cells p es)
  | [] => silent_pure
  | _ :: _ => silent_bind silent_cell fun _ => silent_bind silent_cells fun _ => silent_pure

theorem silent_checkAll {check : Int → RowM Unit} (h : ∀ c, Silent (check c)) :
    ∀ {cs : List Int}, Silent (checkAll check cs)
  | [] => silent_pure
  | c :: _ => silent_bind (h c) fun _ => silent_checkAll h

theorem silent_firstOf {m : RowM (α × β)} (h : Silent m) : Silent (firstOf m) := silent_bind h fun _ => silent_pure

theorem silent_secondOf {m : RowM (α × β)} (h : Silent m) : Silent (secondOf m) := silent_bind h fun _ => silent_pure

theorem silent_condRow {m : RowM Int} (h : Silent m) : Silent (condRow m) := silent_bind h fun _ => silent_pure

theorem silent_notRow {m : RowM Int} (h : Silent m) : Silent (notRow m) := silent_bind h fun _ => silent_pure

/-- A cell and what follows it. -/
theorem silent_cell_bind {p : Nat} {e : Int} {f : Int → RowM β} (hf : ∀ c, Silent (f c)) :
    Silent (cell p e >>= f) := silent_bind silent_cell hf

/-- A range check and what follows it. -/
theorem silent_range_bind {p width : Nat} {c : Int} {code : Fault} {f : Unit → RowM β} (hf : Silent (f ())) :
    Silent (rangeCheck p width c code >>= f) := silent_bind silent_rangeCheck fun _ => hf

/-- An equality and what follows it. -/
theorem silent_assert_bind {p : Nat} {a b : Int} {code : Fault} {f : Unit → RowM β} (hf : Silent (f ())) :
    Silent (assertEq p a b code >>= f) := silent_bind silent_assertEq fun _ => hf

/-! ## The units -/

section

variable {p : Nat}

theorem silent_normalize {l h : Int} : Silent (normalize p l h) :=
  silent_cell_bind fun _ => silent_range_bind (silent_cell_bind fun _ => silent_assert_bind (silent_assert_bind
    (silent_cell_bind fun _ => silent_range_bind (silent_cell_bind fun _ => silent_assert_bind (silent_assert_bind
      silent_pure)))))

theorem silent_isZero {x : Int} : Silent (isZero p x) :=
  silent_cell_bind fun _ => silent_cell_bind fun _ => silent_assert_bind (silent_assert_bind silent_pure)

theorem silent_eqU32 {a b : ValU32} : Silent (eqU32 p a b) :=
  silent_bind silent_isZero fun _ => silent_bind silent_isZero fun _ => silent_pure

theorem silent_topBit {h : Int} : Silent (topBit p h) :=
  silent_cell_bind fun _ => silent_assert_bind (silent_range_bind silent_pure)

theorem silent_addrSplit {addr : ValU32} {kind : AccessSize} {code : Fault} : Silent (addrSplit p addr kind code) := by
  refine silent_cell_bind fun _ => silent_assert_bind (silent_cell_bind fun _ => silent_assert_bind
    (silent_cell_bind fun _ => silent_range_bind (silent_range_bind (silent_assert_bind ?_))))
  cases kind with
  | byte => exact silent_pure
  | half => exact silent_assert_bind silent_pure
  | word => exact silent_assert_bind (silent_assert_bind silent_pure)

theorem silent_clearBit0Row {v : ValU32} : Silent (clearBit0Row p v) :=
  silent_cell_bind fun _ => silent_assert_bind (silent_cell_bind fun _ => silent_range_bind (silent_range_bind
    (silent_assert_bind silent_pure)))

theorem silent_ltURow {a b : ValU32} : Silent (ltURow p a b) := silent_bind silent_normalize fun _ => silent_pure

theorem silent_ltSRow {a b : ValU32} : Silent (ltSRow p a b) :=
  silent_bind silent_topBit fun _ => silent_bind silent_topBit fun _ => silent_bind silent_normalize fun _ =>
    silent_bind silent_topBit fun _ => silent_pure

theorem silent_bits16 {h : Int} : Silent (bits16 p h) :=
  silent_bind silent_cells fun _ => silent_bind (silent_checkAll fun _ => silent_assertEq) fun _ =>
    silent_assert_bind silent_pure

theorem silent_bitAnd {a b : ValU32} : Silent (bitAnd p a b) :=
  silent_bind silent_bits16 fun _ => silent_bind silent_bits16 fun _ => silent_bind silent_bits16 fun _ =>
    silent_bind silent_bits16 fun _ => silent_pure

theorem silent_bitOr {a b : ValU32} : Silent (bitOr p a b) := silent_bind silent_bitAnd fun _ => silent_pure

theorem silent_bitXor {a b : ValU32} : Silent (bitXor p a b) := silent_bind silent_bitAnd fun _ => silent_pure

theorem silent_expandU32 {x : ValU32} {signed : Bool} : Silent (expandU32 p x signed) :=
  silent_cell_bind fun _ => silent_range_bind (silent_cell_bind fun _ => silent_range_bind (silent_cell_bind fun _ =>
    silent_range_bind (silent_cell_bind fun _ => silent_range_bind (silent_assert_bind (silent_assert_bind (silent_ite
      (silent_cell_bind fun _ => silent_assert_bind (silent_range_bind silent_pure)) silent_pure))))))

theorem silent_splitTotal {t : Int} : Silent (splitTotal p t) :=
  silent_cell_bind fun _ => silent_range_bind (silent_cell_bind fun _ => silent_range_bind (silent_range_bind
    (silent_assert_bind silent_pure)))

/-- A sign that is read only of a signed operand, and what follows it. -/
theorem silent_sign_bind {signed : Bool} {h : Int} {f : Int → RowM β} (hf : ∀ c, Silent (f c)) :
    Silent (if signed then topBit p h >>= f else pure 0 >>= f) :=
  silent_ite (silent_bind silent_topBit hf) (silent_bind silent_pure hf)

theorem silent_multiplyAccumulate {a b c : ValU32} {sA sB sC : Bool} :
    Silent (multiplyAccumulate p a b c sA sB sC) := by
  refine silent_bind silent_expandU32 fun _ => silent_bind silent_expandU32 fun _ =>
    silent_sign_bind fun _ => ?_
  iterate 4 refine silent_bind silent_splitTotal fun _ => ?_
  exact silent_pure

theorem silent_powerTable {s : Int} : Silent (powerTable p s) :=
  silent_bind silent_cells fun _ => silent_bind (silent_checkAll fun _ => silent_assertEq) fun _ =>
    silent_assert_bind silent_pure

theorem silent_pow2 {s : Int} : Silent (pow2 p s) :=
  silent_bind silent_powerTable fun _ => silent_assert_bind silent_pure

theorem silent_pow2OfRegister {v : ValU32} : Silent (pow2OfRegister p v) :=
  silent_cell_bind fun _ => silent_range_bind (silent_range_bind (silent_bind silent_powerTable fun _ =>
    silent_assert_bind silent_pure))

theorem silent_magnitude {sign : Int} {v : ValU32} : Silent (magnitude p sign v) :=
  silent_bind silent_normalize fun _ => silent_pure

theorem silent_divisionChecks {n d q r : ValU32} {signed : Bool} : Silent (divisionChecks p n d q r signed) := by
  iterate 3 refine silent_bind silent_eqU32 fun _ => ?_
  iterate 4 refine silent_bind silent_assertWordWhen fun _ => ?_
  refine silent_bind silent_multiplyAccumulate fun _ => silent_sign_bind fun _ => ?_
  iterate 2 refine silent_bind silent_assertWordWhen fun _ => ?_
  cases signed with
  | true =>
    exact silent_bind silent_topBit fun _ => silent_bind silent_topBit fun _ => silent_bind silent_magnitude fun _ =>
      silent_bind silent_magnitude fun _ => silent_bind silent_ltURow fun _ => silent_assert_bind
        (silent_bind silent_eqU32 fun _ => silent_assert_bind silent_pure)
  | false => exact silent_bind silent_ltURow fun _ => silent_assert_bind silent_pure

theorem silent_doDiv {n d : ValU32} {signed : Bool} : Silent (doDiv p n d signed) := by
  rw [doDiv_eq]
  iterate 4 refine silent_cell_bind fun _ => ?_
  iterate 4 refine silent_range_bind ?_
  exact silent_divisionChecks

theorem silent_shiftArithRow {n pw : ValU32} : Silent (shiftArithRow p n pw) :=
  silent_bind silent_topBit fun _ => silent_bind silent_doDiv fun _ => silent_pure

theorem silent_byteSplit {h : Int} : Silent (byteSplit p h) :=
  silent_cell_bind fun _ => silent_range_bind (silent_cell_bind fun _ => silent_range_bind
    (silent_assert_bind silent_pure))

theorem silent_byteSelRow {word : ValU32} {b0 b1 : Int} : Silent (byteSelRow p word b0 b1) :=
  silent_bind silent_byteSplit fun _ => silent_pure

theorem silent_sextByte {y : Int} : Silent (sextByte p y) :=
  silent_cell_bind fun _ => silent_assert_bind (silent_range_bind silent_pure)

theorem silent_sextHalf {h : Int} : Silent (sextHalf p h) := silent_bind silent_topBit fun _ => silent_pure

theorem silent_mergeRow {old data : ValU32} {b0 b1 : Int} {kind : AccessSize} :
    Silent (mergeRow p old data b0 b1 kind) := by
  cases kind with
  | byte => exact silent_bind silent_byteSplit fun _ => silent_bind silent_byteSplit fun _ => silent_pure
  | half => exact silent_pure
  | word => exact silent_pure

theorem silent_decodeRow {w : ValU32} : Silent (decodeRow p w) := by
  have hcells : Silent (pieceCells p (honestPieces w)) := by
    iterate 16 refine silent_cell_bind fun _ => ?_
    exact silent_pure
  have hchecks : ∀ q, Silent (checkPieces p w q) := fun _ =>
    silent_bind (silent_checkAll fun _ => silent_assertEq) fun _ =>
      silent_bind (silent_checkAll fun _ => silent_assertEq) fun _ =>
        silent_range_bind (silent_range_bind (silent_assert_bind silent_assertEq))
  exact silent_bind (silent_bind hcells fun q => silent_bind (hchecks q) fun _ => silent_pure) fun _ => silent_pure

theorem silent_oneHotRow {cfg : FieldConfig} {s : State} : Silent (oneHotRow cfg s) :=
  silent_cell_bind fun _ => silent_cell_bind fun _ => silent_bind silent_cells fun _ =>
    silent_bind (silent_checkAll fun _ => silent_assertEq) fun _ => silent_assert_bind (silent_assert_bind silent_pure)

theorem silent_bindDispatch {cfg : FieldConfig} {op : Op} {major minor : Int} :
    Silent (bindDispatch cfg op major minor) := by
  refine silent_assert_bind ?_
  split
  · exact silent_pure
  · exact silent_pure
  · exact silent_assertEq

end

end Sys2Proof.Safety
end

section
/-! SUPPORT. The memory transactions that the row of an instruction makes and hands forward, in their order (10_state.md
R44). -/

namespace Sys2Proof.Safety

open Sys2Proof.Machine Sys2Proof.Circuit

variable {α β : Type}

/-! ## Transactions in order -/

/-- A transaction by kind and word address. -/
def txnKey (t : Txn) : TxnKind × WordAddr := (t.kind, t.addr)

/-- The transactions that a part of a row makes, with those that its result hands forward, are these by kind and word
address, in order. -/
def Transacts (handed : β → List Txn) (m : RowM β) (plan : List (TxnKind × WordAddr)) : Prop :=
  ∀ st b st', m st = .ok (b, st') → (st'.txns ++ handed b).map txnKey = st.txns.map txnKey ++ plan

/-- The transactions that a row's end hands forward: the writes of its output record (10_state.md R44). -/
def endTxns (s : State) : RowEnd → List Txn
  | .output o => o.writeTxns s
  | .control _ => []

section

variable {handed : β → List Txn} {plan : List (TxnKind × WordAddr)}

theorem transacts_pure {b : β} (h : (handed b).map txnKey = plan) : Transacts handed (pure b) plan := by
  intro st b' st' hr
  cases hr
  rw [List.map_append, h]

theorem transacts_bind {m : RowM α} {f : α → RowM β} (hm : Silent m) (hf : ∀ a, Transacts handed (f a) plan) :
    Transacts handed (m >>= f) plan := by
  intro st b st' hr
  obtain ⟨a, st1, h1, h2⟩ := bind_eq_ok.1 hr
  rw [← hm st a st1 h1]
  exact hf a st1 b st' h2

theorem transacts_bind_determined {m : RowM α} {f : α → RowM β} {a : α} (hm : Silent m) (hd : Determined m a)
    (hf : Transacts handed (f a) plan) : Transacts handed (m >>= f) plan := by
  intro st b st' hr
  obtain ⟨a', st1, h1, h2⟩ := bind_eq_ok.1 hr
  obtain rfl : a' = a := hd.2 st a' st1 h1
  rw [← hm st a' st1 h1]
  exact hf st1 b st' h2

theorem transacts_emitTxn {t : Txn} {f : Unit → RowM β} (hf : Transacts handed (f ()) plan) :
    Transacts handed (emitTxn t >>= f) (txnKey t :: plan) := by
  intro st b st' hr
  have h := hf { st with txns := st.txns ++ [t] } b st' hr
  rw [h, List.map_append, List.append_assoc]
  rfl

theorem transacts_readRegRow {s : State} {r : RegNum} {f : ValU32 → RowM β}
    (hf : Transacts handed (f (ValU32.ofWord (s.readReg r))) plan) :
    Transacts handed (readRegRow s (r.toNat : Int) >>= f) ((.regRead, s.slot r) :: plan) := by
  have h := transacts_emitTxn (t := ⟨.regRead, s.slot r, s.readReg r⟩)
    (f := fun _ => f (ValU32.ofWord (s.readReg r))) hf
  unfold readRegRow
  rw [regOf_toNat]
  exact h

end

theorem transacts_outputRow {s : State} {m : RowM RowOutput} {plan : List (TxnKind × WordAddr)}
    (h : Transacts (RowOutput.writeTxns s) m plan) : Transacts (endTxns s) (outputRow m) plan := by
  intro st b st' hr
  obtain ⟨o, st1, h1, h2⟩ := bind_eq_ok.1 hr
  cases h2
  exact h st o st' h1

/-! ## The rows of the instructions -/

theorem exec_sb (rs1 rs2 : RegNum) (imm : BitVec 12) (s : State) :
    exec (.sb rs1 rs2 imm) s = storeTo .byte rs1 rs2 imm s := rfl

theorem exec_sh (rs1 rs2 : RegNum) (imm : BitVec 12) (s : State) :
    exec (.sh rs1 rs2 imm) s = storeTo .half rs1 rs2 imm s := rfl

theorem exec_sw (rs1 rs2 : RegNum) (imm : BitVec 12) (s : State) :
    exec (.sw rs1 rs2 imm) s = storeTo .word rs1 rs2 imm s := rfl

/-- A load that completes passed its alignment check (47_load_store.md R311). -/
theorem aligned_of_load_next {i : Instr} {size : AccessSize} {extend : Word → BitVec 2 → Word} {rd rs1 : RegNum}
    {imm : BitVec 12} {s t : State} (hi : exec i s = loadFrom size extend rd rs1 imm s) (h : exec i s = .next t) :
    aligned size (s.effAddr rs1 imm) = true := by
  rcases loadFrom_cases size extend rd rs1 imm s with ⟨c, -, hc⟩ | ⟨hn, -⟩
  · rw [hi, hc] at h
    cases h
  · exact (accessViolation_eq_none.1 hn).1

/-- A store that completes passed its alignment check (47_load_store.md R311). -/
theorem aligned_of_store_next {i : Instr} {size : AccessSize} {rs1 rs2 : RegNum} {imm : BitVec 12} {s t : State}
    (hi : exec i s = storeTo size rs1 rs2 imm s) (h : exec i s = .next t) :
    aligned size (s.effAddr rs1 imm) = true := by
  rcases storeTo_cases size rs1 rs2 imm s with ⟨c, -, hc⟩ | ⟨hn, -⟩
  · rw [hi, hc] at h
    cases h
  · exact (accessViolation_eq_none.1 hn).1

section

variable {p : Nat} {s : State} {w : Word} {d : Decoded} (hd : DecodesTo w d)

include hd

theorem transacts_readRs1 {f : ValU32 → RowM RowOutput} {plan : List (TxnKind × WordAddr)}
    (hf : Transacts (RowOutput.writeTxns s) (f (ValU32.ofWord (s.readReg (rs1Of w)))) plan) :
    Transacts (RowOutput.writeTxns s) (readRegRow s d.rs1 >>= f) ((.regRead, s.slot (rs1Of w)) :: plan) := by
  rw [hd.rs1]
  exact transacts_readRegRow hf

theorem transacts_readRs2 {f : ValU32 → RowM RowOutput} {plan : List (TxnKind × WordAddr)}
    (hf : Transacts (RowOutput.writeTxns s) (f (ValU32.ofWord (s.readReg (rs2Of w)))) plan) :
    Transacts (RowOutput.writeTxns s) (readRegRow s d.rs2 >>= f) ((.regRead, s.slot (rs2Of w)) :: plan) := by
  rw [hd.rs2]
  exact transacts_readRegRow hf

/-- An output record with a register write alone. -/
theorem transacts_regWrite {npc v : ValU32} :
    Transacts (RowOutput.writeTxns s) (pure ⟨npc, some (regOf d.rd, v), none⟩) [(.regWrite, s.slot (rdOf w))] := by
  rw [hd.rd, regOf_toNat]
  exact transacts_pure rfl

theorem transacts_retireRow {v : ValU32} :
    Transacts (RowOutput.writeTxns s) (retireRow p s d v) [(.regWrite, s.slot (rdOf w))] :=
  transacts_bind silent_normalize fun _ => transacts_regWrite hd

theorem transacts_regRegRow {unit : ValU32 → ValU32 → RowM ValU32} (hu : ∀ a b, Silent (unit a b)) :
    Transacts (RowOutput.writeTxns s) (regRegRow p s d unit)
      [(.regRead, s.slot (rs1Of w)), (.regRead, s.slot (rs2Of w)), (.regWrite, s.slot (rdOf w))] :=
  transacts_readRs1 hd (transacts_readRs2 hd (transacts_bind (hu _ _) fun _ => transacts_retireRow hd))

theorem transacts_regImmRow {unit : ValU32 → ValU32 → RowM ValU32} (hu : ∀ a b, Silent (unit a b)) :
    Transacts (RowOutput.writeTxns s) (regImmRow p s d unit)
      [(.regRead, s.slot (rs1Of w)), (.regWrite, s.slot (rdOf w))] :=
  transacts_readRs1 hd (transacts_bind (hu _ _) fun _ => transacts_retireRow hd)

theorem transacts_shiftImmRow {unit : ValU32 → ValU32 → RowM ValU32} (hu : ∀ a b, Silent (unit a b)) :
    Transacts (RowOutput.writeTxns s) (shiftImmRow p s d unit)
      [(.regRead, s.slot (rs1Of w)), (.regWrite, s.slot (rdOf w))] :=
  transacts_readRs1 hd (transacts_bind silent_pow2 fun _ => transacts_bind (hu _ _) fun _ => transacts_retireRow hd)

theorem transacts_compareBranchRow {cond : ValU32 → ValU32 → RowM Int} (hc : ∀ a b, Silent (cond a b)) :
    Transacts (RowOutput.writeTxns s) (compareBranchRow p s d cond)
      [(.regRead, s.slot (rs1Of w)), (.regRead, s.slot (rs2Of w))] :=
  transacts_readRs1 hd (transacts_readRs2 hd (transacts_bind (hc _ _) fun _ => transacts_bind silent_normalize fun _ =>
    transacts_bind silent_normalize fun _ => transacts_pure rfl))

section

variable (hp : p.Prime) (hb : 2 ^ 28 < p)

include hp hb

/-- A load reads the word of its effective address between the register read and the register write
(47_load_store.md R316). -/
theorem transacts_loadRow {size : AccessSize} {extend : ValU32 → Int → Int → RowM ValU32}
    (he : ∀ v b0 b1, Silent (extend v b0 b1)) (ha : aligned size (s.effAddr (rs1Of w) (imm12I w)) = true) :
    Transacts (RowOutput.writeTxns s) (loadRow p s d size extend)
      [(.regRead, s.slot (rs1Of w)), (.load, wordAddrOf (s.effAddr (rs1Of w) (imm12I w))),
        (.regWrite, s.slot (rdOf w))] := by
  have hea : Determined (add32 p (ValU32.ofWord (s.readReg (rs1Of w))) (ValU32.ofWord (sextWord (imm12I w))))
      (ValU32.ofWord (s.effAddr (rs1Of w) (imm12I w)), _) := determined_add32 hp hb _ _
  refine transacts_readRs1 hd ?_
  rw [hd.immI]
  refine transacts_bind_determined silent_normalize hea
    (transacts_bind_determined silent_addrSplit (determined_addrSplit hp hb ha _) ?_)
  simp only [ofInt_wordAddrOf]
  exact transacts_bind silent_require fun _ => transacts_emitTxn
    (transacts_bind (he _ _ _) fun _ => transacts_retireRow hd)

/-- A store reads its two registers and hands one word write forward (47_load_store.md R323). -/
theorem transacts_storeRow {size : AccessSize} (ha : aligned size (s.effAddr (rs1Of w) (imm12S w)) = true) :
    Transacts (RowOutput.writeTxns s) (storeRow p s d size)
      [(.regRead, s.slot (rs1Of w)), (.regRead, s.slot (rs2Of w)),
        (.store, wordAddrOf (s.effAddr (rs1Of w) (imm12S w)))] := by
  have hea : Determined (add32 p (ValU32.ofWord (s.readReg (rs1Of w))) (ValU32.ofWord (sextWord (imm12S w))))
      (ValU32.ofWord (s.effAddr (rs1Of w) (imm12S w)), _) := determined_add32 hp hb _ _
  refine transacts_readRs1 hd (transacts_readRs2 hd ?_)
  rw [hd.immS]
  refine transacts_bind_determined silent_normalize hea
    (transacts_bind_determined silent_addrSplit (determined_addrSplit hp hb ha _) ?_)
  simp only [ofInt_wordAddrOf]
  exact transacts_bind silent_require fun _ => transacts_bind silent_mergeRow fun _ =>
    transacts_bind silent_cell fun _ => transacts_bind silent_cell fun _ => transacts_bind silent_assertEq fun _ =>
      transacts_bind silent_assertEq fun _ => transacts_bind silent_normalize fun _ => transacts_pure rfl

end

end

/-- The row of an instruction that completes makes, after the fetch, the transactions of its plan (10_state.md R44). -/
theorem transacts_rowExec {p : Nat} (hp : p.Prime) (hb : 2 ^ 28 < p) {op : Op} {w : Word} {d : Decoded}
    (hd : DecodesTo w d) {s t : State} (h : exec (op.withOperands w) s = .next t) :
    Transacts (endTxns s) (rowExec p op d s) (cyclePlan (op.withOperands w) s).tail := by
  have hadd : ∀ a b, Silent (firstOf (add32 p a b)) := fun _ _ => silent_firstOf silent_normalize
  have hmulLow : ∀ a b, Silent (firstOf (multiplyAccumulate p a b ⟨0, 0⟩ false false false)) :=
    fun _ _ => silent_firstOf silent_multiplyAccumulate
  have hmulHigh : ∀ sA sB a b, Silent (secondOf (multiplyAccumulate p a b ⟨0, 0⟩ sA sB false)) :=
    fun _ _ _ _ => silent_secondOf silent_multiplyAccumulate
  have hdiv : ∀ sg a b, Silent (firstOf (doDiv p a b sg)) := fun _ _ _ => silent_firstOf silent_doDiv
  have hrem : ∀ sg a b, Silent (secondOf (doDiv p a b sg)) := fun _ _ _ => silent_secondOf silent_doDiv
  cases op with
  | add => exact transacts_outputRow (transacts_regRegRow hd hadd)
  | sub => exact transacts_outputRow (transacts_regRegRow hd fun _ _ => silent_firstOf silent_normalize)
  | addi => exact transacts_outputRow (transacts_regImmRow hd hadd)
  | lui => exact transacts_outputRow (transacts_retireRow hd)
  | auipc => exact transacts_outputRow (transacts_bind silent_normalize fun _ => transacts_retireRow hd)
  | slt => exact transacts_outputRow (transacts_regRegRow hd fun _ _ => silent_condRow silent_ltSRow)
  | sltu => exact transacts_outputRow (transacts_regRegRow hd fun _ _ => silent_condRow silent_ltURow)
  | slti => exact transacts_outputRow (transacts_regImmRow hd fun _ _ => silent_condRow silent_ltSRow)
  | sltiu => exact transacts_outputRow (transacts_regImmRow hd fun _ _ => silent_condRow silent_ltURow)
  | and => exact transacts_outputRow (transacts_regRegRow hd fun _ _ => silent_bitAnd)
  | or => exact transacts_outputRow (transacts_regRegRow hd fun _ _ => silent_bitOr)
  | xor => exact transacts_outputRow (transacts_regRegRow hd fun _ _ => silent_bitXor)
  | andi => exact transacts_outputRow (transacts_regImmRow hd fun _ _ => silent_bitAnd)
  | ori => exact transacts_outputRow (transacts_regImmRow hd fun _ _ => silent_bitOr)
  | xori => exact transacts_outputRow (transacts_regImmRow hd fun _ _ => silent_bitXor)
  | mul => exact transacts_outputRow (transacts_regRegRow hd hmulLow)
  | mulh => exact transacts_outputRow (transacts_regRegRow hd (hmulHigh true true))
  | mulhsu => exact transacts_outputRow (transacts_regRegRow hd (hmulHigh true false))
  | mulhu => exact transacts_outputRow (transacts_regRegRow hd (hmulHigh false false))
  | sll =>
    exact transacts_outputRow (transacts_regRegRow hd fun _ _ => silent_bind silent_pow2OfRegister fun _ => hmulLow _ _)
  | slli => exact transacts_outputRow (transacts_shiftImmRow hd hmulLow)
  | div => exact transacts_outputRow (transacts_regRegRow hd (hdiv true))
  | divu => exact transacts_outputRow (transacts_regRegRow hd (hdiv false))
  | rem => exact transacts_outputRow (transacts_regRegRow hd (hrem true))
  | remu => exact transacts_outputRow (transacts_regRegRow hd (hrem false))
  | srl =>
    exact transacts_outputRow (transacts_regRegRow hd fun _ _ => silent_bind silent_pow2OfRegister fun _ => hdiv _ _ _)
  | sra =>
    exact transacts_outputRow
      (transacts_regRegRow hd fun _ _ => silent_bind silent_pow2OfRegister fun _ => silent_shiftArithRow)
  | srli => exact transacts_outputRow (transacts_shiftImmRow hd (hdiv false))
  | srai => exact transacts_outputRow (transacts_shiftImmRow hd fun _ _ => silent_shiftArithRow)
  | beq => exact transacts_outputRow (transacts_compareBranchRow hd fun _ _ => silent_eqU32)
  | bne => exact transacts_outputRow (transacts_compareBranchRow hd fun _ _ => silent_notRow silent_eqU32)
  | blt => exact transacts_outputRow (transacts_compareBranchRow hd fun _ _ => silent_ltSRow)
  | bge => exact transacts_outputRow (transacts_compareBranchRow hd fun _ _ => silent_notRow silent_ltSRow)
  | bltu => exact transacts_outputRow (transacts_compareBranchRow hd fun _ _ => silent_ltURow)
  | bgeu => exact transacts_outputRow (transacts_compareBranchRow hd fun _ _ => silent_notRow silent_ltURow)
  | jal =>
    exact transacts_outputRow (transacts_bind silent_normalize fun _ => transacts_bind silent_normalize fun _ =>
      transacts_regWrite hd)
  | jalr =>
    exact transacts_outputRow (transacts_readRs1 hd (transacts_bind silent_normalize fun _ =>
      transacts_bind silent_clearBit0Row fun _ => transacts_bind silent_normalize fun _ => transacts_regWrite hd))
  | lb =>
    exact transacts_outputRow (transacts_loadRow hd hp hb
      (fun _ _ _ => silent_bind silent_byteSelRow fun _ => silent_sextByte) (aligned_of_load_next (exec_lb ..) h))
  | lbu =>
    exact transacts_outputRow (transacts_loadRow hd hp hb
      (fun _ _ _ => silent_bind silent_byteSelRow fun _ => silent_pure) (aligned_of_load_next (exec_lbu ..) h))
  | lh =>
    exact transacts_outputRow
      (transacts_loadRow hd hp hb (fun _ _ _ => silent_sextHalf) (aligned_of_load_next (exec_lh ..) h))
  | lhu =>
    exact transacts_outputRow
      (transacts_loadRow hd hp hb (fun _ _ _ => silent_pure) (aligned_of_load_next (exec_lhu ..) h))
  | lw =>
    exact transacts_outputRow
      (transacts_loadRow hd hp hb (fun _ _ _ => silent_pure) (aligned_of_load_next (exec_lw ..) h))
  | sb => exact transacts_outputRow (transacts_storeRow hd hp hb (aligned_of_store_next (exec_sb ..) h))
  | sh => exact transacts_outputRow (transacts_storeRow hd hp hb (aligned_of_store_next (exec_sh ..) h))
  | sw => exact transacts_outputRow (transacts_storeRow hd hp hb (aligned_of_store_next (exec_sw ..) h))
  | ecall | mret => exact transacts_pure rfl

/-! ## The cycle -/

theorem cyclePlan_eq_fetch_cons (i : Instr) (s : State) :
    cyclePlan i s = (.fetch, wordAddrOf s.pc) :: (cyclePlan i s).tail := by
  cases i <;> rfl

/-- The cycle of an instruction that completes makes the transactions of its plan, whatever binds the dispatch pair. -/
theorem transacts_rowBody {cfg : FieldConfig} (hcfg : cfg.Ok) {s t : State} {op : Op} {bind : Op → RowM Unit}
    (hf : s.fetchViolation = none) (hl : Sys2Proof.lookup s.fetchWord = some op) (hbind : Silent (bind op))
    (h : exec (op.withOperands s.fetchWord) s = .next t) :
    Transacts (endTxns s) (rowBody cfg s bind) (cyclePlan (op.withOperands s.fetchWord) s) := by
  obtain ⟨hp, hb, -, -⟩ := hcfg
  obtain ⟨-, hal, -⟩ := fetchViolation_eq_none.1 hf
  obtain ⟨d, hdet, hd⟩ := exists_determined_decodeRow hp hb s.fetchWord
  rw [cyclePlan_eq_fetch_cons]
  refine transacts_bind silent_require fun _ => transacts_bind_determined silent_addrSplit
    (determined_addrSplit hp hb ((aligned_word_iff s.pc).2 hal) _) ?_
  simp only [ofInt_wordAddrOf]
  refine transacts_bind silent_require fun _ => transacts_emitTxn (transacts_bind_determined silent_decodeRow hdet ?_)
  have hlookup : d.lookup (ValU32.ofWord (s.mem.readWord (wordAddrOf s.pc))) = some op :=
    (lookup_of_decodesTo hd).trans hl
  rw [hlookup]
  exact transacts_bind hbind fun _ => transacts_rowExec hp hb hd h

/-- The transactions of a row that satisfies its constraints, up to its end (10_state.md R44). -/
theorem cycleTxns_of_ok {cfg : FieldConfig} {tape : List (Option Nat)} {s : State} {a : RowEnd} {st : RowState}
    (h : rowCycle cfg s (RowState.start tape) = .ok (a, st)) : cycleTxns cfg tape s = st.txns ++ endTxns s a := by
  unfold cycleTxns
  rw [h]
  cases a with
  | output o => rfl
  | control word => exact (List.append_nil _).symm

/-- Settles O55: the honest row satisfies its constraints where the step completes, and its units are silent. -/
theorem transactionOrder : Obligations.TransactionOrder := by
  intro cfg hcfg s t i hi h
  obtain ⟨op, hl, rfl⟩ := decodeWord_eq_ok.1 hi
  obtain ⟨j, u, hf, hj, hexec, -⟩ := step_next_cases h
  rw [hi] at hj
  cases hj
  have hcomplete := circuitIsComplete cfg hcfg s
  cases hrow : rowCycle cfg s (RowState.start []) with
  | error code =>
    rw [circuitStep_of_error hrow, h] at hcomplete
    cases hcomplete
  | ok x =>
    obtain ⟨a, st⟩ := x
    rw [cycleTxns_of_ok hrow]
    have hplan := transacts_bind (silent_oneHotRow (cfg := cfg) (s := s)) fun x =>
      transacts_rowBody hcfg hf hl (bind := fun op => bindDispatch cfg op x.1 x.2) silent_bindDispatch hexec
    rw [← rowCycle_eq] at hplan
    exact hplan _ _ _ hrow

end Sys2Proof.Safety
end

section
/-! SUPPORT. Accesses to memory (20_memory.md): where a data access is misaligned, a store over the next instruction,
and the address and lane units of the constraint layer. -/

namespace Sys2Proof.Safety

open Sys2Proof.Machine Sys2Proof.Circuit

/-! ## Misaligned accesses -/

/-- A load faults exactly with the violation of its access (47_load_store.md R311, R312). -/
theorem loadFrom_eq_fault_iff {size : AccessSize} {extend : Word → BitVec 2 → Word} {rd rs1 : RegNum}
    {imm : BitVec 12} {s : State} {c : Fault} :
    loadFrom size extend rd rs1 imm s = .fault c ↔ s.accessViolation .load size (s.effAddr rs1 imm) = some c := by
  rcases loadFrom_cases size extend rd rs1 imm s with ⟨d, hviol, hres⟩ | ⟨hviol, hres⟩ <;> simp [hviol, hres]

/-- A store faults exactly with the violation of its access (47_load_store.md R311, R312). -/
theorem storeTo_eq_fault_iff {size : AccessSize} {rs1 rs2 : RegNum} {imm : BitVec 12} {s : State} {c : Fault} :
    storeTo size rs1 rs2 imm s = .fault c ↔ s.accessViolation .store size (s.effAddr rs1 imm) = some c := by
  rcases storeTo_cases size rs1 rs2 imm s with ⟨d, hviol, hres⟩ | ⟨hviol, hres⟩ <;> simp [hviol, hres]

/-- Alignment is checked first, so ADDR_OK has no say in V_MISALIGNED (20_memory.md R67; 60_exceptions.md R363). -/
theorem accessViolation_eq_vMisaligned_iff {s : State} {kind : AccessKind} {size : AccessSize} {addr : Word} :
    s.accessViolation kind size addr = some .vMisaligned ↔ addr.toNat % size.bytes ≠ 0 := by
  rw [accessViolation_eq_some, ne_eq, ← aligned_iff]
  simp

theorem loadFrom_misaligned_iff (size : AccessSize) (extend : Word → BitVec 2 → Word) (rd rs1 : RegNum)
    (imm : BitVec 12) (s : State) :
    loadFrom size extend rd rs1 imm s = .fault .vMisaligned ↔ (s.effAddr rs1 imm).toNat % size.bytes ≠ 0 :=
  loadFrom_eq_fault_iff.trans accessViolation_eq_vMisaligned_iff

theorem storeTo_misaligned_iff (size : AccessSize) (rs1 rs2 : RegNum) (imm : BitVec 12) (s : State) :
    storeTo size rs1 rs2 imm s = .fault .vMisaligned ↔ (s.effAddr rs1 imm).toNat % size.bytes ≠ 0 :=
  storeTo_eq_fault_iff.trans accessViolation_eq_vMisaligned_iff

/-- Settles O28: every access is `loadFrom` or `storeTo` of its size, and no address misaligns a byte. -/
theorem misalignedAccessFaults : Obligations.MisalignedAccessFaults := by
  intro s rd rs1 rs2 imm
  rw [exec_lw, exec_sw, exec_lh, exec_lhu, exec_sh, exec_lb, exec_lbu, exec_sb]
  refine ⟨?lw, ?sw, ?lh, ?lhu, ?sh, ?lb, ?lbu, ?sb⟩
  case lw => exact loadFrom_misaligned_iff .word _ rd rs1 imm s
  case sw => exact storeTo_misaligned_iff .word rs1 rs2 imm s
  case lh => exact loadFrom_misaligned_iff .half _ rd rs1 imm s
  case lhu => exact loadFrom_misaligned_iff .half _ rd rs1 imm s
  case sh => exact storeTo_misaligned_iff .half rs1 rs2 imm s
  case lb => exact fun h => (loadFrom_misaligned_iff .byte _ rd rs1 imm s).1 h (Nat.mod_one _)
  case lbu => exact fun h => (loadFrom_misaligned_iff .byte _ rd rs1 imm s).1 h (Nat.mod_one _)
  case sb => exact fun h => (storeTo_misaligned_iff .byte rs1 rs2 imm s).1 h (Nat.mod_one _)

/-! ## A store over the next instruction -/

/-- A word store leaves its data in the word of its address (47_load_store.md R326). -/
theorem readWord_store_word (s : State) (addr data : Word) :
    (s.store .word addr data).mem.readWord (wordAddrOf addr) = data := readWord_writeWord_same _ _ _

/-- Settles O33: the next pc is the address stored at, so the next fetch reads the word that SW wrote. -/
theorem storedWordIsNextFetched : Obligations.StoredWordIsNextFetched := by
  intro s t rs1 rs2 imm i hdec haddr hstep
  rw [u32_pc_add_four] at haddr
  obtain ⟨j, u, -, hj, hexec, rfl⟩ := step_next_cases hstep
  rw [hdec] at hj
  cases hj
  rw [exec_sw] at hexec
  have hfetch : u.tick.fetchWord = s.readReg rs2 := by
    rw [storeTo_next hexec, haddr]
    exact readWord_store_word s s.pcPlus4 (s.readReg rs2)
  exact ⟨hfetch, fun hok hi => step_of_decodeWord hok (hfetch ▸ hi)⟩

/-! ## The address units -/

/-- Settles O43: AddrSplit has one outcome, which the alignment of the address decides. -/
theorem addressSplitUnit : Obligations.AddressSplitUnit := by
  rintro cfg ⟨hp, hb, -, -⟩ addr kind code
  have hsplit := answers_addrSplit hp hb addr kind code
  refine ⟨fun hal => ?aligned, fun hmis => ?misaligned, ?clear⟩
  case aligned =>
    rw [if_pos hal] at hsplit
    exact hsplit
  case misaligned =>
    rw [if_neg hmis] at hsplit
    exact hsplit
  case clear =>
    rw [← clearBit0_eq_u32]
    exact determined_clearBit0Row hp hb addr

/-! ## The lane units -/

/-- The two low bits of an address, as the row holds them (40_primitives.md R150). -/
theorem lane_bits (lane : BitVec 2) :
    asBit (lane.getLsbD 0) = (lane.toNat % 2 : Nat) ∧ asBit (lane.getLsbD 1) = (lane.toNat / 2 : Nat) := by
  revert lane; decide

/-- Settles O53: each unit computes the word operation of its name; `merge` is the new word, known by its bytes. -/
theorem laneUnits : Obligations.LaneUnits := by
  rintro cfg ⟨hp, hb, -, -⟩ word data lane
  obtain ⟨hbit0, hbit1⟩ := lane_bits lane
  rw [← hbit0, ← hbit1]
  refine ⟨?byteSel, fun y => ?sextByte, fun h => ?sextHalf, fun kind hal => ?merge⟩
  case byteSel => exact determined_byteSelRow hb word lane
  case sextByte =>
    rw [u32_sextInt]
    exact determined_sextByte hp hb y
  case sextHalf =>
    rw [u32_sextInt]
    exact determined_sextHalf hp hb h
  case merge =>
    exact ⟨merge word data lane kind, determined_mergeRow hb word data lane kind,
      fun k hk => byteOfWord_merge word data lane kind hk hal⟩

end Sys2Proof.Safety
end

section
/-! SUPPORT. The encoding: decoding and encoding are inverse, the opcode map by fields agrees with the table by mask,
and the words without a row are the illegal ones (30_encoding.md). -/

namespace Sys2Proof.Safety

open Sys2Proof.Machine Sys2Proof.Laws

/-! ## Decoding an encoded instruction -/

/-- The family EncodingFits for every instruction: the encoding is a word of the instruction's own row
(30_encoding.md R103). -/
theorem lookup_encode : ∀ i : Instr, lookup (encode i) = some i.op
  | .add .. => EncodingFits.add .. | .sub .. => EncodingFits.sub .. | .xor .. => EncodingFits.xor ..
  | .or .. => EncodingFits.or .. | .and .. => EncodingFits.and .. | .slt .. => EncodingFits.slt ..
  | .sltu .. => EncodingFits.sltu .. | .addi .. => EncodingFits.addi .. | .xori .. => EncodingFits.xori ..
  | .ori .. => EncodingFits.ori .. | .andi .. => EncodingFits.andi .. | .slti .. => EncodingFits.slti ..
  | .sltiu .. => EncodingFits.sltiu .. | .beq .. => EncodingFits.beq .. | .bne .. => EncodingFits.bne ..
  | .blt .. => EncodingFits.blt .. | .bge .. => EncodingFits.bge .. | .bltu .. => EncodingFits.bltu ..
  | .bgeu .. => EncodingFits.bgeu .. | .jal .. => EncodingFits.jal .. | .jalr .. => EncodingFits.jalr ..
  | .lui .. => EncodingFits.lui .. | .auipc .. => EncodingFits.auipc .. | .sll .. => EncodingFits.sll ..
  | .slli .. => EncodingFits.slli .. | .mul .. => EncodingFits.mul .. | .mulh .. => EncodingFits.mulh ..
  | .mulhsu .. => EncodingFits.mulhsu .. | .mulhu .. => EncodingFits.mulhu .. | .srl .. => EncodingFits.srl ..
  | .sra .. => EncodingFits.sra .. | .srli .. => EncodingFits.srli .. | .srai .. => EncodingFits.srai ..
  | .div .. => EncodingFits.div .. | .divu .. => EncodingFits.divu .. | .rem .. => EncodingFits.rem ..
  | .remu .. => EncodingFits.remu .. | .lb .. => EncodingFits.lb .. | .lh .. => EncodingFits.lh ..
  | .lw .. => EncodingFits.lw .. | .lbu .. => EncodingFits.lbu .. | .lhu .. => EncodingFits.lhu ..
  | .sb .. => EncodingFits.sb .. | .sh .. => EncodingFits.sh .. | .sw .. => EncodingFits.sw ..
  | .ecall => EncodingFits.ecall | .mret => EncodingFits.mret

/-- The operands of an encoding, read back in the format of its row (30_encoding.md R82, R95 to R100). -/
theorem withOperands_encode {i : Instr} (hwf : i.wf = true) : i.op.withOperands (encode i) = i := by
  cases i
  case beq | bne | blt | bge | bltu | bgeu => simp [Instr.op, Op.withOperands, encode, offsetB_encB _ _ _ _ _ hwf]
  case jal => simp [Instr.op, Op.withOperands, encode, offsetJ_encJ _ _ _ hwf]
  all_goals simp [Instr.op, Op.withOperands, encode]

theorem decodeWord_encode {i : Instr} (hwf : i.wf = true) : decodeWord (encode i) = .ok i :=
  decodeWord_eq_ok.2 ⟨i.op, lookup_encode i, (withOperands_encode hwf).symm⟩

/-- The decoder reads the four bytes of a word and leaves the rest (30_encoding.md R80). -/
theorem decode_bytesOfWord_append {w : Word} {i : Instr} (h : decodeWord w = .ok i) (rest : List Byte) :
    decode (bytesOfWord w ++ rest) = .ok (i, rest) := by
  simp only [decode, bytesOfWord, List.cons_append, List.nil_append, wordOfBytes_byteOfWord, h]

/-- Settles O11: the row of the encoding is the instruction's, and its format gives the operands back. -/
theorem decodeEncode : Obligations.DecodeEncode := fun _ hwf rest =>
  decode_bytesOfWord_append (decodeWord_encode hwf) rest

/-! ## Encoding a decoded word -/

/-- A word whose func7, func3 and opcode are known, from its registers (30_encoding.md R81). -/
theorem encR_of_fields {w : Word} {f7 f3 op : Nat} (h7 : (func7Of w).toNat = f7) (h3 : (func3Of w).toNat = f3)
    (hop : (opcodeOf w).toNat = op) :
    encR (BitVec.ofNat 7 f7) (rs2Of w) (rs1Of w) (BitVec.ofNat 3 f3) (rdOf w) (BitVec.ofNat 7 op) = w := by
  simp only [← h7, ← h3, ← hop, BitVec.ofNat_toNat, BitVec.setWidth_eq, encR_fields]

theorem encI_of_fields {w : Word} {f3 op : Nat} (h3 : (func3Of w).toNat = f3) (hop : (opcodeOf w).toNat = op) :
    encI (imm12I w) (rs1Of w) (BitVec.ofNat 3 f3) (rdOf w) (BitVec.ofNat 7 op) = w := by
  simp only [← h3, ← hop, BitVec.ofNat_toNat, BitVec.setWidth_eq, encI_fields]

theorem encS_of_fields {w : Word} {f3 op : Nat} (h3 : (func3Of w).toNat = f3) (hop : (opcodeOf w).toNat = op) :
    encS (imm12S w) (rs2Of w) (rs1Of w) (BitVec.ofNat 3 f3) (BitVec.ofNat 7 op) = w := by
  simp only [← h3, ← hop, BitVec.ofNat_toNat, BitVec.setWidth_eq, encS_fields]

theorem encB_of_fields {w : Word} {f3 op : Nat} (h3 : (func3Of w).toNat = f3) (hop : (opcodeOf w).toNat = op) :
    encB (offsetB w) (rs2Of w) (rs1Of w) (BitVec.ofNat 3 f3) (BitVec.ofNat 7 op) = w := by
  simp only [← h3, ← hop, BitVec.ofNat_toNat, BitVec.setWidth_eq, encB_fields]

theorem encU_of_fields {w : Word} {op : Nat} (hop : (opcodeOf w).toNat = op) :
    encU (imm20U w) (rdOf w) (BitVec.ofNat 7 op) = w := by
  simp only [← hop, BitVec.ofNat_toNat, BitVec.setWidth_eq, encU_fields]

theorem encJ_of_fields {w : Word} {op : Nat} (hop : (opcodeOf w).toNat = op) :
    encJ (offsetJ w) (rdOf w) (BitVec.ofNat 7 op) = w := by
  simp only [← hop, BitVec.ofNat_toNat, BitVec.setWidth_eq, encJ_fields]

/-- The word a lookup named is the encoding of its instruction: the fields that the lookup fixed and the operands
cover every bit (30_encoding.md R83). -/
theorem encode_withOperands {w : Word} {op : Op} (h : lookup w = some op) : encode (op.withOperands w) = w := by
  unfold lookup lookupFields at h
  split at h
  case h_1 =>
    split at h <;> cases h
    all_goals exact encR_of_fields ‹(func7Of w).toNat = _› ‹(func3Of w).toNat = _› ‹(opcodeOf w).toNat = _›
  case h_2 =>
    split at h <;> cases h
    iterate 6 exact encI_of_fields ‹(func3Of w).toNat = _› ‹(opcodeOf w).toNat = _›
    all_goals exact encR_of_fields ‹(func7Of w).toNat = _› ‹(func3Of w).toNat = _› ‹(opcodeOf w).toNat = _›
  case h_3 =>
    split at h <;> cases h
    all_goals exact encB_of_fields ‹(func3Of w).toNat = _› ‹(opcodeOf w).toNat = _›
  case h_4 => cases h; exact encJ_of_fields ‹(opcodeOf w).toNat = _›
  case h_6 | h_7 => cases h; exact encU_of_fields ‹(opcodeOf w).toNat = _›
  case h_5 | h_8 =>
    split at h <;> cases h
    all_goals exact encI_of_fields ‹(func3Of w).toNat = _› ‹(opcodeOf w).toNat = _›
  case h_9 =>
    split at h <;> cases h
    all_goals exact encS_of_fields ‹(func3Of w).toNat = _› ‹(opcodeOf w).toNat = _›
  case h_10 =>
    split at h
    · cases h; exact (BitVec.eq_of_toNat_eq ‹w.toNat = _›).symm
    · split at h <;> cases h
      exact (BitVec.eq_of_toNat_eq ‹w.toNat = _›).symm
  case h_11 => cases h

/-- Settles O12: a decoded word has a row, and that row's format keeps every bit. -/
theorem encodeDecode : Obligations.EncodeDecode := by
  intro w i h
  refine ⟨wf_of_decodeWord h, ?_⟩
  obtain ⟨op, hop, rfl⟩ := decodeWord_eq_ok.1 h
  exact encode_withOperands hop

/-- Settles O13: each word evaluates to its instruction. -/
theorem decodeSamples : Obligations.DecodeSamples := by
  unfold Obligations.DecodeSamples
  decide

/-! ## Lookup by fields and by mask -/

section

variable {w mask v : Word}

/-- A mask that keeps all of the opcode fixes it (30_encoding.md R103). -/
theorem opcodeOf_of_and (h : w &&& mask = v) (hm : opcodeOf mask = BitVec.allOnes 7) : opcodeOf w = opcodeOf v := by
  have hand : opcodeOf (w &&& mask) = opcodeOf w &&& opcodeOf mask := BitVec.extractLsb'_and ..
  rw [← h, hand, hm, BitVec.and_allOnes]

theorem func3Of_of_and (h : w &&& mask = v) (hm : func3Of mask = BitVec.allOnes 3) : func3Of w = func3Of v := by
  have hand : func3Of (w &&& mask) = func3Of w &&& func3Of mask := BitVec.extractLsb'_and ..
  rw [← h, hand, hm, BitVec.and_allOnes]

theorem func7Of_of_and (h : w &&& mask = v) (hm : func7Of mask = BitVec.allOnes 7) : func7Of w = func7Of v := by
  have hand : func7Of (w &&& mask) = func7Of w &&& func7Of mask := BitVec.extractLsb'_and ..
  rw [← h, hand, hm, BitVec.and_allOnes]

/-- Lookup of a word that matches a row which fixes func7, func3 and the opcode. -/
theorem lookup_of_mask_func7 (h : w &&& 0xFE00707F#32 = v) :
    lookup w = lookupFields (opcodeOf v).toNat (func3Of v).toNat (func7Of v).toNat w.toNat := by
  rw [lookup, opcodeOf_of_and h (by decide), func3Of_of_and h (by decide), func7Of_of_and h (by decide)]

/-- Lookup of a word that matches a row which fixes func3 and the opcode. -/
theorem lookup_of_mask_func3 (h : w &&& 0x0000707F#32 = v) :
    lookup w = lookupFields (opcodeOf v).toNat (func3Of v).toNat (func7Of w).toNat w.toNat := by
  rw [lookup, opcodeOf_of_and h (by decide), func3Of_of_and h (by decide)]

/-- Lookup of a word that matches a row which fixes the opcode. -/
theorem lookup_of_mask_opcode (h : w &&& 0x0000007F#32 = v) :
    lookup w = lookupFields (opcodeOf v).toNat (func3Of w).toNat (func7Of w).toNat w.toNat := by
  rw [lookup, opcodeOf_of_and h (by decide)]

/-- Lookup of a word that matches a row which fixes every bit. -/
theorem lookup_of_mask_word (h : w &&& 0xFFFFFFFF#32 = v) : lookup w = lookup v :=
  congrArg lookup (BitVec.and_allOnes.symm.trans h)

end

/-- A word that matches the row of an instruction by mask is that instruction by its fields (30_encoding.md R116). -/
theorem lookup_of_hits_row {w : Word} {op : Op} {r : TableRow} (hrow : op.row = some r)
    (h : w &&& r.mask = r.mtch) : lookup w = some op := by
  cases op <;> cases hrow
  case jal | lui | auipc => exact (lookup_of_mask_opcode h).trans rfl
  case ecall | mret => exact (lookup_of_mask_word h).trans rfl
  case addi | xori | ori | andi | slti | sltiu | jalr => exact (lookup_of_mask_func3 h).trans rfl
  case beq | bne | blt | bge | bltu | bgeu => exact (lookup_of_mask_func3 h).trans rfl
  case lb | lh | lw | lbu | lhu | sb | sh | sw => exact (lookup_of_mask_func3 h).trans rfl
  all_goals exact (lookup_of_mask_func7 h).trans rfl

/-- Each instruction has one row in the table (30_encoding.md R103). -/
theorem row_op_of_mem : ∀ r ∈ opcodeTable, r.op.row = some r := by decide

theorem mem_op_of_row {op : Op} {r : TableRow} (h : op.row = some r) : r ∈ opcodeTable ∧ r.op = op :=
  ⟨List.mem_of_find?_eq_some h, by simpa using List.find?_some h⟩

theorem lookup_of_hits {w : Word} {r : TableRow} (hr : r ∈ opcodeTable) (h : w &&& r.mask = r.mtch) :
    lookup w = some r.op := lookup_of_hits_row (row_op_of_mem r hr) h

/-- Lookup by fields names the row that matches by mask (30_encoding.md R103, R116). -/
theorem lookup_eq_some_iff {w : Word} {op : Op} :
    lookup w = some op ↔ ∃ r ∈ opcodeTable, r.op = op ∧ w &&& r.mask = r.mtch := by
  constructor
  · intro h
    obtain ⟨r, hrow, hhit⟩ := hits_row_of_lookup h
    obtain ⟨hmem, hop⟩ := mem_op_of_row hrow
    exact ⟨r, hmem, hop, hhit⟩
  · rintro ⟨r, hmem, rfl, hhit⟩
    exact lookup_of_hits hmem hhit

/-- Two rows that match one word are the row of the instruction that its fields name. -/
theorem row_unique {w : Word} {r r' : TableRow} (hr : r ∈ opcodeTable) (hr' : r' ∈ opcodeTable)
    (h : w &&& r.mask = r.mtch) (h' : w &&& r'.mask = r'.mtch) : r = r' := by
  have hop : r.op = r'.op := Option.some.inj ((lookup_of_hits hr h).symm.trans (lookup_of_hits hr' h'))
  have hrow : some r = some r' := by rw [← row_op_of_mem r hr, ← row_op_of_mem r' hr', hop]
  exact Option.some.inj hrow

theorem lookupByMask_eq_lookup (w : Word) : lookupByMask w = lookup w := by
  cases h : lookupByMask w with
  | none => exact (lookup_none_of_lookupByMask_none h).symm
  | some op =>
    obtain ⟨r, hfind, rfl⟩ := Option.map_eq_some_iff.1 h
    have hhit : w &&& r.mask = r.mtch := by simpa [TableRow.hits] using List.find?_some hfind
    exact (lookup_of_hits (List.mem_of_find?_eq_some hfind) hhit).symm

/-- Settles O10: a row that matches by mask fixes the fields that the lookup reads, and the other way round. -/
theorem lookupMatchesTable : Obligations.LookupMatchesTable :=
  ⟨fun _ _ => lookup_eq_some_iff, fun _ _ hr _ hr' => row_unique hr hr', lookupByMask_eq_lookup⟩

/-! ## The illegal words -/

/-- BRANCH (30_encoding.md R102): every func3 but 2 and 3 has a row. -/
theorem lookupFields_branch_eq_none (f3 : BitVec 3) (f7 word : Nat) :
    lookupFields 0x63 f3.toNat f7 word = none ↔ f3 ∈ [2#3, 3#3] := by
  have h : ∀ f : BitVec 3, lookupFields 0x63 f.toNat 0 0 = none ↔ f ∈ [2#3, 3#3] := by decide
  exact h f3

theorem lookupFields_load_eq_none (f3 : BitVec 3) (f7 word : Nat) :
    lookupFields 0x03 f3.toNat f7 word = none ↔ f3 ∈ [3#3, 6#3, 7#3] := by
  have h : ∀ f : BitVec 3, lookupFields 0x03 f.toNat 0 0 = none ↔ f ∈ [3#3, 6#3, 7#3] := by decide
  exact h f3

theorem lookupFields_store_eq_none (f3 : BitVec 3) (f7 word : Nat) :
    lookupFields 0x23 f3.toNat f7 word = none ↔ f3 ∈ [3#3, 4#3, 5#3, 6#3, 7#3] := by
  have h : ∀ f : BitVec 3, lookupFields 0x23 f.toNat 0 0 = none ↔ f ∈ [3#3, 4#3, 5#3, 6#3, 7#3] := by decide
  exact h f3

theorem lookupFields_jalr_eq_none (f3 : BitVec 3) (f7 word : Nat) :
    lookupFields 0x67 f3.toNat f7 word = none ↔ f3 ≠ 0#3 := by
  have h : ∀ f : BitVec 3, lookupFields 0x67 f.toNat 0 0 = none ↔ f ≠ 0#3 := by decide
  exact h f3

theorem lookupFields_system_eq_none (f3 f7 : Nat) (w : Word) :
    lookupFields 0x73 f3 f7 w.toNat = none ↔ w ≠ 0x00000073#32 ∧ w ≠ 0x30200073#32 := by
  simp only [lookupFields, ite_eq_iff, reduceCtorEq, and_false, false_or, and_true, ne_eq, BitVec.toNat_eq,
    BitVec.toNat_ofNat, Nat.reducePow, Nat.reduceMod]

/-- OP: func7 0x00 and 0x01 have a row for every func3, func7 0x20 for two, and no other value has any. -/
theorem lookupFields_op_eq_none (f3 : BitVec 3) (f7 : BitVec 7) (word : Nat) :
    lookupFields 0x33 f3.toNat f7.toNat word = none ↔
      f7 ∉ [0x00#7, 0x20#7, 0x01#7] ∨ f7 = 0x20#7 ∧ f3 ∉ [0#3, 5#3] := by
  by_cases hmem : f7 ∈ [0x00#7, 0x20#7, 0x01#7]
  case pos =>
    have hrows : ∀ g ∈ [0x00#7, 0x20#7, 0x01#7], ∀ f : BitVec 3,
        lookupFields 0x33 f.toNat g.toNat 0 = none ↔ g = 0x20#7 ∧ f ∉ [0#3, 5#3] := by decide
    simp only [not_true_eq_false, hmem, false_or]
    exact hrows f7 hmem f3
  case neg =>
    refine iff_of_true ?_ (.inl hmem)
    simp only [List.mem_cons, List.not_mem_nil, or_false, not_or, BitVec.toNat_eq, BitVec.toNat_ofNat] at hmem
    simp only [lookupFields]
    split
    case h_19 => rfl
    all_goals omega

/-- OP-IMM: only the shifts, func3 1 and 5, read func7 (30_encoding.md R100, R102). -/
theorem lookupFields_opImm_eq_none (f3 : BitVec 3) (f7 : BitVec 7) (word : Nat) :
    lookupFields 0x13 f3.toNat f7.toNat word = none ↔
      f3 = 1#3 ∧ f7 ≠ 0x00#7 ∨ f3 = 5#3 ∧ f7 ∉ [0x00#7, 0x20#7] := by
  by_cases hshift : f3 ∈ [1#3, 5#3]
  case pos =>
    have hrows : ∀ f ∈ [1#3, 5#3], ∀ g : BitVec 7, lookupFields 0x13 f.toNat g.toNat 0 = none ↔
        f = 1#3 ∧ g ≠ 0x00#7 ∨ f = 5#3 ∧ g ∉ [0x00#7, 0x20#7] := by decide
    exact hrows f3 hshift f7
  case neg =>
    simp only [List.mem_cons, List.not_mem_nil, or_false, not_or] at hshift
    obtain ⟨hslli, hsrli⟩ := hshift
    simp only [hslli, hsrli, false_and, or_self, iff_false]
    have hsome : ∀ f : BitVec 3, f ≠ 1#3 → f ≠ 5#3 → f = 0#3 ∨ f = 2#3 ∨ f = 3#3 ∨ f = 4#3 ∨ f = 6#3 ∨ f = 7#3 := by
      decide
    rcases hsome f3 hslli hsrli with rfl | rfl | rfl | rfl | rfl | rfl <;> exact Option.some_ne_none _

/-- An opcode that 30_encoding.md R102 does not list. -/
theorem lookupFields_unknown {op : BitVec 7} (hop : op ∉ knownOpcodes) (f3 f7 word : Nat) :
    lookupFields op.toNat f3 f7 word = none := by
  simp only [knownOpcodes, List.mem_cons, List.not_mem_nil, or_false, not_or, BitVec.toNat_eq,
    BitVec.toNat_ofNat] at hop
  simp only [lookupFields]
  split
  case h_11 => rfl
  all_goals omega

/-- The words that have no row are those that 30_encoding.md R118 lists. -/
theorem lookup_eq_none_iff (w : Word) : lookup w = none ↔ IllegalWord w := by
  unfold lookup
  by_cases hknown : opcodeOf w ∈ knownOpcodes
  case neg => exact iff_of_true (lookupFields_unknown hknown _ _ _) (.inl hknown)
  case pos =>
    simp only [IllegalWord, hknown, not_true_eq_false, false_or]
    simp only [knownOpcodes, List.mem_cons, List.not_mem_nil, or_false] at hknown
    rcases hknown with h | h | h | h | h | h | h | h | h | h <;>
      simp only [h, BitVec.toNat_ofNat, Nat.reducePow, Nat.reduceMod, BitVec.reduceEq, false_and, true_and, false_or,
        or_false]
    iterate 3 exact iff_of_false (Option.some_ne_none _) not_false
    · exact lookupFields_jalr_eq_none ..
    · exact lookupFields_branch_eq_none ..
    · exact lookupFields_load_eq_none ..
    · exact lookupFields_store_eq_none ..
    · exact lookupFields_opImm_eq_none ..
    · exact lookupFields_op_eq_none ..
    · exact lookupFields_system_eq_none ..

/-- Where the fetch is in order, V_ILLEGAL is the fault of a word without a row: an instruction raises other codes
(60_exceptions.md R361). -/
theorem step_eq_vIllegal_iff {s : State} (hs : FetchOk s) :
    step s = .fault .vIllegal ↔ lookup s.fetchWord = none := by
  refine ⟨fun h => ?_, step_of_lookup_none hs⟩
  by_contra hne
  obtain ⟨op, hop⟩ := Option.ne_none_iff_exists'.1 hne
  rw [step_of_decodeWord hs (decodeWord_eq_ok.2 ⟨op, hop, rfl⟩)] at h
  have hexec : exec (op.withOperands s.fetchWord) s = .fault .vIllegal := by
    cases he : exec (op.withOperands s.fetchWord) s <;> rw [he] at h <;> cases h
    rfl
  rcases exec_fault_cases hexec with hc | hc | ⟨hc, -⟩ <;> cases hc

/-- Settles O9: V_ILLEGAL is the fault of a word without a row, and those words are the listed ones. -/
theorem illegalWordsFault : Obligations.IllegalWordsFault := fun _ hs =>
  (step_eq_vIllegal_iff hs).trans (lookup_eq_none_iff _)

end Sys2Proof.Safety
end

section
/-! SUPPORT. What the decoder's constraints determine: the pieces, the fields and the immediates of a word, and
nothing for halves that are not canonical (30_encoding.md R85 to R101). -/

namespace Sys2Proof.Safety

open Sys2Proof.Machine Sys2Proof.Circuit

/-! ## Every satisfying witness -/

section

variable {p : Nat}

/-- What every satisfying witness of the decoder has, whatever the halves: pieces in their ranges, and the halves
equal in the field to the sums of the pieces (30_encoding.md R88 to R91). -/
theorem checkedPieces_satisfying (hp : p.Prime) (hb : 2 ^ 28 < p) (v : ValU32) :
    EverySatisfying (checkedPieces p v) (fun q =>
      (0 ≤ q.lowSum ∧ q.lowSum < 65536 ∧ 0 ≤ q.highSum ∧ q.highSum < 65536) ∧
      (v.low - q.lowSum) % (p : Int) = 0 ∧ (v.high - q.highSum) % (p : Int) = 0) := by
  have hb' : (268435456 : Int) < p := by exact_mod_cast hb
  refine everySatisfying_bind (everySatisfying_mono (pieceCells_satisfying hp _) fun q hcell => ?_)
  simp only [allPieces, List.forall_mem_cons, List.forall_mem_append] at hcell
  obtain ⟨⟨hop0, hop1⟩, hbits, htwits⟩ := hcell
  refine everySatisfying_bind (everySatisfying_mono ?_ fun _ hq => everySatisfying_pure hq)
  unfold checkPieces
  refine everySatisfying_bits hp hbits fun hbit => ?_
  refine everySatisfying_checkAll (R := fun c => 0 ≤ c ∧ c ≤ 3) (fun c hc => everySatisfying_assertEq_last fun e =>
    ⟨(htwits c hc).1, twit_of_constraint hp hb (htwits c hc).1 (htwits c hc).2 e⟩) fun htwit => ?_
  refine everySatisfying_u8 hop0 hop1 fun hop => ?_
  refine everySatisfying_u8 (by omega) (by omega) fun hdouble => ?_
  refine everySatisfying_assertEq fun hlow => everySatisfying_assertEq_last fun hhigh => ?_
  exact ⟨sums_bounds ⟨hop0, by omega⟩ hbit htwit, hlow, hhigh⟩

/-- A field element equal to a half that pieces reassemble is below 2^16. -/
theorem emod_lt_of_sub_emod_eq_zero (hb : 2 ^ 28 < p) {a b : Int} (h : (a - b) % (p : Int) = 0) (hb0 : 0 ≤ b)
    (hb1 : b < 65536) : a % (p : Int) < 65536 := by
  have hb' : (268435456 : Int) < p := by exact_mod_cast hb
  rw [Int.emod_eq_emod_iff_emod_sub_eq_zero.2 h, Int.emod_eq_of_lt hb0 (by omega)]
  exact hb1

/-- Halves that are not canonical have no satisfying witness (30_encoding.md R94). -/
theorem decodeRow_unsatisfiable (hp : p.Prime) (hb : 2 ^ 28 < p) {v : ValU32}
    (hv : 65536 ≤ v.low % (p : Int) ∨ 65536 ≤ v.high % (p : Int)) :
    EverySatisfying (decodeRow p v) (fun _ => False) := by
  refine everySatisfying_bind (everySatisfying_mono (checkedPieces_satisfying hp hb v) ?_)
  rintro q ⟨⟨hl0, hl1, hh0, hh1⟩, hlow, hhigh⟩
  have := emod_lt_of_sub_emod_eq_zero hb hlow hl0 hl1
  have := emod_lt_of_sub_emod_eq_zero hb hhigh hh0 hh1
  omega

end

/-! ## The statements on the decoder -/

/-- The fields tile the word (30_encoding.md R83). -/
theorem unsigned_eq_fields (w : Word) :
    unsigned w = (opcodeOf w).toNat + 2 ^ 7 * (rdOf w).toNat + 2 ^ 12 * (func3Of w).toNat
      + 2 ^ 15 * (rs1Of w).toNat + 2 ^ 20 * (rs2Of w).toNat + 2 ^ 25 * (func7Of w).toNat := by
  have hw := w.isLt
  simp only [unsigned, opcodeOf, rdOf, func3Of, rs1Of, rs2Of, func7Of, toNat_extract]
  omega

/-- Settles O44: the satisfying pieces are the honest ones, whose sums are the fields, which tile the word. -/
theorem decoderUnit : Obligations.DecoderUnit := by
  rintro cfg ⟨hp, hb, -, -⟩
  refine ⟨determined_checkedPieces hp hb, fun w => ?fields, fun v => decodeRow_unsatisfiable hp hb⟩
  case fields =>
    obtain ⟨d, hdet, hd⟩ := exists_determined_decodeRow hp hb w
    refine ⟨d, hdet, hd.opcode, hd.rd, hd.func3, hd.rs1, hd.rs2, hd.func7, ?_⟩
    rw [hd.opcode, hd.rd, hd.func3, hd.rs1, hd.rs2, hd.func7]
    exact unsigned_eq_fields w

/-- Settles O45: the one satisfying witness decodes to the immediates of the word. -/
theorem immediateSums : Obligations.ImmediateSums := by
  rintro cfg ⟨hp, hb, -, -⟩ w
  obtain ⟨d, ⟨-, hdet⟩, hd⟩ := exists_determined_decodeRow hp hb w
  refine everySatisfying_mono hdet ?_
  rintro _ rfl
  simp only [← sextWord_eq_u32, ← upperWord_eq_u32]
  exact ⟨hd.immI, hd.immS, hd.immB, hd.immU, hd.immJ⟩

end Sys2Proof.Safety
end

section
/-! SUPPORT. The statements on the value layer of the constraint layer (40_primitives.md): the range checks as one
equation each, on every row and every integer; Normalize, Add32, Sub32, IsZero and EqU32 on the spec's terms. -/

namespace Sys2Proof.Safety

open Sys2Proof.Machine Sys2Proof.Circuit

section

variable {p : Nat}

/-! ## Bit and Twit -/

/-- A field identity with a constant fixes the representative (00_scope.md R15). -/
theorem sub_emod_eq_zero_iff {c k : Int} (h0 : 0 ≤ k) (h1 : k < (p : Int)) :
    (c - k) % (p : Int) = 0 ↔ c % (p : Int) = k := by
  rw [← Int.emod_eq_emod_iff_emod_sub_eq_zero, Int.emod_eq_of_lt h0 h1]

/-- The roots of the polynomial of Bit (40_primitives.md R130). -/
theorem bit_constraint_iff (hp : p.Prime) (c : Int) :
    (c * (c - 1) - 0) % (p : Int) = 0 ↔ c % (p : Int) = 0 ∨ c % (p : Int) = 1 := by
  have h1 : (1 : Int) < p := by exact_mod_cast hp.one_lt
  rw [sub_zero, mul_emod_eq_zero hp, sub_emod_eq_zero_iff (by decide) h1]

/-- The roots of the polynomial of Twit (40_primitives.md R131). -/
theorem twit_constraint_iff (hp : p.Prime) (h3 : 3 < p) (c : Int) :
    (c * (c - 1) * (c - 2) * (c - 3) - 0) % (p : Int) = 0 ↔
      c % (p : Int) = 0 ∨ c % (p : Int) = 1 ∨ c % (p : Int) = 2 ∨ c % (p : Int) = 3 := by
  have h3' : (3 : Int) < p := by exact_mod_cast h3
  rw [sub_zero, mul_emod_eq_zero hp, mul_emod_eq_zero hp, mul_emod_eq_zero hp,
    sub_emod_eq_zero_iff (by decide) (by omega), sub_emod_eq_zero_iff (by decide) (by omega),
    sub_emod_eq_zero_iff (by decide) h3', or_assoc, or_assoc]

/-- An assertion leaves the row as it is or is its violation. -/
theorem assertEq_apply (a b : Int) (code : Fault) (st : RowState) :
    assertEq p a b code st = if (a - b) % (p : Int) = 0 then .ok ((), st) else .error code := by
  unfold assertEq
  split <;> rfl

/-! ## U8 and U16 -/

/-- A lookup against the table [0, bound) adds its event or is its violation (40_primitives.md R132, R133). -/
theorem rangeCheck_apply {width : Nat} {bound : Int} (hw : 2 ^ width = bound) (c : Int) (code : Fault) (st : RowState) :
    rangeCheck p width c code st =
      if c % (p : Int) < bound then .ok ((), { st with events := st.events ++ [⟨width, c % p⟩] }) else .error code := by
  subst hw
  rfl

/-! ## Equality -/

/-- EqU32 (40_primitives.md R143), its bit read as the equality of words. -/
theorem asBit_eqU (a b : Word) : asBit (eqU a b) = if a = b then 1 else 0 := by
  simp only [asBit, eqU_iff]

end

/-! ## The statements on the value layer -/

/-- Settles O38: the roots of each polynomial, in a field with more than three elements. -/
theorem bitAndTwitChecks : Obligations.BitAndTwitChecks := by
  rintro cfg ⟨hp, hb, -, -⟩ c st
  have h3 : 3 < cfg.p := by omega
  constructor
  · simp only [bit, assertEq_apply, bit_constraint_iff hp]
  · simp only [twit, assertEq_apply, twit_constraint_iff hp h3]

/-- Settles O39: each check is the lookup of its width. -/
theorem rangeChecks : Obligations.RangeChecks := by
  intro cfg _ c st
  exact ⟨rangeCheck_apply (by norm_num) c .vU8 st, rangeCheck_apply (by norm_num) c .vU16 st⟩

/-- Settles O40: the determined halves and carry are the digits of l + 65536h in base 65536. -/
theorem normalizeUnit : Obligations.NormalizeUnit := by
  rintro cfg ⟨hp, hb, -, -⟩ l h l0 l1 h0 h1
  refine ⟨_, _, determined_normalize hp hb l0 l1 h0 h1, ?canonical, ?value, ?carry, ?isBit⟩
  case canonical => simp only [ValU32.Canonical]; omega
  case value => simp only [ValU32.value]; omega
  case carry => omega
  case isBit => omega

/-- Settles O41: u32 of a sum or difference is that of the words. -/
theorem addSubUnits : Obligations.AddSubUnits := by
  rintro cfg ⟨hp, hb, -, -⟩ a b
  rw [u32_add, u32_sub, u32_unsigned, u32_unsigned]
  exact ⟨determined_add32 hp hb a b, determined_sub32 hp hb a b⟩

/-- Settles O42: a field element is 0 or has an inverse, and halves below the prime are equal in the field only where
they are equal. -/
theorem zeroAndEqualityUnits : Obligations.ZeroAndEqualityUnits := by
  rintro cfg ⟨hp, hb, -, -⟩
  refine ⟨determined_isZero hp, fun a b => ?_⟩
  rw [← asBit_eqU]
  exact determined_eqU32 hp hb a b

end Sys2Proof.Safety
end

section
/-! SUPPORT. The statement on the comparators of the constraint layer (42_compare.md): the bit that the satisfying
witnesses of LtS and LtU determine, read as the order of the words' signed and unsigned readings. -/

namespace Sys2Proof.Safety

open Sys2Proof.Machine Sys2Proof.Circuit

/-- A comparator's bit is 1 exactly where the order that decides it holds. -/
theorem asBit_of_iff {c : Bool} {q : Prop} [Decidable q] (h : c = true ↔ q) : asBit c = if q then 1 else 0 := by
  rw [asBit]
  exact if_congr h rfl rfl

/-- Settles O46: the bit that each comparator determines (42_compare.md R190, R191) is the order of the readings
(R192). -/
theorem comparatorUnits : Obligations.ComparatorUnits := by
  rintro cfg ⟨hp, hb, -, -⟩ a b
  constructor
  · exact determined_of_eq (determined_ltSRow hp hb a b) (asBit_of_iff (ltS_iff a b))
  · exact determined_of_eq (determined_ltURow hp hb a b) (asBit_of_iff (ltU_iff_unsigned a b))

end Sys2Proof.Safety
end

section
/-! SUPPORT. The statement on the bitwise units of the constraint layer (43_bitwise.md): the halves that the satisfying
witnesses of BitAnd, BitOr and BitXor determine, as words. -/

namespace Sys2Proof.Safety

open Sys2Proof.Machine Sys2Proof.Circuit

/-- Settles O47: the decomposition of each half has one satisfying witness (43_bitwise.md R210), so BitAnd has one
result (R211), and BitOr and BitXor are half by half what it and the operands fix (R212). -/
theorem bitwiseUnits : Obligations.BitwiseUnits := by
  rintro cfg ⟨hp, hb, -, -⟩ a b
  exact ⟨determined_bitAnd hp hb a b, determined_bitOr hp hb a b, determined_bitXor hp hb a b⟩

end Sys2Proof.Safety
end

section
/-! SUPPORT. The statements on the units of multiplication and left shifts (44_multiply.md): the 64-bit result of
MultiplyAccumulate in the claims' readings of words, and the power table at the amounts below 32 and at no other. -/

namespace Sys2Proof.Safety

open Sys2Proof.Machine Sys2Proof.Circuit

/-! ## The multiplier -/

/-- The reading that a flag chooses (00_scope.md R9). -/
theorem readAs_eq_ite (flag : Bool) (v : Word) : readAs flag v = if flag then signed v else unsigned v := by
  cases flag
  · exact readAs_false v
  · exact readAs_true v

/-- The low and the high word tile a 64-bit result (44_multiply.md R234). -/
theorem unsigned_loWord_add_hiWord (v : BitVec 64) : unsigned (loWord v) + 2 ^ 32 * unsigned (hiWord v) = v.toNat := by
  rw [unsigned, unsigned, toNat_loWord, toNat_hiWord]
  omega

/-- What MultiplyAccumulate computes with any addend (44_multiply.md R234). -/
theorem toNat_macValue (a b c : Word) (sA sB sC : Bool) :
    ((macValue a b c sA sB sC).toNat : Int) = (readAs sA a * readAs sB b + readAs sC c) % 2 ^ 64 := by
  rw [macValue, BitVec.toNat_ofInt]
  exact Int.toNat_of_nonneg (Int.emod_nonneg _ (by decide))

/-- Settles O48: the satisfying witnesses determine the two words of the product plus addend (44_multiply.md R235),
which tile it (R234). -/
theorem multiplyAccumulateUnit : Obligations.MultiplyAccumulateUnit := by
  rintro cfg ⟨hp, hb, -, -⟩ a b c sA sB sC
  refine ⟨_, _, determined_multiplyAccumulate hp hb a b c sA sB sC, ?_⟩
  rw [unsigned_loWord_add_hiWord, toNat_macValue]
  simp only [readAs_eq_ite]

/-! ## The power table -/

/-- The power that the table holds, as the claims write it. -/
theorem u32_two_pow (s : Nat) : u32 (2 ^ s) = BitVec.ofNat 32 (2 ^ s) := by
  rw [← BitVec.ofInt_natCast, Nat.cast_pow, Nat.cast_ofNat, u32]

/-- The index of the table is below 32 and below the prime, so no table has an amount outside [0, 32)
(44_multiply.md R237). -/
theorem pow2_unsatisfiable {p : Nat} (hp : p.Prime) (hb : 2 ^ 28 < p) {s : Int} (hs : 32 ≤ s % (p : Int)) :
    EverySatisfying (pow2 p s) fun _ => False := by
  refine everySatisfying_bind (everySatisfying_mono (powerTable_satisfying hp hb s) ?_)
  rintro _ ⟨k, hk, rfl⟩
  refine everySatisfying_assertEq fun e => ?_
  have hindex : (k : Int) % p = s % p := Int.emod_eq_emod_iff_emod_sub_eq_zero.2 e
  rw [Int.emod_eq_of_lt (Int.natCast_nonneg k) (by omega)] at hindex
  omega

/-- Settles O49: the table is determined at each amount below 32 and has no other; the amount that a register feeds
it is the register's low five bits (44_multiply.md R238). -/
theorem powerTableUnit : Obligations.PowerTableUnit := by
  rintro cfg ⟨hp, hb, -, -⟩
  simp only [u32_two_pow]
  exact ⟨fun _ hs => determined_pow2 hp hb hs, fun _ hs => pow2_unsatisfiable hp hb hs,
    determined_pow2OfRegister hp hb⟩

end Sys2Proof.Safety
end

section
/-! SUPPORT. The statements on the division verifier and the arithmetic shift (45_divide.md): the one answer of DoDiv as
the rows of the division table, in the claims' readings of words. -/

namespace Sys2Proof.Safety

open Sys2Proof.Machine Sys2Proof.Circuit

/-! ## The rows of the division table -/

theorem divOverflow_iff (n d : Word) : divOverflow n d = true ↔ n = 0x80000000#32 ∧ d = 0xFFFFFFFF#32 := by
  simp [divOverflow]

/-- The row of the signed overflow (45_divide.md R262). -/
theorem division_overflow {n d : Word} (hovf : n = 0x80000000#32 ∧ d = 0xFFFFFFFF#32) :
    divQuotient n d true = 0x80000000#32 ∧ divRemainder n d true = 0#32 := by
  obtain ⟨rfl, rfl⟩ := hovf
  decide

/-- The signed row away from a zero divisor and the overflow (45_divide.md R262). -/
theorem division_signed_eq_u32 {n d : Word} (hd : d ≠ 0#32) (hovf : ¬ (n = 0x80000000#32 ∧ d = 0xFFFFFFFF#32)) :
    divQuotient n d true = u32 (Int.tdiv (signed n) (signed d)) ∧
      divRemainder n d true = u32 (Int.tmod (signed n) (signed d)) := by
  have hno : divOverflow n d ≠ true := mt (divOverflow_iff n d).1 hovf
  rw [divQuotient, divRemainder, if_neg hd, if_neg hd, if_pos rfl, if_pos rfl, if_neg hno, if_neg hno,
    signed_eq_toInt, signed_eq_toInt]
  exact ⟨rfl, rfl⟩

/-- The unsigned row away from a zero divisor (45_divide.md R262). -/
theorem division_unsigned_eq_u32 {n d : Word} (hd : d ≠ 0#32) :
    divQuotient n d false = u32 (unsigned n / unsigned d) ∧
      divRemainder n d false = u32 (unsigned n % unsigned d) := by
  rw [divQuotient, divRemainder, if_neg hd, if_neg hd, if_neg Bool.false_ne_true, if_neg Bool.false_ne_true, unsigned,
    unsigned, ← Int.natCast_ediv, ← Int.natCast_emod, u32, u32, BitVec.ofInt_natCast, BitVec.ofInt_natCast]
  exact ⟨rfl, rfl⟩

/-! ## The statements on division and the arithmetic shift -/

/-- Settles O50: the one answer that satisfies DoDiv (45_divide.md R263), read row by row of the table of R262. -/
theorem divisionSoundness : Obligations.DivisionSoundness := by
  rintro cfg ⟨hp, hb, -, -⟩ n d sg
  refine everySatisfying_mono (determined_doDiv hp hb n d sg).2 ?_
  rintro _ rfl
  split_ifs with hd hsg hovf
  · rw [hd, divQuotient_zero, divRemainder_zero]
  · obtain ⟨hq, hr⟩ := division_overflow hovf
    rw [hsg, hq, hr]
  · obtain ⟨hq, hr⟩ := division_signed_eq_u32 hd hovf
    rw [hsg, hq, hr]
  · obtain ⟨hq, hr⟩ := division_unsigned_eq_u32 (n := n) hd
    rw [Bool.eq_false_iff.2 hsg, hq, hr]

/-- Settles O51: DoDiv determines its answer, so the honest one satisfies it and an accepted one is the honest one
(45_divide.md R264). -/
theorem divisionCompleteness : Obligations.DivisionCompleteness := by
  rintro cfg ⟨hp, hb, -, -⟩ n d sg
  obtain ⟨hhonest, hunique⟩ := determined_doDiv hp hb n d sg
  exact ⟨hhonest, fun q r st st' haccepted => Prod.mk.inj (hunique st (q, r) st' haccepted)⟩

/-- Settles O52: dividing the one's complement of a negative word and complementing the quotient rounds down
(45_divide.md R271). -/
theorem arithmeticShiftUnit : Obligations.ArithmeticShiftUnit := by
  rintro cfg ⟨hp, hb, -, -⟩ n s hs
  rw [u32_two_pow, ← shiftRightArith_eq_u32]
  exact determined_shiftArithRow hp hb n hs

end Sys2Proof.Safety
end

section
/-! SUPPORT. The invariant of every step: memory in canonical form, an even pc, and an even pc in every pending answer
of the control subsystem (46_control_transfer.md R292; 20_memory.md; 48_system.md R340). -/

namespace Sys2Proof.Safety

open Sys2Proof.Machine

/-- Every instruction writes memory by whole words, if at all, so it keeps the canonical form. -/
theorem exec_keeps_memory_wf {i : Instr} {s t : State} (hmem : s.mem.wf = true) (h : exec i s = .next t) :
    t.mem.wf = true := by
  rcases exec_next_cases h with ⟨rd, v, rfl⟩ | ⟨_, _, -, rfl⟩ | ⟨rd, target, -, rfl⟩ |
    ⟨size, addr, data, -, -, rfl⟩ | ⟨r, rest, -, rfl⟩
  · exact wf_retire hmem rd v
  · exact hmem
  · exact wf_jump hmem rd target
  · exact wf_store hmem size addr data
  · exact wf_applyControl (s := { s with control := rest }) hmem r

/-- A hand-off that completes goes on at the pc of the first answer and leaves the answers after it (48_system.md
R340). -/
theorem controlStep_next {word : Word} {s t : State} (h : controlStep word s = .next t) :
    ∃ r, s.control = .result r :: t.control ∧ t.pc = r.newPc := by
  rcases controlStep_cases word s with ⟨-, hc⟩ | ⟨rest, -, hc⟩ | ⟨r, rest, he, hc⟩ <;> rw [hc] at h <;> cases h
  exact ⟨r, he, rfl⟩

/-- ECALL and MRET are such hand-offs (48_system.md R342, R343). -/
theorem exec_next_of_handsOver {i : Instr} {s t : State} (hi : handsOver i = true) (h : exec i s = .next t) :
    ∃ r, s.control = .result r :: t.control ∧ t.pc = r.newPc := by
  cases i <;> cases hi <;> exact controlStep_next h

/-- Every instruction that has an encoding keeps the invariant: one of files 41 to 47 takes no answer and has an even
target (46_control_transfer.md R292); ECALL and MRET take their pc from an answer that was pending. -/
theorem exec_keeps_keptInv {i : Instr} {s t : State} (hwf : i.wf = true) (hs : KeptInv s) (h : exec i s = .next t) :
    KeptInv t := by
  obtain ⟨hmem, hpc, hanswers⟩ := hs
  have hmem' : t.mem.wf = true := exec_keeps_memory_wf hmem h
  cases hi : handsOver i with
  | false =>
    have hcontrol : t.control = s.control := exec_control_of_not_handsOver hi h
    refine ⟨hmem', exec_keeps_pc_even hwf hi hpc h, ?_⟩
    rw [hcontrol]
    exact hanswers
  | true =>
    obtain ⟨r, hcontrol, htarget⟩ := exec_next_of_handsOver hi h
    rw [hcontrol] at hanswers
    refine ⟨hmem', ?_, fun r' hr' => hanswers r' (List.mem_cons_of_mem _ hr')⟩
    rw [htarget]
    exact hanswers r List.mem_cons_self

/-- Settles O2: a decoded instruction has an encoding, so its offset is even and it keeps the invariant; the end of the
cycle touches none of it. -/
theorem stepKeepsInvariant : Obligations.StepKeepsInvariant := by
  intro s t hs h
  obtain ⟨i, u, -, hd, hexec, rfl⟩ := step_next_cases h
  obtain ⟨hmem, hpc, hanswers⟩ := exec_keeps_keptInv (wf_of_decodeWord hd) hs hexec
  exact ⟨hmem, hpc, hanswers⟩

end Sys2Proof.Safety
end

section
/-! SUPPORT. The statement on accesses that ADDR_OK refuses (47_load_store.md R312): the violation a refused access
raises, at every size. -/

namespace Sys2Proof.Safety

open Sys2Proof.Machine

/-- A refused access raises V_MEM only where its alignment check, which comes first, passed (47_load_store.md R312;
60_exceptions.md R363). -/
theorem accessViolation_of_refused {s : State} {kind : AccessKind} {addr : Word} (size : AccessSize)
    (hno : s.addrOk kind (wordAddrOf addr) = false) :
    s.accessViolation kind size addr = some (if addr.toNat % size.bytes = 0 then .vMem else .vMisaligned) := by
  by_cases ha : addr.toNat % size.bytes = 0
  · rw [if_pos ha]
    exact accessViolation_eq_some.2 (.inr ⟨(aligned_iff size addr).2 ha, hno, rfl⟩)
  · rw [if_neg ha]
    exact accessViolation_eq_vMisaligned_iff.2 ha

/-- A byte is never misaligned, so its refused access is V_MEM at every address (20_memory.md R67). -/
theorem accessViolation_byte_of_refused {s : State} {kind : AccessKind} {addr : Word}
    (hno : s.addrOk kind (wordAddrOf addr) = false) : s.accessViolation kind .byte addr = some .vMem :=
  (accessViolation_of_refused .byte hno).trans (congrArg some (if_pos (Nat.mod_one _)))

/-- Settles O29: every access is `loadFrom` or `storeTo` of its size, and faults with the violation that its refusal
raises. -/
theorem refusedAccessFaults : Obligations.RefusedAccessFaults := by
  intro s rd rs1 rs2 imm
  rw [exec_lb, exec_lbu, exec_lh, exec_lhu, exec_lw, exec_sb, exec_sh, exec_sw]
  refine ⟨fun hno => ?lb, fun hno => ?lbu, fun hno => ?lh, fun hno => ?lhu, fun hno => ?lw, fun hno => ?sb,
    fun hno => ?sh, fun hno => ?sw⟩
  case lb => exact loadFrom_eq_fault_iff.2 (accessViolation_byte_of_refused hno)
  case lbu => exact loadFrom_eq_fault_iff.2 (accessViolation_byte_of_refused hno)
  case lh => exact loadFrom_eq_fault_iff.2 (accessViolation_of_refused .half hno)
  case lhu => exact loadFrom_eq_fault_iff.2 (accessViolation_of_refused .half hno)
  case lw => exact loadFrom_eq_fault_iff.2 (accessViolation_of_refused .word hno)
  case sb => exact storeTo_eq_fault_iff.2 (accessViolation_byte_of_refused hno)
  case sh => exact storeTo_eq_fault_iff.2 (accessViolation_of_refused .half hno)
  case sw => exact storeTo_eq_fault_iff.2 (accessViolation_of_refused .word hno)

end Sys2Proof.Safety
end

section
/-! SUPPORT. The state after reset (70_reset_and_hazards.md): its register slots, the bytes below them, and the fetch
that is in order there. -/

namespace Sys2Proof.Safety

open Sys2Proof.Machine

/-- The slots are the last thirty-two words of the address space (log 2). -/
theorem slot_reset_toNat (r : RegNum) : (State.reset.slot r).toNat = 0x3FFFFFE0 + r.toNat := by
  have hslot : State.reset.slot r = 0x3FFFFFE0#30 + r.setWidth 30 := rfl
  have hr : r.toNat < 32 := r.isLt
  rw [hslot, BitVec.toNat_add, BitVec.toNat_setWidth, BitVec.toNat_ofNat]
  omega

theorem listed_reset (a : Nat) :
    State.reset.mem.listed a = if 0xFFFFFF80 ≤ a ∧ a < 2 ^ 32 then some 0#8 else none :=
  listed_zeroBytes 128 0xFFFFFF80 a

/-- Every slot holds 0, x0's by the spec (70_reset_and_hazards.md R384) and the others by log 22. -/
theorem readWord_reset_slot (r : RegNum) : State.reset.mem.readWord (State.reset.slot r) = 0#32 := by
  have hr : r.toNat < 32 := r.isLt
  have hbyte : ∀ k < 4, State.reset.mem.readByte (4 * (State.reset.slot r).toNat + k) = 0#8 := fun k hk => by
    rw [slot_reset_toNat]
    exact readByte_of_listed ((listed_reset _).trans (if_pos (by omega)))
  have h0 := hbyte 0 (by decide)
  rw [Nat.add_zero] at h0
  rw [Memory.readWord, h0, hbyte 1 (by decide), hbyte 2 (by decide), hbyte 3 (by decide)]
  rfl

theorem readReg_reset (r : RegNum) : State.reset.readReg r = 0#32 := by
  by_cases hr : r = 0#5
  · rw [hr, readReg_zero]
  · rw [readReg_of_ne _ hr, readWord_reset_slot]

/-- Below the slots nothing is listed, so the initial image decides (70_reset_and_hazards.md R383). -/
theorem readByte_reset_below {a : Nat} (ha : a / 4 < (State.reset.slot 0#5).toNat) :
    State.reset.mem.readByte a = Config.initialByte a := by
  rw [slot_reset_toNat, BitVec.toNat_ofNat] at ha
  exact readByte_of_not_listed ((listed_reset a).trans (if_neg (by omega)))

/-- No denial and no misalignment at the model's INIT_PC (logs 4 to 6). -/
theorem fetchOk_reset : FetchOk State.reset := ⟨rfl, by decide, by decide⟩

/-- Settles O1: memory lists the slots alone, each byte 0, and the handoff is the one that the log names. -/
theorem resetMeetsInvariant : Obligations.ResetMeetsInvariant :=
  ⟨⟨wf_reset, by decide, fun _ hr => absurd hr List.not_mem_nil⟩, rfl, fetchOk_reset, readReg_reset,
    readWord_reset_slot 0#5, fun _ => readByte_reset_below⟩

end Sys2Proof.Safety
end

section
/-! SUPPORT. The hand-off of ECALL and MRET to the control subsystem (48_system.md): what each kind of answer does, and
the words that a result writes. -/

namespace Sys2Proof.Safety

open Sys2Proof.Machine

/-! ## The writes of a result -/

/-- A word that no write names keeps its value (20_memory.md R70). -/
theorem readWord_writeWords_of_not_mem {w : WordAddr} {writes : List (WordAddr × Word)} (hw : ∀ v, (w, v) ∉ writes)
    (m : Memory) : (m.writeWords writes).readWord w = m.readWord w := by
  induction writes generalizing m with
  | nil => rfl
  | cons c writes ih =>
    obtain ⟨w', v'⟩ := c
    have hne : w ≠ w' := fun e => hw v' (e ▸ List.mem_cons_self)
    have hlater : ∀ v, (w, v) ∉ writes := fun v hv => hw v (List.mem_cons_of_mem _ hv)
    exact (ih hlater (m.writeWord w' v')).trans (readWord_writeWord_ne m hne v')

/-- A word holds the value of the last write that names it (20_memory.md R70). -/
theorem readWord_writeWords_last {w : WordAddr} {later : List (WordAddr × Word)} (hlater : ∀ v, (w, v) ∉ later)
    (before : List (WordAddr × Word)) (v : Word) (m : Memory) :
    (m.writeWords (before ++ (w, v) :: later)).readWord w = v := by
  induction before generalizing m with
  | nil => exact (readWord_writeWords_of_not_mem hlater (m.writeWord w v)).trans (readWord_writeWord_same m w v)
  | cons c before ih => exact ih (m.writeWord c.1 c.2)

/-! ## The answers -/

theorem controlStep_of_nil {s : State} (h : s.control = []) (word : Word) :
    controlStep word s = .refused (.control word s.pc) := by
  unfold controlStep
  rw [h]

theorem controlStep_of_violation {s : State} {rest : List ControlAnswer} (h : s.control = .violation :: rest)
    (word : Word) : controlStep word s = .fault .vControl := by
  unfold controlStep
  rw [h]
  rfl

theorem controlStep_of_result {s : State} {r : ControlResult} {rest : List ControlAnswer}
    (h : s.control = .result r :: rest) (word : Word) :
    controlStep word s = .next ({ s with control := rest }.applyControl r) := by
  unfold controlStep
  rw [h]

theorem exec_ecall (s : State) : exec .ecall s = controlStep 0x00000073#32 s := rfl

theorem exec_mret (s : State) : exec .mret s = controlStep 0x30200073#32 s := rfl

/-- What the result of a hand-off leaves, whichever instruction made it (48_system.md R340). -/
theorem controlStep_applies_result {s : State} {r : ControlResult} {rest : List ControlAnswer}
    (h : s.control = .result r :: rest) (word : Word) :
    ∃ t, controlStep word s = .next t ∧ t.pc = r.newPc ∧ t.istate = r.newState ∧ t.mode = r.newMode ∧
      t.control = rest ∧ t.params = s.params ∧ t.cycle = s.cycle ∧
      (∀ w, (∀ v, (w, v) ∉ r.writes) → t.mem.readWord w = s.mem.readWord w) ∧
      ∀ before w v later, r.writes = before ++ (w, v) :: later → (∀ v', (w, v') ∉ later) → t.mem.readWord w = v := by
  refine ⟨_, controlStep_of_result h word, rfl, rfl, rfl, rfl, rfl, rfl, fun w hw => ?kept, ?last⟩
  case kept => exact readWord_writeWords_of_not_mem hw s.mem
  case last =>
    intro before w v later hwrites hlater
    rw [applyControl_mem, hwrites]
    exact readWord_writeWords_last hlater before v s.mem

/-- Settles O31: both instructions are the hand-off, each with its own word. -/
theorem controlResultApplies : Obligations.ControlResultApplies := by
  intro s r rest h
  rw [exec_ecall, exec_mret]
  exact ⟨controlStep_applies_result h _, controlStep_applies_result h _⟩

end Sys2Proof.Safety
end

section
/-! SUPPORT. How a step and a block-level run end without a next state (60_exceptions.md R364; 48_system.md R341;
70_reset_and_hazards.md R382): the violations of a step, a state that raises each, and the endings of a run. -/

namespace Sys2Proof.Safety

open Sys2Proof.Machine

/-! ## The outcome of a cycle -/

theorem endCycle_eq_fault_iff {r : Result} {c : Fault} : endCycle r = .fault c ↔ r = .fault c := by
  cases r <;> simp [endCycle]

theorem endCycle_eq_refused_iff {r : Result} {q : Refusal} : endCycle r = .refused q ↔ r = .refused q := by
  cases r <;> simp [endCycle]

/-- The codes a step can raise: those of the checks of a cycle, of the decode, and of the instructions (60_exceptions.md
R364). -/
theorem step_fault_code {s : State} {c : Fault} (h : step s = .fault c) :
    c = .vState ∨ c = .vFetchAlign ∨ c = .vIllegal ∨ c = .vMisaligned ∨ c = .vMem ∨ c = .vControl := by
  rcases step_cases s with ⟨d, hd, hstep⟩ | ⟨-, -, hstep⟩ | ⟨i, -, -, hstep⟩ <;> rw [hstep] at h
  · cases h
    rcases fetchViolation_eq_some.1 hd with ⟨-, rfl⟩ | ⟨-, -, rfl⟩ | ⟨-, -, -, rfl⟩ <;> decide
  · cases h
    decide
  · rcases exec_fault_cases (endCycle_eq_fault_iff.1 h) with rfl | rfl | ⟨rfl, -⟩ <;> decide

/-- A step is refused only at ECALL or MRET with no answer pending (48_system.md R341). -/
theorem step_refused_cases {s : State} {q : Refusal} (h : step s = .refused q) :
    s.control = [] ∧ (q = .control 0x00000073#32 s.pc ∨ q = .control 0x30200073#32 s.pc) := by
  rcases step_cases s with ⟨d, -, hstep⟩ | ⟨-, -, hstep⟩ | ⟨i, -, -, hstep⟩ <;> rw [hstep] at h
  · cases h
  · cases h
  · obtain ⟨hcontrol, hq⟩ := exec_refused_cases (endCycle_eq_refused_iff.1 h)
    exact ⟨hcontrol, hq.imp And.right And.right⟩

/-! ## A state for each violation -/

theorem fetchWord_placeWord (s : State) (word : Word) : (s.placeWord word).fetchWord = word :=
  readWord_writeWord_same s.mem (wordAddrOf s.pc) word

/-- Placing a word touches memory only, and none of the checks before the fetch reads memory (10_state.md R45). -/
theorem fetchOk_placeWord {s : State} (hs : FetchOk s) (word : Word) : FetchOk (s.placeWord word) :=
  ⟨hs.istate, hs.aligned, hs.allowed⟩

/-- An instruction placed at the pc is the one that the step runs (20_memory.md R66). -/
theorem step_placeWord_encode {s : State} (hs : FetchOk s) {i : Instr} (hwf : i.wf = true) :
    step (s.placeWord (encode i)) = endCycle (exec i (s.placeWord (encode i))) :=
  step_of_decodeWord (fetchOk_placeWord hs _) (by rw [fetchWord_placeWord, decodeWord_encode hwf])

theorem exists_step_vState : ∃ s, step s = .fault .vState :=
  ⟨{ State.reset with istate := 1 }, step_of_not_decodeReady (by decide)⟩

theorem exists_step_vFetchAlign : ∃ s, step s = .fault .vFetchAlign :=
  ⟨{ State.reset with pc := 0x1002#32 }, step_of_misaligned_pc rfl (by decide)⟩

/-- The word 0 has no row in the opcode table (30_encoding.md R118). -/
theorem exists_step_vIllegal : ∃ s, step s = .fault .vIllegal :=
  ⟨State.reset.placeWord 0#32, step_of_lookup_none (fetchOk_placeWord fetchOk_reset _)
    (by rw [fetchWord_placeWord]; decide)⟩

/-- `LW x0, 1(x0)` reads from address 1. -/
theorem exists_step_vMisaligned : ∃ s, step s = .fault .vMisaligned := by
  refine ⟨State.reset.placeWord (encode (.lw 0#5 0#5 1#12)), ?_⟩
  rw [step_placeWord_encode fetchOk_reset rfl, endCycle_eq_fault_iff, exec_lw, loadFrom_misaligned_iff]
  decide

/-- The fetch at a pc that ADDR_OK refuses. -/
theorem exists_step_vMem : ∃ s, step s = .fault .vMem :=
  ⟨{ State.reset with params := { Config.initParams with denied := [⟨none, .fetch, 0#30, 0x3FFFFFFF#30⟩] } },
    step_of_refused_fetch rfl (by decide) (by decide)⟩

/-- ECALL with a violation as the answer. -/
theorem exists_step_vControl : ∃ s, step s = .fault .vControl := by
  have hs : FetchOk { State.reset with control := [.violation] } :=
    ⟨fetchOk_reset.istate, fetchOk_reset.aligned, fetchOk_reset.allowed⟩
  refine ⟨State.placeWord { State.reset with control := [.violation] } (encode .ecall), ?_⟩
  rw [step_placeWord_encode hs rfl, endCycle_eq_fault_iff, exec_ecall]
  exact controlStep_of_violation (rest := []) rfl _

/-- Settles O8: the codes of the checks, the decode and the instructions, and the state above that raises each. -/
theorem onlySixViolations : Obligations.OnlySixViolations := by
  refine fun c => ⟨fun ⟨_, h⟩ => step_fault_code h, ?_⟩
  rintro (rfl | rfl | rfl | rfl | rfl | rfl)
  · exact exists_step_vState
  · exact exists_step_vFetchAlign
  · exact exists_step_vIllegal
  · exact exists_step_vMisaligned
  · exact exists_step_vMem
  · exact exists_step_vControl

/-! ## Block-level runs -/

section

variable {haltPc : Option Word} {s : State}

/-- A run at HALT_PC halts, however many cycles it has (log 23). -/
theorem blockRun_of_haltPc (h : haltPc = some s.pc) (n : Nat) : blockRun haltPc n s = .halted s := by
  cases n <;> exact if_pos h

theorem blockRun_zero_of_ne (h : haltPc ≠ some s.pc) : blockRun haltPc 0 s = .cut s := if_neg h

theorem blockRun_of_step_next (h : haltPc ≠ some s.pc) {t : State} (ht : step s = .next t) (n : Nat) :
    blockRun haltPc (n + 1) s = blockRun haltPc n t := by
  rw [blockRun, if_neg h, ht]

theorem blockRun_of_step_fault (h : haltPc ≠ some s.pc) {c : Fault} (hc : step s = .fault c) (n : Nat) :
    blockRun haltPc (n + 1) s = .invalid c := by
  rw [blockRun, if_neg h, hc]

theorem blockRun_of_step_refused (h : haltPc ≠ some s.pc) {q : Refusal} (hq : step s = .refused q) (n : Nat) :
    blockRun haltPc (n + 1) s = .stopped q s := by
  rw [blockRun, if_neg h, hq]

end

/-- Every ending of a run (70_reset_and_hazards.md R382), with what the step does in the state where it ends. -/
theorem blockRun_cases (haltPc : Option Word) (n : Nat) (s : State) :
    (∃ u, haltPc = some u.pc ∧ blockRun haltPc n s = .halted u) ∨
      (∃ u, blockRun haltPc n s = .cut u) ∨
      (∃ u c, step u = .fault c ∧ blockRun haltPc n s = .invalid c) ∨
      (∃ u q, step u = .refused q ∧ blockRun haltPc n s = .stopped q u) := by
  induction n generalizing s with
  | zero =>
    by_cases hpc : haltPc = some s.pc
    · exact .inl ⟨s, hpc, blockRun_of_haltPc hpc 0⟩
    · exact .inr (.inl ⟨s, blockRun_zero_of_ne hpc⟩)
  | succ n ih =>
    by_cases hpc : haltPc = some s.pc
    · exact .inl ⟨s, hpc, blockRun_of_haltPc hpc (n + 1)⟩
    · cases hstep : step s with
      | next t =>
        rw [blockRun_of_step_next hpc hstep]
        exact ih t
      | fault c => exact .inr (.inr (.inl ⟨s, c, hstep, blockRun_of_step_fault hpc hstep n⟩))
      | refused q => exact .inr (.inr (.inr ⟨s, q, hstep, blockRun_of_step_refused hpc hstep n⟩))

/-- A run that was not cut has ended, so further cycles are not used (70_reset_and_hazards.md R382). -/
theorem blockRun_add_of_not_cut {haltPc : Option Word} {n : Nat} {s : State}
    (h : ∀ u, blockRun haltPc n s ≠ .cut u) (k : Nat) : blockRun haltPc (n + k) s = blockRun haltPc n s := by
  induction n generalizing s with
  | zero =>
    have hpc : haltPc = some s.pc := by_contra fun hne => h s (blockRun_zero_of_ne hne)
    rw [blockRun_of_haltPc hpc, blockRun_of_haltPc hpc]
  | succ n ih =>
    rw [Nat.add_right_comm n 1 k]
    by_cases hpc : haltPc = some s.pc
    · rw [blockRun_of_haltPc hpc, blockRun_of_haltPc hpc]
    · cases hstep : step s with
      | next t =>
        rw [blockRun_of_step_next hpc hstep] at h ⊢
        rw [blockRun_of_step_next hpc hstep, ih h]
      | fault c => rw [blockRun_of_step_fault hpc hstep, blockRun_of_step_fault hpc hstep]
      | refused q => rw [blockRun_of_step_refused hpc hstep, blockRun_of_step_refused hpc hstep]

/-- Settles O37: the endings are those of `blockRun_cases`, with the codes and refusals of a step. -/
theorem blockRunEndings : Obligations.BlockRunEndings := by
  intro haltPc n s
  refine ⟨fun k h => blockRun_add_of_not_cut h k, ?_⟩
  rcases blockRun_cases haltPc n s with ⟨u, hpc, hrun⟩ | ⟨u, hrun⟩ | ⟨u, c, hstep, hrun⟩ | ⟨u, q, hstep, hrun⟩ <;>
    rw [hrun]
  · exact ⟨fun _ h => RunEnd.halted.inj h ▸ hpc, nofun, nofun⟩
  · exact ⟨nofun, nofun, nofun⟩
  · refine ⟨nofun, nofun, fun d hd => ?_⟩
    cases hd
    simpa using step_fault_code hstep
  · refine ⟨nofun, fun p v hp => ?_, nofun⟩
    cases hp
    exact ⟨hstep, step_refused_cases hstep⟩

/-! ## The default control step -/

/-- A run whose next instruction is a hand-off ends there when no answer is pending (48_system.md R341). -/
theorem blockRun_of_handOff {haltPc : Option Word} {s : State} {i : Instr} {word : Word} (hs : FetchOk s)
    (hpc : haltPc ≠ some s.pc) (hcontrol : s.control = []) (hd : decodeWord s.fetchWord = .ok i)
    (hi : exec i s = controlStep word s) (n : Nat) :
    blockRun haltPc (n + 1) s = .stopped (.control word s.pc) s := by
  refine blockRun_of_step_refused hpc ?_ n
  rw [step_of_decodeWord hs hd, endCycle_eq_refused_iff, hi, controlStep_of_nil hcontrol]

/-- Settles O30: the two words decode to the two hand-offs, and each answers as the queue says. -/
theorem defaultControlEndsTheRun : Obligations.DefaultControlEndsTheRun := by
  refine ⟨fun s n haltPc hs hpc hcontrol => ⟨fun hw => ?ecall, fun hw => ?mret⟩, fun s rest h => ?violation⟩
  case ecall => exact blockRun_of_handOff hs hpc hcontrol (hw ▸ decodeWord_encode (i := .ecall) rfl) (exec_ecall s) n
  case mret => exact blockRun_of_handOff hs hpc hcontrol (hw ▸ decodeWord_encode (i := .mret) rfl) (exec_mret s) n
  case violation => exact ⟨controlStep_of_violation h _, controlStep_of_violation h _⟩

end Sys2Proof.Safety
end
